-- ==== Sys2Proof/Word.lean ====
section
/-! DEFINITION. The two widths the spec moves data in: a payload byte and a 32-bit word (00_scope.md R9). -/

namespace Sys2Proof

/-- One byte of an event record or of memory (30_encoding.md R86). -/
abbrev Byte := BitVec 8

/-- A memory word, a hold value or an address: `WORD` = 32 bits (00_scope.md R9). -/
abbrev Word := BitVec 32

end Sys2Proof
end

