-- ==== Sys2Proof/Syntax.lean ====
section
/-! DEFINITION. The event records of 30_encoding.md R88, one constructor of `Instr` per row of the opcode table.

A scan operand `n, V` is kept as its `n` bits in time order, first-shifted first (R18, R92): `bits.length` is `n` and bit
`i` of `V` is `bits[i]`. -/

namespace Sys2Proof

/-- A transport event that the `null` prefix may carry: opcodes 0x11 to 0x16 (R87, R201). -/
inductive TransportCall where
  | reset
  | readId
  | updateIr (bits : List Bool)
  | updateDr (bits : List Bool)
  | tick (n : Word)
  | teardown
  deriving DecidableEq, Repr

/-- One event of a program (R88). -/
inductive Instr where
  /-- `pin tck, v` (0x01, R113). -/
  | pinTck (level : Bool)
  /-- `pin tms, v` (0x02, R111). -/
  | pinTms (level : Bool)
  /-- `pin tdi, v` (0x03, R112). -/
  | pinTdi (level : Bool)
  /-- `pin tdo` (0x04, R114). -/
  | pinTdo
  /-- `clock m, d` (0x05, R176): TMS level, TDI level. -/
  | clock (tms tdi : Bool)
  /-- `init` (0x10, R200). -/
  | init
  /-- `reset` (0x11, R180). -/
  | reset
  /-- `read_id` (0x12, R190). -/
  | readId
  /-- `update_ir n, V` (0x13, R184). -/
  | updateIr (bits : List Bool)
  /-- `update_dr n, V` (0x14, R186). -/
  | updateDr (bits : List Bool)
  /-- `tick n` (0x15, R193). -/
  | tick (n : Word)
  /-- `teardown` (0x16, R198). -/
  | teardown
  /-- `null E` (0x1F, R201). -/
  | null (call : TransportCall)
  /-- `emu_attach [w0, …]` (0x20, R169). -/
  | emuAttach (words : List Word)
  /-- `emu_read a` (0x21, R166). -/
  | emuRead (addr : Word)
  deriving DecidableEq, Repr

/-- The event that issues a transport call through a live handle. -/
def Instr.ofCall : TransportCall → Instr
  | .reset => .reset
  | .readId => .readId
  | .updateIr bits => .updateIr bits
  | .updateDr bits => .updateDr bits
  | .tick n => .tick n
  | .teardown => .teardown

end Sys2Proof
end

