-- ==== Sys2Proof/WellFormed.lean ====
section
/-! DEFINITION. Which events an event record can carry: a bit count and a word count are unsigned 32-bit operands
(30_encoding.md R87, R92, R94). Every other operand fits by its type. -/

namespace Sys2Proof

/-- A list whose length a 32-bit count operand can hold. -/
def countFits {α : Type} (xs : List α) : Bool :=
  decide (xs.length < 2 ^ 32)

/-- A transport call an event record can carry (R92). -/
def TransportCall.wellFormed : TransportCall → Bool
  | .reset => true
  | .readId => true
  | .updateIr bits => countFits bits
  | .updateDr bits => countFits bits
  | .tick _ => true
  | .teardown => true

/-- An event an event record can carry (R87, R92, R94). -/
def Instr.wellFormed : Instr → Bool
  | .pinTck _ => true
  | .pinTms _ => true
  | .pinTdi _ => true
  | .pinTdo => true
  | .clock _ _ => true
  | .init => true
  | .reset => true
  | .readId => true
  | .updateIr bits => countFits bits
  | .updateDr bits => countFits bits
  | .tick _ => true
  | .teardown => true
  | .null call => call.wellFormed
  | .emuAttach words => countFits words
  | .emuRead _ => true

end Sys2Proof
end

