-- ==== Sys2Proof/Decode.lean ====
section
/-! DEFINITION. Decoding and encoding of event records (30_encoding.md R86 to R99). Decoding is total on any bytes. -/

namespace Sys2Proof

/-- What a decoder finds at the start of a byte string: a record and the bytes after it, an illegal record (R97), or a
record that runs past the end (R98). -/
inductive Decoded (α : Type) where
  | ok (a : α) (rest : List Byte)
  | illegal
  | truncated
  deriving DecidableEq, Repr

/-- Apply a constructor to the record found. -/
def Decoded.map {α β : Type} (f : α → β) : Decoded α → Decoded β
  | .ok a rest => .ok (f a) rest
  | .illegal => .illegal
  | .truncated => .truncated

/-! ### Operand assembly -/

/-- The number whose bit `i` is `bits[i]`: the scan value `V` of R92. -/
def scanValue : List Bool → Nat
  | [] => 0
  | b :: bs => b.toNat + 2 * scanValue bs

/-- The `n` low bits of `v`, bit 0 first: the scan operand an assembler makes of `n, v` (R92, R100). -/
def bitsOf (n v : Nat) : List Bool :=
  (List.range n).map v.testBit

/-- The eight bits of a payload byte, bit 0 first (R92). -/
def byteBits (b : Byte) : List Bool :=
  bitsOf 8 b.toNat

/-- The first `n` bits of a payload, bit `i` in bit `i mod 8` of byte `i / 8`; later bits are ignored (R66, R92). -/
def unpackBits : Nat → List Byte → List Bool
  | _, [] => []
  | n, b :: bs => (byteBits b).take n ++ unpackBits (n - 8) bs

/-- The first `k` payload bytes of a bit string, the unused high bits of the last byte zero (R66, R93). -/
def packBytes : Nat → List Bool → List Byte
  | 0, _ => []
  | k + 1, bits => BitVec.ofNat 8 (scanValue (bits.take 8)) :: packBytes k (bits.drop 8)

/-- The number of payload bytes of an `n`-bit scan, `ceil(n / 8)` (R87). -/
def payloadLength (n : Nat) : Nat :=
  (n + 7) / 8

/-- The payload of a bit string (R92, R93). -/
def packBits (bits : List Bool) : List Byte :=
  packBytes (payloadLength bits.length) bits

/-- The four little-endian bytes of a 32-bit operand (R86). -/
def wordBytes (w : Word) : List Byte :=
  [w.extractLsb' 0 8, w.extractLsb' 8 8, w.extractLsb' 16 8, w.extractLsb' 24 8]

/-- The 32-bit operand of four bytes, the first least significant (R86). -/
def wordOfBytes (b0 b1 b2 b3 : Byte) : Word :=
  b3 ++ b2 ++ b1 ++ b0

/-- Read a 32-bit operand (R86). -/
def takeWord : List Byte → Option (Word × List Byte)
  | b0 :: b1 :: b2 :: b3 :: rest => some (wordOfBytes b0 b1 b2 b3, rest)
  | _ => none

/-- Read `m` 32-bit words (R94). -/
def takeWords : Nat → List Byte → Option (List Word × List Byte)
  | 0, bs => some ([], bs)
  | m + 1, bs =>
    match takeWord bs with
    | none => none
    | some (w, rest) =>
      match takeWords m rest with
      | none => none
      | some (ws, rest') => some (w :: ws, rest')

/-! ### Decoding -/

/-- Format P (R87, R90): bits 7..1 of the level byte must be 0 (R97). -/
def decodePin (make : Bool → Instr) : List Byte → Decoded Instr
  | [] => .truncated
  | b :: rest => if b.toNat < 2 then .ok (make (b.getLsbD 0)) rest else .illegal

/-- Format C (R87, R91): bit 1 is TMS, bit 0 is TDI, bits 7..2 must be 0 (R97). -/
def decodeClock : List Byte → Decoded Instr
  | [] => .truncated
  | b :: rest => if b.toNat < 4 then .ok (.clock (b.getLsbD 1) (b.getLsbD 0)) rest else .illegal

/-- Format S (R87, R92). -/
def decodeScan (make : List Bool → TransportCall) (bs : List Byte) : Decoded TransportCall :=
  match takeWord bs with
  | none => .truncated
  | some (n, rest) =>
    let k := payloadLength n.toNat
    if rest.length < k then .truncated
    else .ok (make (unpackBits n.toNat (rest.take k))) (rest.drop k)

/-- Formats N and R (R87, R94). -/
def decodeWordOperand {α : Type} (make : Word → α) (bs : List Byte) : Decoded α :=
  match takeWord bs with
  | none => .truncated
  | some (w, rest) => .ok (make w) rest

/-- Format A (R87, R94). -/
def decodeAttach (bs : List Byte) : Decoded Instr :=
  match takeWord bs with
  | none => .truncated
  | some (m, rest) =>
    if rest.length < 4 * m.toNat then .truncated
    else
      match takeWords m.toNat rest with
      | none => .truncated
      | some (ws, rest') => .ok (.emuAttach ws) rest'

/-- The transport records 0x11 to 0x16 (R88); any other opcode is illegal here (R97). -/
def decodeCall (op : Byte) (bs : List Byte) : Decoded TransportCall :=
  if op = 0x11#8 then .ok .reset bs
  else if op = 0x12#8 then .ok .readId bs
  else if op = 0x13#8 then decodeScan .updateIr bs
  else if op = 0x14#8 then decodeScan .updateDr bs
  else if op = 0x15#8 then decodeWordOperand .tick bs
  else if op = 0x16#8 then .ok .teardown bs
  else .illegal

/-- Format X (R87, R201): the record after the prefix byte. -/
def decodeNull : List Byte → Decoded Instr
  | [] => .truncated
  | op :: bs => (decodeCall op bs).map .null

/-- The record at the start of a byte string (R88, R89, R97, R98). -/
def decode : List Byte → Decoded Instr
  | [] => .truncated
  | op :: bs =>
    if op = 0x01#8 then decodePin .pinTck bs
    else if op = 0x02#8 then decodePin .pinTms bs
    else if op = 0x03#8 then decodePin .pinTdi bs
    else if op = 0x04#8 then .ok .pinTdo bs
    else if op = 0x05#8 then decodeClock bs
    else if op = 0x10#8 then .ok .init bs
    else if op = 0x1F#8 then decodeNull bs
    else if op = 0x20#8 then decodeAttach bs
    else if op = 0x21#8 then decodeWordOperand .emuRead bs
    else (decodeCall op bs).map .ofCall

/-- The verdict of a program decode (R98). -/
inductive Verdict where
  | complete
  | illegalEvent
  | truncatedEvent
  deriving DecidableEq, Repr

/-- `decodeProgram` with a bound on the number of records. -/
def decodeRecords : Nat → List Byte → List Instr × Verdict
  | _, [] => ([], .complete)
  | 0, _ :: _ => ([], .truncatedEvent)
  | fuel + 1, b :: bs =>
    match decode (b :: bs) with
    | .ok i rest => (i :: (decodeRecords fuel rest).1, (decodeRecords fuel rest).2)
    | .illegal => ([], .illegalEvent)
    | .truncated => ([], .truncatedEvent)

/-- The records of a program up to the first illegal or truncated one, and the verdict (R86, R98). A record is at least
one byte long, so the number of bytes bounds the number of records. -/
def decodeProgram (bs : List Byte) : List Instr × Verdict :=
  decodeRecords bs.length bs

/-! ### Encoding -/

/-- A format-S record (R87). -/
def scanRecord (op : Byte) (bits : List Bool) : List Byte :=
  op :: (wordBytes (BitVec.ofNat 32 bits.length) ++ packBits bits)

/-- The record of a transport call (R87, R88). -/
def encodeCall : TransportCall → List Byte
  | .reset => [0x11#8]
  | .readId => [0x12#8]
  | .updateIr bits => scanRecord 0x13#8 bits
  | .updateDr bits => scanRecord 0x14#8 bits
  | .tick n => 0x15#8 :: wordBytes n
  | .teardown => [0x16#8]

/-- A level byte (R90). -/
def levelByte (level : Bool) : Byte :=
  if level then 1#8 else 0#8

/-- The operand byte of `clock` (R91): `m << 1 | d`. -/
def clockByte (tms tdi : Bool) : Byte :=
  BitVec.ofNat 8 (2 * tms.toNat + tdi.toNat)

/-- The record of an event (R87, R88). -/
def encode : Instr → List Byte
  | .pinTck level => [0x01#8, levelByte level]
  | .pinTms level => [0x02#8, levelByte level]
  | .pinTdi level => [0x03#8, levelByte level]
  | .pinTdo => [0x04#8]
  | .clock tms tdi => [0x05#8, clockByte tms tdi]
  | .init => [0x10#8]
  | .reset => encodeCall .reset
  | .readId => encodeCall .readId
  | .updateIr bits => encodeCall (.updateIr bits)
  | .updateDr bits => encodeCall (.updateDr bits)
  | .tick n => encodeCall (.tick n)
  | .teardown => encodeCall .teardown
  | .null call => 0x1F#8 :: encodeCall call
  | .emuAttach words => 0x20#8 :: (wordBytes (BitVec.ofNat 32 words.length) ++ words.flatMap wordBytes)
  | .emuRead addr => 0x21#8 :: wordBytes addr

/-- The length of a transport call's record (R89). -/
def callLength : TransportCall → Nat
  | .reset => 1
  | .readId => 1
  | .updateIr bits => 5 + payloadLength bits.length
  | .updateDr bits => 5 + payloadLength bits.length
  | .tick _ => 5
  | .teardown => 1

/-- The length in bytes of an event's record (R87, R89). -/
def recordLength : Instr → Nat
  | .pinTck _ => 2
  | .pinTms _ => 2
  | .pinTdi _ => 2
  | .pinTdo => 1
  | .clock _ _ => 2
  | .init => 1
  | .reset => callLength .reset
  | .readId => callLength .readId
  | .updateIr bits => callLength (.updateIr bits)
  | .updateDr bits => callLength (.updateDr bits)
  | .tick n => callLength (.tick n)
  | .teardown => callLength .teardown
  | .null call => 1 + callLength call
  | .emuAttach words => 5 + 4 * words.length
  | .emuRead _ => 5

/-! ### The opcode table's numbering -/

/-- The bytes of an instruction whose bits are `w`, numbered as spec/opcode_table.json numbers them, followed by operand
bytes of zero (log 27). -/
def tableBytes (nbits w : Nat) : List Byte :=
  (List.range ((nbits + 7) / 8)).map (fun k => BitVec.ofNat 8 (w >>> (8 * k))) ++ List.replicate 16 0#8

/-- The instruction the decoder reads from an opcode-table word. -/
def decodeTableWord (nbits w : Nat) : Option Instr :=
  match decode (tableBytes nbits w) with
  | .ok i _ => some i
  | .illegal => none
  | .truncated => none

end Sys2Proof
end

