-- ==== Sys2Proof/Config.lean ====
section
/-! DEFINITION. The parameters of 00_scope.md R5 and R9, and the free values `draw()` of R15.

A `Config` is an argument of the model: the machine carries one in `State.cfg`, no step writes it, and a statement over
all states holds for every configuration (log 1). -/

namespace Sys2Proof

/-- The transport's two backends (43_transport.md R175). -/
inductive Backend where
  | emulator
  | bitBang
  deriving DecidableEq, Repr

/-- A word that is not 0. -/
structure NonzeroWord where
  word : Word
  nonzero : (word != 0#32) = true
  deriving DecidableEq, Repr

/-- `ERR_TRANSPORT` and `ERR_INVAL` (R251): open, but distinct and non-zero (D18).
DESIGN CHOICE (log 31): the spec gives the codes no width; they are 32-bit words. -/
structure ErrorCodes where
  transport : Word
  inval : Word
  distinct : (transport != 0#32 && inval != 0#32 && transport != inval) = true
  deriving DecidableEq, Repr

/-- The parameters of the model (00_scope.md R5, R9). `MEM_WORDS` is not here: `emu_attach` sets it (R169). -/
structure Config where
  backend : Backend
  /-- `EMULATION`: the two polls of a sequencer run are skipped (R242). -/
  emulation : Bool
  /-- `VERIFY_ENABLED` (R222). -/
  verifyEnabled : Bool
  /-- `RESET_ON_EXTERNAL_SIGNAL` (R235, R256). -/
  resetOnExternalSignal : Bool
  /-- `TRACK_RESET` (R224). -/
  trackReset : Bool
  /-- `IR_LEN` (R9, D7). -/
  irLen : Nat
  /-- `ADDR_INSTR`, the "known 'address' instruction" (R9, R96). -/
  addrInstr : Word
  /-- `EXPECTED_ID` (R9, R231). -/
  expectedId : Word
  /-- `ID_TDI_FILL` (R9, R190). -/
  idTdiFill : Word := 0xFFFFFFFF#32
  /-- `P_IR_CANCEL` (R156). -/
  pIrCancel : Bool := true
  /-- `P_REARM` (R159). -/
  pRearm : Bool := false
  /-- `BYPASS_SELECT`: the IR values that make Scan-DR select BYP (R136). -/
  bypassSelect : List Word := []
  /-- `COUNT_MODULUS` (R30); `none` is the unbounded counter. -/
  countModulus : Option Nat := none
  /-- `MIDOP_FAIL`, of the bit-bang backend only (R197). -/
  midopFail : Bool := false
  /-- `HALT_CTRL_ADDR`, `HALT_SHIFT`, `SOFT_RESET_SHIFT` (R44). -/
  haltCtrlAddr : Word
  haltShift : Nat
  softResetShift : Fin 32
  /-- `RESET_VECTOR_ADDR`, `ENTER_PATCH_VECTOR` (R46). -/
  resetVectorAddr : Word
  enterPatchVector : Word
  /-- `POSTCODE_ADDR`, `POSTCODE_SHIFT` (R47). -/
  postcodeAddr : Word
  postcodeShift : Nat
  /-- `GPIO_DIR_ADDR`, `GPIO_DIR_MASK` (R48). -/
  gpioDirAddr : Word
  gpioDirMask : Word
  /-- `PATCH_TARGET`, a word offset: open, but not 0 (R9, R227, D25). -/
  patchTarget : NonzeroWord
  /-- `POLL_BOUND` (R239); `none` is the unbounded poll. -/
  pollBound : Option Nat := none
  /-- `ERR_TRANSPORT`, `ERR_INVAL` (R251, D18). -/
  errorCodes : ErrorCodes
  /-- The boot patch: "a byte array plus its length in 32-bit words" (R55, R228). -/
  patchBytes : List Byte
  patchLen : Nat
  deriving DecidableEq, Repr

/-- The example configuration E of 95_test_vectors.md, with the parameters E does not give filled in.
DESIGN CHOICE (log 1): only `State.reset` uses it; no rule of the spec fixes these values. -/
def Config.exampleE : Config where
  backend := .emulator
  emulation := true
  verifyEnabled := true
  resetOnExternalSignal := true
  trackReset := true
  irLen := 5
  addrInstr := 0x13#32
  expectedId := 0#32
  haltCtrlAddr := 0x80#32
  haltShift := 0
  softResetShift := 4
  resetVectorAddr := 0x84#32
  enterPatchVector := 0x1000#32
  postcodeAddr := 0x88#32
  postcodeShift := 0
  gpioDirAddr := 0x8C#32
  gpioDirMask := 0xFF#32
  patchTarget := ⟨3#32, rfl⟩
  errorCodes := ⟨1#32, 2#32, rfl⟩
  patchBytes := []
  patchLen := 0

/-- `draw()` of one bit (R15): a TDO sample, a power-good level, the verdict of R179. No value of it can be proved. -/
opaque Config.drawBit : Nat → Bool

/-- `draw()` of one word (R15): an out-of-range direct read (R166). -/
opaque Config.drawWord : Nat → Word

/-- `draw()` of a natural number (R15): the number of cycles a failing operation makes (R197). -/
opaque Config.drawNat : Nat → Nat

end Sys2Proof
end

