-- ==== Sys2Proof/Machine/State.lean ====
section
/-! DEFINITION. The state of the machine: everything 10_state.md gives the block, the transport and the host, as plain
data. INVENTORY.md '## State' lists each field with its rule. -/

namespace Sys2Proof.Machine

/-! ### The TAP device (10_state.md §1) -/

/-- The 16 TAP states (R25). -/
inductive TapState where
  | reset
  | idle
  | scanDr
  | scanIr
  | captureDr
  | captureIr
  | shiftDr
  | shiftIr
  | exit1Dr
  | exit1Ir
  | pauseDr
  | pauseIr
  | exit2Dr
  | exit2Ir
  | updateDr
  | updateIr
  deriving DecidableEq, Repr

/-- The three logical registers, and the values of the select `sel` (R27, R28). -/
inductive RegName where
  | byp
  | ir
  | dr
  deriving DecidableEq, Repr

/-- One logical register: accumulator, bit count and hold value (R28 to R31). The accumulator keeps the 32 bits that are
ever read (R29, log 4). -/
structure ShiftReg where
  acc : Word
  count : Nat
  hold : Word
  deriving DecidableEq, Repr

/-- The pairing phase (R33). -/
inductive Phase where
  | none
  | armed
  | addr (a : Word)
  deriving DecidableEq, Repr

/-- The emulated memory array (R34): its length `N` in words, and the bytes of its words that are not zero, by rising
byte address (log 5). -/
structure Memory where
  words : Nat
  cells : List Host.Cell
  deriving DecidableEq, Repr

/-- The TAP controller (R25 to R35). -/
structure Device where
  tap : TapState
  sel : RegName
  byp : ShiftReg
  ir : ShiftReg
  dr : ShiftReg
  phase : Phase
  mem : Memory
  tck : Bool
  tms : Bool
  tdi : Bool
  deriving DecidableEq, Repr

/-! ### Outcomes -/

/-- Why a step stops for good. -/
inductive Fault where
  /-- Raised by the step when the main context waits at an `acquire` that can never return and the irq context cannot
  move either (45_host_protocol.md R238, 60_exceptions.md R266). Safe: the spec's own outcome `Stuck`. -/
  | stuck
  deriving DecidableEq, Repr

/-- Why the model does not run an event (60_exceptions.md R250). Each is the spec's own refusal, except `notModelled`. -/
inductive Refusal where
  /-- Raised by an arm of `exec` for an instruction without a meaning; no arm does. Safe. -/
  | notModelled (mnemonic : String)
  /-- Raised at fetch: unassigned opcode, reserved operand bit, bad null form (R97). Safe: the spec refuses it. -/
  | illegalEvent
  /-- Raised at fetch: the record runs past the end of the program (R98). Safe: the spec refuses it. -/
  | truncatedEvent
  /-- Raised by `read_id`, a non-empty scan or `tick` while the pins are released (R199). Safe: the spec refuses it. -/
  | pinsReleased
  /-- Raised by a register read of a host procedure under the bit-bang backend (R206). Safe: the spec refuses it. -/
  | physicalReadRefused
  /-- Raised by `emu_attach` and `emu_read` under the bit-bang backend (R172). Safe: the spec refuses it. -/
  | emulatorOnly
  /-- Raised by every step when the parameters break 00_scope.md R10. Safe: the spec refuses it. -/
  | configInvalid
  deriving DecidableEq, Repr

/-- The value an event returns to its caller (R245). -/
inductive Result where
  | ok
  /-- A TDO sample of `pin tdo` (R114). -/
  | okBit (b : Bool)
  /-- The bits out of `update_dr`, packed (R93, R188): the bit count and the bytes. -/
  | okBits (n : Nat) (bytes : List Byte)
  /-- The identification value of `read_id` (R190). -/
  | okId (id : Word)
  /-- The word of `emu_read` (R166). -/
  | okWord (w : Word)
  | transportError
  | invalidArgument
  deriving DecidableEq, Repr

/-- The result of a host procedure (R245, 45_host_protocol.md). -/
inductive ProcResult where
  | ok
  | transportError
  | invalidArgument
  | refused (reason : Refusal)
  /-- `Mismatch(k, expected, actual)` of `verify` (R222). -/
  | mismatch (k : Nat) (expected actual : Word)
  /-- A bounded poll that gave up (R239). -/
  | pollTimeout
  /-- The word of `read_word` (R206). -/
  | word (w : Word)
  /-- The flag of `was_reset` (R237). -/
  | flag (b : Bool)
  deriving DecidableEq, Repr

/-! ### The host (10_state.md §4, 45_host_protocol.md) -/

/-- The host's two contexts (R215). -/
inductive ContextId where
  | main
  | irq
  deriving DecidableEq, Repr

/-- The lock (R53). -/
inductive Lock where
  | free
  | held (by_ : ContextId)
  deriving DecidableEq, Repr

/-- The Reset Sequencer's state (R54). -/
inductive SeqState where
  | idle
  | awaitingPowerGood
  | bringingUpTransport
  | patching
  | verifying
  | releasing
  deriving DecidableEq, Repr

/-- The four sequencing-line events of `BringingUpTransport` (R231). -/
inductive LineEvent where
  | assert_
  | delay1ms
  | deassert
  | delay2ms
  deriving DecidableEq, Repr

/-- The host procedures (30_encoding.md R101 to R103, 45_host_protocol.md). -/
inductive Procedure where
  /-- One event, as a call of its own. -/
  | event (i : Instr)
  /-- One transport call, issued pin event by pin event (20_memory.md R79). -/
  | byPins (call : TransportCall)
  | writeWord (a d : Word)
  | writeBlock (a : Word) (ws : List Word)
  | readWord (a : Word)
  | haltPulse
  | gpioAssert
  | postcode (code : Byte)
  | apply (ws : List Word) (t : Word)
  | verify (ws : List Word) (t : Word)
  | softResetTarget
  | powerOnRun
  | forcedReset
  | pendingPickup
  deriving DecidableEq, Repr

/-- Where an error stops: the end of a procedure call, of a call whose end checks the register map (R226), of the
`verify` inside a run (R229), or of a run. -/
inductive Boundary where
  | call
  | checkedCall
  | verify
  | run
  deriving DecidableEq, Repr

/-- One operation a host context has still to do. -/
inductive HostOp where
  /-- Call a procedure. -/
  | call (p : Procedure)
  /-- Issue one event through the live handle. -/
  | event (i : Instr)
  /-- Issue one transport call as the pin events it is made of, so that the other context may come between them (R79). -/
  | eventByPins (call : TransportCall)
  /-- What was issued pin event by pin event returns `r` (R104, R197). -/
  | returnResult (r : Result)
  /-- Sample TDO for the call being issued by pins (R177). -/
  | sampleTdo
  /-- The call issued by pins has made its cycles and returns (R175). -/
  | returnCall (call : TransportCall)
  /-- The call issued by pins has failed part-way (R197). -/
  | failCall
  /-- Read the word at `a`, then write it back with the bits of `set` set and those of `clear` cleared (R217). -/
  | modify (a set clear : Word)
  /-- `read_word` (R206). -/
  | readRegister (a : Word)
  /-- The `verify` of a sequencer run, if it is enabled (R229). -/
  | runVerify
  /-- `verify` from word `k` on (R222). -/
  | compareWords (k : Nat) (rest : List Word) (t : Word)
  /-- The power-good poll after `reads` reads without success (R239). -/
  | pollPowerGood (reads : Nat)
  /-- The ID poll after `reads` reads without success (R239). -/
  | pollId (reads : Nat)
  | sequencingLine (e : LineEvent)
  | setSeq (q : SeqState)
  /-- `arc_reset_observed <- true`, when `TRACK_RESET` is set (R224). -/
  | markCoreReset
  /-- `workaround_applied <- true` (R234). -/
  | markPatched
  /-- The register-map check of R226. -/
  | checkRegisterMap
  /-- The procedure returns `r`. -/
  | finish (r : ProcResult)
  /-- The procedure ends at once with `r` (R215). -/
  | fail (r : ProcResult)
  | endProcedure (b : Boundary)
  | acquire
  | release
  | setBusCancel (b : Bool)
  /-- The locked section of `on_trigger` (R235). -/
  | triggerBody
  /-- The locked section of the pending pickup (R236). -/
  | pickupBody
  | wasReset
  | ackReset
  deriving DecidableEq, Repr

/-- A host context: what it has still to do, the result of its last procedure, and the TDO samples of the call it is
issuing by pins. -/
structure Context where
  agenda : List HostOp
  outcome : Option ProcResult
  samples : List Bool
  deriving DecidableEq, Repr

/-- A log record of `verify` (R222). -/
structure MismatchRecord where
  k : Nat
  expected : Word
  actual : Word
  deriving DecidableEq, Repr

/-- The host's coordination state (R51 to R54) and its two contexts. -/
structure HostState where
  workaroundApplied : Bool
  resetPending : Bool
  arcResetObserved : Bool
  busCancel : Bool
  lock : Lock
  seq : SeqState
  /-- A sequencer run has started since power-on (R230, log 14). -/
  ranOnce : Bool
  /-- The one trigger held pending (R256). -/
  triggerPending : Bool
  main : Context
  irq : Context
  log : List MismatchRecord
  /-- The last register-map check held (R226). -/
  registerMapOk : Bool
  deriving DecidableEq, Repr

/-- One slot of the environment's schedule (log 10). -/
inductive Input where
  /-- Nothing happens before the next event. -/
  | quiet
  /-- A trigger occurs (R256). -/
  | trigger
  /-- The next event is issued pin event by pin event, so that the other context may come between them (R79). -/
  | split
  deriving DecidableEq, Repr

/-! ### The machine -/

/-- The machine's state. -/
structure State where
  /-- The parameters (R9); no step writes them. -/
  cfg : Config
  dev : Device
  ready : Bool
  pinsOwned : Bool
  host : HostState
  /-- The bytes of the event records not yet run (R86). -/
  program : List Byte
  /-- The environment's slots still to come (log 10). -/
  inputs : List Input
  /-- What the last event returned (R245). -/
  result : Option Result
  /-- How many free values have been drawn (log 3). -/
  draws : Nat
  deriving DecidableEq, Repr

/-! ### Power-on (10_state.md R57) -/

/-- A logical register at power-on. DESIGN CHOICE (log 2): R57 leaves all three fields unspecified. -/
def ShiftReg.powerOn : ShiftReg where
  acc := 0#32
  count := 0
  hold := 0#32

/-- The device at power-on (R57). DESIGN CHOICE (log 2): `sel`, `tms`, `tdi` and the three registers. -/
def Device.powerOn : Device where
  tap := .idle
  sel := .dr
  byp := .powerOn
  ir := .powerOn
  dr := .powerOn
  phase := .none
  mem := ⟨0, []⟩
  tck := false
  tms := false
  tdi := false

/-- The host at power-on (R57, R279). -/
def HostState.powerOn : HostState where
  workaroundApplied := false
  resetPending := false
  arcResetObserved := false
  busCancel := false
  lock := .free
  seq := .idle
  ranOnce := false
  triggerPending := false
  main := ⟨[], none, []⟩
  irq := ⟨[], none, []⟩
  log := []
  registerMapOk := true

/-- Power-on with the parameters `c` (R57, R270). -/
def State.powerOn (c : Config) : State where
  cfg := c
  dev := .powerOn
  ready := false
  pinsOwned := false
  host := .powerOn
  program := []
  inputs := []
  result := none
  draws := 0

/-- The machine right after power-on, with the spec's example parameters (DESIGN CHOICE, log 1). -/
def State.reset : State :=
  .powerOn .exampleE

end Sys2Proof.Machine
end

