-- ==== Sys2Proof/Machine/Operands.lean ====
section
/-! DEFINITION. Operand forms and the block's arithmetic (00_scope.md R12, R13; 41_shift_registers.md R152), the numeric
error codes, and the configuration check of R10. -/

namespace Sys2Proof.Machine

/-- The parameter constraints of R10. -/
def configValid (c : Config) : Bool :=
  decide (1 ≤ c.irLen) && decide (c.irLen ≤ 32) && decide (c.addrInstr.toNat < 2 ^ c.irLen) &&
    decide (c.haltShift + 4 ≤ 32) &&
    !(decide (c.haltShift ≤ c.softResetShift.val) && decide (c.softResetShift.val ≤ c.haltShift + 3)) &&
    decide (c.postcodeShift % 8 = 0) && decide (c.postcodeShift ≤ 24)

/-- An operation of this backend may fail part-way (R197): `MIDOP_FAIL`, never under the emulator. -/
def mayFailMidway (c : Config) : Bool :=
  c.midopFail && decide (c.backend = .bitBang)

/-- The 32-bit bit reversal of R13. -/
def rev32 (x : Word) : Word :=
  x.reverse

/-- `clamp(count, 1, 32)` (R143). -/
def clampCount (count : Nat) : Nat :=
  min (max count 1) 32

/-- The oriented shift value a commit latches (R143, 90_conflicts.md C3). -/
def commitValue (acc : Word) (count : Nat) : Word :=
  rev32 acc >>> (32 - clampCount count)

/-- The accumulator after one shift (R139, R152): the new bit is the least significant. -/
def shiftIn (acc : Word) (b : Bool) : Word :=
  (acc <<< 1) ||| (BitVec.ofBool b).setWidth 32

/-- One more bit counted (R139, R152). -/
def countNext (c : Config) (count : Nat) : Nat :=
  match c.countModulus with
  | none => count + 1
  | some m => (count + 1) % m

/-- The word index of a byte address, `a >> 2` (R61, R161). -/
def wordIndex (a : Word) : Nat :=
  (a >>> 2).toNat

/-- The scan operand of a 32-bit word (R92). -/
def wordBits (w : Word) : List Bool :=
  bitsOf 32 w.toNat

/-- The 32-bit value of the bits `read_id` sampled (R93). -/
def idOfBits (bits : List Bool) : Word :=
  BitVec.ofNat 32 (scanValue bits)

/-- `HM = 0xF << HALT_SHIFT` (R217). -/
def haltMask (c : Config) : Word :=
  0xF#32 <<< c.haltShift

/-- `SR = 1 << SOFT_RESET_SHIFT` (R224). -/
def softResetMask (c : Config) : Word :=
  1#32 <<< c.softResetShift.val

/-- The word a postcode write stores (R219). -/
def postcodeWord (c : Config) (code : Byte) : Word :=
  (code.setWidth 32) <<< c.postcodeShift

/-- `k` little-endian words of a byte array; a byte the array lacks counts as 0 (R67, log 18). -/
def wordsOfBytes : Nat → List Byte → List Word
  | 0, _ => []
  | k + 1, bs => wordOfBytes (bs.getD 0 0) (bs.getD 1 0) (bs.getD 2 0) (bs.getD 3 0) :: wordsOfBytes k (bs.drop 4)

/-- The boot patch as words (R67, R228). -/
def patchWords (c : Config) : List Word :=
  wordsOfBytes c.patchLen c.patchBytes

/-- The numeric code of a result (R251), as a 32-bit word (DESIGN CHOICE, log 31); a refusal, `Stuck`, `Mismatch` and `PollTimeout` have none. -/
def resultCode (c : Config) : Result → Word
  | .ok => 0#32
  | .okBit _ => 0#32
  | .okBits _ _ => 0#32
  | .okId _ => 0#32
  | .okWord _ => 0#32
  | .transportError => c.errorCodes.transport
  | .invalidArgument => c.errorCodes.inval

/-- The 4-bit code of a TAP state (R25). -/
def tapCode : TapState → BitVec 4
  | .reset => 0
  | .idle => 1
  | .scanDr => 2
  | .scanIr => 3
  | .captureDr => 4
  | .captureIr => 5
  | .shiftDr => 6
  | .shiftIr => 7
  | .exit1Dr => 8
  | .exit1Ir => 9
  | .pauseDr => 10
  | .pauseIr => 11
  | .exit2Dr => 12
  | .exit2Ir => 13
  | .updateDr => 14
  | .updateIr => 15

end Sys2Proof.Machine
end

