-- ==== Sys2Proof/Machine/Flags.lean ====
section
/-! DEFINITION. The block has no condition codes (10_state.md R39). Its status-like state is the pairing phase and, on the
transport side, `ready` and `pins_owned`: this file holds how each commit sets the phase and how an operation is admitted. -/

namespace Sys2Proof.Machine

/-- The phase after an IR commit of `v` (R155, R156). -/
def phaseAfterIr (c : Config) (phase : Phase) (v : Word) : Phase :=
  if v = c.addrInstr then .armed
  else if c.pIrCancel then .none
  else phase

/-- The phase after a DR commit of `v` (R157 to R159). -/
def phaseAfterDr (c : Config) (phase : Phase) (v : Word) : Phase :=
  match phase with
  | .none => .none
  | .armed => .addr v
  | .addr _ => if c.pRearm then .armed else .none

/-- What the checks of R178 say of an operation. -/
inductive Admission where
  | run
  | error (r : Result)
  | refuse (r : Refusal)
  deriving DecidableEq, Repr

/-- Checks 3 and 4 of R178, in the order of R252. The handle is live: `null` has its own instruction (R201). -/
def checkCall (ready pinsOwned needsPins : Bool) : Admission :=
  if !ready then .error .transportError
  else if needsPins && !pinsOwned then .refuse .pinsReleased
  else .run

end Sys2Proof.Machine
end

