-- ==== Sys2Proof/Machine/Ops.lean ====
section
/-! DEFINITION. The named operations: memory, shift registers, the falling edge, pins, TCK cycles, free values, and
returning a result. An error is a return value (60_exceptions.md R253); `State.returns` is the one operation that delivers
it, and nothing is saved or restored. -/

namespace Sys2Proof.Machine

/-! ### Memory (42_tdr_memory.md) -/

/-- What a byte of the array reads as when it is not listed: the listed bytes are the non-zero ones (log 5). -/
def unlistedByte : Byte :=
  0#8

/-- The byte listed at an address. -/
def lookupCell : List Host.Cell → Nat → Byte
  | [], _ => unlistedByte
  | (k, v) :: rest, a => if k = a then v else lookupCell rest a

/-- List a byte before cells of higher addresses. -/
def consCell (a : Nat) (v : Byte) (cells : List Host.Cell) : List Host.Cell :=
  if v = unlistedByte then cells else (a, v) :: cells

/-- Write one byte, keeping the canonical form. -/
def setCell : List Host.Cell → Nat → Byte → List Host.Cell
  | [], a, v => consCell a v []
  | (k, w) :: rest, a, v =>
    if a < k then consCell a v ((k, w) :: rest)
    else if a = k then consCell a v rest
    else (k, w) :: setCell rest a v

/-- Addresses strictly rising from `lo`, below `hi`, and no entry equal to an unlisted byte. -/
def cellsWf : Nat → Nat → List Host.Cell → Bool
  | _, _, [] => true
  | lo, hi, (k, v) :: rest => decide (lo ≤ k) && decide (k < hi) && decide (v ≠ unlistedByte) && cellsWf (k + 1) hi rest

/-- The canonical form of a memory (log 5). -/
def Memory.wf (m : Memory) : Bool :=
  cellsWf 0 (4 * m.words) m.cells

/-- The byte at a byte address of the array. -/
def Memory.readByte (m : Memory) (a : Nat) : Byte :=
  lookupCell m.cells a

/-- Word `i` of the array, little-endian bytes (log 5; R68: not observable). -/
def Memory.readWord (m : Memory) (i : Nat) : Word :=
  wordOfBytes (m.readByte (4 * i)) (m.readByte (4 * i + 1)) (m.readByte (4 * i + 2)) (m.readByte (4 * i + 3))

/-- Write the four bytes of a word. -/
def setWordCells (cells : List Host.Cell) (a : Nat) (v : Word) : List Host.Cell :=
  setCell (setCell (setCell (setCell cells a (v.extractLsb' 0 8)) (a + 1) (v.extractLsb' 8 8)) (a + 2) (v.extractLsb' 16 8))
    (a + 3) (v.extractLsb' 24 8)

/-- `MemWrite(a, 4, v)`: the bounded word write; out of range it is silently dropped (R162). -/
def memWrite (m : Memory) (a v : Word) : Memory :=
  if wordIndex a < m.words then { m with cells := setWordCells m.cells (4 * wordIndex a) v } else m

/-- The cells of an array whose first word stands at byte address `a`. -/
def cellsOfWords : Nat → List Word → List Host.Cell
  | _, [] => []
  | a, w :: ws =>
    consCell a (w.extractLsb' 0 8) (consCell (a + 1) (w.extractLsb' 8 8) (consCell (a + 2) (w.extractLsb' 16 8)
      (consCell (a + 3) (w.extractLsb' 24 8) (cellsOfWords (a + 4) ws))))

/-- The array `emu_attach` binds (R169). -/
def attachWords (ws : List Word) : Memory where
  words := ws.length
  cells := cellsOfWords 0 ws

/-! ### Logical registers (41_shift_registers.md) -/

/-- The logical register `r`. -/
def Device.reg (d : Device) : RegName → ShiftReg
  | .byp => d.byp
  | .ir => d.ir
  | .dr => d.dr

/-- Replace the logical register `r`. -/
def Device.setReg (d : Device) (r : RegName) (x : ShiftReg) : Device :=
  match r with
  | .byp => { d with byp := x }
  | .ir => { d with ir := x }
  | .dr => { d with dr := x }

/-- The register the `Scan-DR` action selects (R135, R136). -/
def scanDrTarget (c : Config) (d : Device) : RegName :=
  if d.ir.hold ∈ c.bypassSelect then .byp else .dr

/-- The Capture action: only the bit count of the active register is cleared (R137, R138). -/
def Device.capture (d : Device) : Device :=
  d.setReg d.sel { d.reg d.sel with count := 0 }

/-- The Shift action with TMS low: append the sampled bit (R139). -/
def Device.shift (c : Config) (d : Device) (b : Bool) : Device :=
  d.setReg d.sel
    { d.reg d.sel with acc := shiftIn (d.reg d.sel).acc b, count := countNext c (d.reg d.sel).count }

/-- The IR commit hook (R155, R156). -/
def irCommitHook (c : Config) (d : Device) (v : Word) : Device :=
  { d with phase := phaseAfterIr c d.phase v }

/-- The DR commit hook (R157 to R159): with an address pending, the committed value is written to memory. -/
def drCommitHook (c : Config) (d : Device) (v : Word) : Device :=
  { d with
    phase := phaseAfterDr c d.phase v
    mem := match d.phase with
      | .none => d.mem
      | .armed => d.mem
      | .addr a => memWrite d.mem a v }

/-- The Update action: commit the active register, then its hook (R143, R144). BYP has no hook (R136). -/
def Device.update (c : Config) (d : Device) : Device :=
  let v := commitValue (d.reg d.sel).acc (d.reg d.sel).count
  let d' := d.setReg d.sel { d.reg d.sel with hold := v }
  match d.sel with
  | .byp => d'
  | .ir => irCommitHook c d' v
  | .dr => drCommitHook c d' v

/-! ### The falling edge (40_tap_fsm.md) -/

/-- The transition function `next(s, m)` (R120). -/
def nextTap (s : TapState) (m : Bool) : TapState :=
  match s, m with
  | .reset, false => .idle
  | .reset, true => .reset
  | .idle, false => .idle
  | .idle, true => .scanDr
  | .scanDr, false => .captureDr
  | .scanDr, true => .scanIr
  | .scanIr, false => .captureIr
  | .scanIr, true => .reset
  | .captureDr, false => .shiftDr
  | .captureDr, true => .exit1Dr
  | .captureIr, false => .shiftIr
  | .captureIr, true => .exit1Ir
  | .shiftDr, false => .shiftDr
  | .shiftDr, true => .exit1Dr
  | .shiftIr, false => .shiftIr
  | .shiftIr, true => .exit1Ir
  | .exit1Dr, false => .pauseDr
  | .exit1Dr, true => .updateDr
  | .exit1Ir, false => .pauseIr
  | .exit1Ir, true => .updateIr
  | .pauseDr, false => .pauseDr
  | .pauseDr, true => .exit2Dr
  | .pauseIr, false => .pauseIr
  | .pauseIr, true => .exit2Ir
  | .exit2Dr, false => .shiftDr
  | .exit2Dr, true => .updateDr
  | .exit2Ir, false => .shiftIr
  | .exit2Ir, true => .updateIr
  | .updateDr, false => .idle
  | .updateDr, true => .scanDr
  | .updateIr, false => .idle
  | .updateIr, true => .scanDr

/-- The action `act(s, m, d)` of the state before the edge (R119, R135 to R143). -/
def act (c : Config) (d : Device) (m b : Bool) : Device :=
  match d.tap with
  | .reset => d
  | .idle => d
  | .scanDr => { d with sel := scanDrTarget c d }
  | .scanIr => { d with sel := .ir }
  | .captureDr => d.capture
  | .captureIr => d.capture
  | .shiftDr => if m then d else d.shift c b
  | .shiftIr => if m then d else d.shift c b
  | .exit1Dr => d
  | .exit1Ir => d
  | .pauseDr => d
  | .pauseIr => d
  | .exit2Dr => d
  | .exit2Ir => d
  | .updateDr => d.update c
  | .updateIr => d.update c

/-- The falling-edge step `edge(m, d)`: act on the state before the edge, then move (R117, R119). -/
def edge (c : Config) (d : Device) (m b : Bool) : Device :=
  { act c d m b with tap := nextTap d.tap m }

/-- A sequence of falling edges, each with its TMS and TDI levels. -/
def edges (c : Config) : List (Bool × Bool) → Device → Device
  | [], d => d
  | (m, b) :: rest, d => edges c rest (edge c d m b)

/-! ### Pins (40_tap_fsm.md R111 to R116) -/

/-- Write the mode-select pin (R111). -/
def Device.pinTms (d : Device) (v : Bool) : Device :=
  { d with tms := v }

/-- Write the data-in pin (R112). -/
def Device.pinTdi (d : Device) (v : Bool) : Device :=
  { d with tdi := v }

/-- Write the clock pin: a write of 0 while it is 1 is the falling edge, with the latched levels (R113, R118). -/
def Device.pinTck (c : Config) (d : Device) (v : Bool) : Device :=
  if d.tck && !v then { edge c d d.tms d.tdi with tck := v } else { d with tck := v }

/-! ### Free values -/

/-- Count `n` free values as drawn (log 3). -/
def State.advanceDraws (s : State) (n : Nat) : State :=
  { s with draws := s.draws + n }

/-- `draw()` of one bit. -/
def State.drawBit (s : State) : Bool × State :=
  (Config.drawBit s.draws, s.advanceDraws 1)

/-! ### Results -/

/-- Return a result to the caller: the one way an event, and in particular an error, ends (R245, R253). -/
def State.returns (s : State) (r : Result) : State :=
  { s with result := some r }

/-- Replace the device. -/
def State.setDev (s : State) (d : Device) : State :=
  { s with dev := d }

/-! ### TCK cycles (43_transport.md R176, R177) -/

/-- One TCK cycle: the five pin events of R176; answers the TDO sample, taken while TCK is high (R177). -/
def clockCycle (m b : Bool) (s : State) : Bool × State :=
  let s1 := s.setDev (s.dev.pinTms m)
  let s2 := s1.setDev (s1.dev.pinTdi b)
  let s3 := s2.setDev (s2.dev.pinTck s2.cfg true)
  let o := s3.drawBit
  (o.1, o.2.setDev (o.2.dev.pinTck o.2.cfg false))

/-- A sequence of TCK cycles and its TDO samples, in order. -/
def runCycles : List (Bool × Bool) → State → List Bool × State
  | [], s => ([], s)
  | (m, b) :: rest, s =>
    let one := clockCycle m b s
    let more := runCycles rest one.2
    (one.1 :: more.1, more.2)

/-- Run an operation's cycles and return its result; an operation that may fail part-way draws how many of its cycles it
makes, and returns `TransportError` if they are not all of them (R197). -/
def runOperation (cycles : List (Bool × Bool)) (finish : List Bool → Result) (s : State) : State :=
  if mayFailMidway s.cfg then
    let k := Config.drawNat s.draws
    if k < cycles.length then ((runCycles (cycles.take k) (s.advanceDraws 1)).2).returns .transportError
    else
      let run := runCycles cycles (s.advanceDraws 1)
      run.2.returns (finish run.1)
  else
    let run := runCycles cycles s
    run.2.returns (finish run.1)

/-- Check an operation (R178), then run it. A failed check changes no state (R254). -/
def admitted (needsPins : Bool) (s : State) (body : State → State) : Host.Outcome State Fault Refusal :=
  match checkCall s.ready s.pinsOwned needsPins with
  | .run => .next (body s)
  | .error r => .next (s.returns r)
  | .refuse r => .refused r

/-- A zero-length scan on a live handle: no pin, no state; while the link is not ready the verdict is free (R179). -/
def zeroLengthScan (s : State) (r : Result) : State :=
  if s.ready then s.returns r
  else if Config.drawBit s.draws then (s.advanceDraws 1).returns r
  else (s.advanceDraws 1).returns .transportError

/-! ### Framing (43_transport.md R180 to R193) -/

/-- The shift cycles of a scan: every data bit goes with TMS low, least significant first. -/
def dataCycles (bits : List Bool) : List (Bool × Bool) :=
  bits.map (fun b => (false, b))

/-- The six cycles of `reset` (R180). -/
def resetCycles : List (Bool × Bool) :=
  List.replicate 5 (true, false) ++ [(false, false)]

/-- The cycles of an IR scan from `Idle` to `Idle` (R184). -/
def irCycles (bits : List Bool) : List (Bool × Bool) :=
  [(true, false), (true, false), (false, false), (false, false)] ++ dataCycles bits ++
    [(true, false), (true, false), (false, false)]

/-- The cycles of a DR scan from `Idle` to `Idle` (R186). From another TAP state the same cycles are applied by the table of
R120: DEDUCED (log 29), where the words of R280's example about `Shift-DR` say otherwise. -/
def drCycles (bits : List Bool) : List (Bool × Bool) :=
  [(true, false), (false, false), (false, false)] ++ dataCycles bits ++
    [(true, false), (true, false), (false, false)]

/-- The cycles of `tick n` (R193). -/
def tickCycles (n : Nat) : List (Bool × Bool) :=
  List.replicate n (false, false)

/-! ### The direct read (42_tdr_memory.md R166) -/

/-- `MemRead(a, 4)`: in range, the word; out of range, a free value. -/
def State.memRead (s : State) (a : Word) : Word × State :=
  if wordIndex a < s.dev.mem.words then (s.dev.mem.readWord (wordIndex a), s)
  else (Config.drawWord s.draws, s.advanceDraws 1)

end Sys2Proof.Machine
end

