-- ==== Sys2Proof/Machine/Emulator.lean ====
section
/-! DEFINITION. The emulator's test-only control surface (42_tdr_memory.md R166 to R172). It needs neither `ready` nor
`pins_owned` (R167, R169). -/

namespace Sys2Proof.Machine

/-- `emu_attach [w0, …]`: replace the bound array; nothing else changes (R169, R170, R172). -/
def execEmuAttach (words : List Word) (s : State) : Host.Outcome State Fault Refusal :=
  match s.cfg.backend with
  | .bitBang => .refused .emulatorOnly
  | .emulator => .next ((s.setDev { s.dev with mem := attachWords words }).returns .ok)

/-- `emu_read a` (R166, R167, R172). -/
def execEmuRead (addr : Word) (s : State) : Host.Outcome State Fault Refusal :=
  match s.cfg.backend with
  | .bitBang => .refused .emulatorOnly
  | .emulator => .next ((s.memRead addr).2.returns (.okWord (s.memRead addr).1))

end Sys2Proof.Machine
end

