-- ==== Sys2Proof/Machine/Pins.lean ====
section
/-! DEFINITION. The device's pin events and `clock` (40_tap_fsm.md R111 to R116, 43_transport.md R176). They are admitted
whatever `ready` and `pins_owned` are (D37). -/

namespace Sys2Proof.Machine

/-- `pin tck, v` (R113, R115, R116). -/
def execPinTck (level : Bool) (s : State) : Host.Outcome State Fault Refusal :=
  .next ((s.setDev (s.dev.pinTck s.cfg level)).returns .ok)

/-- `pin tms, v` (R111). -/
def execPinTms (level : Bool) (s : State) : Host.Outcome State Fault Refusal :=
  .next ((s.setDev (s.dev.pinTms level)).returns .ok)

/-- `pin tdi, v` (R112). -/
def execPinTdi (level : Bool) (s : State) : Host.Outcome State Fault Refusal :=
  .next ((s.setDev (s.dev.pinTdi level)).returns .ok)

/-- `pin tdo`: the level is a free value under either backend (R36, R114, log 3). -/
def execPinTdo (s : State) : Host.Outcome State Fault Refusal :=
  .next (s.drawBit.2.returns (.okBit s.drawBit.1))

/-- `clock m, d`: one TCK cycle, its TDO sample discarded (R104, R176). -/
def execClock (tms tdi : Bool) (s : State) : Host.Outcome State Fault Refusal :=
  .next ((clockCycle tms tdi s).2.returns .ok)

end Sys2Proof.Machine
end

