-- ==== Sys2Proof/Machine/Transport.lean ====
section
/-! DEFINITION. The transport operations (43_transport.md R180 to R202). -/

namespace Sys2Proof.Machine

/-- A call that goes through the checks and cycles of R178: not a zero-length scan (R179), not `teardown` (R198). -/
def madeOfPins : TransportCall → Bool
  | .reset => true
  | .readId => true
  | .updateIr bits => !bits.isEmpty
  | .updateDr bits => !bits.isEmpty
  | .tick _ => true
  | .teardown => false

/-- A call that needs `pins_owned` (R178 check 4, R180, R198). -/
def needsPins : TransportCall → Bool
  | .reset => false
  | .readId => true
  | .updateIr _ => true
  | .updateDr _ => true
  | .tick _ => true
  | .teardown => false

/-- The TCK cycles of a transport call (R180, R184, R186, R190, R193, R198). -/
def callCycles (c : Config) : TransportCall → List (Bool × Bool)
  | .reset => resetCycles
  | .readId => irCycles (wordBits c.idTdiFill)
  | .updateIr bits => irCycles bits
  | .updateDr bits => drCycles bits
  | .tick n => tickCycles n.toNat
  | .teardown => []

/-- What a call that made all its cycles returns, of their TDO samples (R188, R190): the bits out of `update_dr` are the
samples of cycles 3 on, the id that of cycles 4 to 35. -/
def callResult (call : TransportCall) (samples : List Bool) : Result :=
  match call with
  | .reset => .ok
  | .readId => .okId (idOfBits ((samples.drop 4).take 32))
  | .updateIr _ => .ok
  | .updateDr bits => .okBits bits.length (packBits ((samples.drop 3).take bits.length))
  | .tick _ => .ok
  | .teardown => .ok

/-- Make all the cycles of an admitted call. -/
def runCall (call : TransportCall) (s : State) : State :=
  runOperation (callCycles s.cfg call) (callResult call) s

/-- The pins are the transport's (R41). -/
def State.takePins (s : State) : State :=
  { s with pinsOwned := true }

/-- `init` (R200). -/
def execInit (s : State) : Host.Outcome State Fault Refusal :=
  .next ({ s with ready := true }.returns .ok)

/-- `reset`: take the pins, then five TMS-high cycles and one TMS-low cycle (R180, R183). -/
def execReset (s : State) : Host.Outcome State Fault Refusal :=
  admitted false s fun s => runCall .reset s.takePins

/-- `read_id`: an IR-path scan of `ID_TDI_FILL`; the id is made of the 32 samples of the shift cycles (R190). -/
def execReadId (s : State) : Host.Outcome State Fault Refusal :=
  admitted true s (runCall .readId)

/-- `update_ir n, V` (R179, R184). -/
def execUpdateIr (bits : List Bool) (s : State) : Host.Outcome State Fault Refusal :=
  if bits.isEmpty then .next (zeroLengthScan s .ok) else admitted true s (runCall (.updateIr bits))

/-- `update_dr n, V`: the bits out are the samples of the shift cycles (R179, R186, R188). -/
def execUpdateDr (bits : List Bool) (s : State) : Host.Outcome State Fault Refusal :=
  if bits.isEmpty then .next (zeroLengthScan s (.okBits 0 [])) else admitted true s (runCall (.updateDr bits))

/-- `tick n` (R193). -/
def execTick (n : Word) (s : State) : Host.Outcome State Fault Refusal :=
  admitted true s (runCall (.tick n))

/-- `teardown`: release the pins; no pin event (R198). -/
def execTeardown (s : State) : Host.Outcome State Fault Refusal :=
  .next ({ s with pinsOwned := false }.returns .ok)

/-- `null E`: the null check comes before every other (R178, R201). -/
def execNull (_call : TransportCall) (s : State) : Host.Outcome State Fault Refusal :=
  .next (s.returns .invalidArgument)

end Sys2Proof.Machine
end

