-- ==== Sys2Proof/Machine/Dispatch.lean ====
section
/-! DEFINITION. One arm per event of the opcode table. -/

namespace Sys2Proof.Machine

def exec (i : Instr) (s : State) : Host.Outcome State Fault Refusal :=
  match i with
  | .pinTck level => Sys2Proof.Machine.execPinTck level s
  | .pinTms level => Sys2Proof.Machine.execPinTms level s
  | .pinTdi level => Sys2Proof.Machine.execPinTdi level s
  | .pinTdo => Sys2Proof.Machine.execPinTdo s
  | .clock tms tdi => Sys2Proof.Machine.execClock tms tdi s
  | .init => Sys2Proof.Machine.execInit s
  | .reset => Sys2Proof.Machine.execReset s
  | .readId => Sys2Proof.Machine.execReadId s
  | .updateIr bits => Sys2Proof.Machine.execUpdateIr bits s
  | .updateDr bits => Sys2Proof.Machine.execUpdateDr bits s
  | .tick n => Sys2Proof.Machine.execTick n s
  | .teardown => Sys2Proof.Machine.execTeardown s
  | .null call => Sys2Proof.Machine.execNull call s
  | .emuAttach words => Sys2Proof.Machine.execEmuAttach words s
  | .emuRead addr => Sys2Proof.Machine.execEmuRead addr s

end Sys2Proof.Machine
end

