-- ==== Sys2Proof/Machine/Procedures.lean ====
section
/-! DEFINITION. The bodies of the host procedures, as lists of operations (30_encoding.md R101 to R103,
45_host_protocol.md R216 to R236). None has an opcode: each is a macro over the events. -/

namespace Sys2Proof.Machine

/-- `write_word a, d` (R101). -/
def writeWordEvents (c : Config) (a d : Word) : List Instr :=
  [.updateIr (bitsOf c.irLen c.addrInstr.toNat), .updateDr (wordBits a), .updateDr (wordBits d)]

/-- `write_block a, [w0, …]`: word `k` at `(a + 4k) mod 2^32`, in order (R102). -/
def writeBlockEvents (c : Config) : Word → List Word → List Instr
  | _, [] => []
  | a, w :: ws => writeWordEvents c a w ++ writeBlockEvents c (a + 4#32) ws

/-- Issue events, in order. -/
def issue (is : List Instr) : List HostOp :=
  is.map .event

/-- `halt_pulse()`: set, then clear, the halt field, each a read-modify-write (R217). -/
def haltPulseOps (c : Config) : List HostOp :=
  [.modify c.haltCtrlAddr (haltMask c) 0#32, .modify c.haltCtrlAddr 0#32 (haltMask c)]

/-- `gpio_assert()` (R218). -/
def gpioAssertOps (c : Config) : List HostOp :=
  [.modify c.gpioDirAddr c.gpioDirMask 0#32]

/-- `postcode(c)`: one full-word write, with no read first (R219). -/
def postcodeOps (c : Config) (code : Byte) : List HostOp :=
  issue (writeWordEvents c c.postcodeAddr (postcodeWord c code))

/-- `apply(words, t)`, steps 1 to 6 (R220), and the check of R226. Under the bit-bang backend its first register read is
refused (R216, R250), after its `reset` has been made: DEDUCED (log 30). -/
def applyOps (c : Config) (ws : List Word) (t : Word) : List HostOp :=
  [.event .reset] ++ haltPulseOps c ++ gpioAssertOps c ++ postcodeOps c 0xF2#8 ++
    issue (writeBlockEvents c (4#32 * t) ws) ++ postcodeOps c 0xF3#8 ++ [.checkRegisterMap]

/-- `verify(words, t)` (R222). -/
def verifyOps (ws : List Word) (t : Word) : List HostOp :=
  [.compareWords 0 ws t]

/-- The `verify` of a run, up to its own boundary, run only when `VERIFY_ENABLED` is set (R222, R229). -/
def runVerifyOps (c : Config) : List HostOp :=
  if c.verifyEnabled then verifyOps (patchWords c) c.patchTarget.word ++ [.endProcedure .verify] else []

/-- `soft_reset_target()` (R224), and the check of R226. -/
def softResetOps (c : Config) : List HostOp :=
  haltPulseOps c ++ issue (writeWordEvents c c.resetVectorAddr c.enterPatchVector) ++
    [.modify c.haltCtrlAddr (softResetMask c) 0#32, .modify c.haltCtrlAddr 0#32 (softResetMask c), .markCoreReset,
      .checkRegisterMap]

/-- `sequencing_lines()`: four host events with no effect on the block (R231, log 21). -/
def sequencingLineOps : List HostOp :=
  [.sequencingLine .assert_, .sequencingLine .delay1ms, .sequencingLine .deassert, .sequencingLine .delay2ms]

/-- `run(AwaitingPowerGood)` begins with the power-good poll, skipped under emulation (R229, R242). -/
def powerGoodOps (c : Config) : List HostOp :=
  [.setSeq .awaitingPowerGood] ++ (if c.emulation then [] else [.pollPowerGood 0])

/-- `run(BringingUpTransport)`, and the rest of every run (R229). `verify` opens a boundary of its own only when it starts, so
that an error before it ends the run and its own result does not (R232). -/
def bringUpOps (c : Config) : List HostOp :=
  [.setSeq .bringingUpTransport] ++ sequencingLineOps ++ [.event .reset] ++ (if c.emulation then [] else [.pollId 0]) ++
    [.setSeq .patching] ++ applyOps c (patchWords c) c.patchTarget.word ++ [.setSeq .verifying] ++
    [.runVerify] ++ [.setSeq .releasing] ++ softResetOps c ++ [.event .teardown, .markPatched, .finish .ok, .endProcedure .run]

/-- A main-loop run (R229). -/
def mainRunOps (c : Config) : List HostOp :=
  powerGoodOps c ++ bringUpOps c

/-- A main-loop run with the lock held from start to end (R230, R238). -/
def lockedRunOps (c : Config) : List HostOp :=
  [.acquire] ++ mainRunOps c ++ [.release]

/-- `on_trigger()` (R235). -/
def onTriggerOps : List HostOp :=
  [.setBusCancel true, .acquire, .triggerBody, .release, .setBusCancel false]

/-- The pin events of TCK cycles (R176). -/
def pinOps : List (Bool × Bool) → List HostOp
  | [] => []
  | (m, b) :: rest =>
    [.event (.pinTms m), .event (.pinTdi b), .event (.pinTck true), .sampleTdo, .event (.pinTck false)] ++ pinOps rest

/-- A procedure called on its own: its body, its result `Ok`, its boundary. -/
def called (b : Boundary) (body : List HostOp) : List HostOp :=
  body ++ [.finish .ok, .endProcedure b]

/-- What a call of a procedure does (R216 to R236). `power_on_run` starts a run only if none has started since power-on
(R230, log 14), and `verify` runs only when `VERIFY_ENABLED` is set (R222, log 28). -/
def procedureOps (s : State) : Procedure → List HostOp
  | .event i => called .call [.event i]
  | .byPins call => called .call [.eventByPins call]
  | .writeWord a d => called .call (issue (writeWordEvents s.cfg a d))
  | .writeBlock a ws => called .call (issue (writeBlockEvents s.cfg a ws))
  | .readWord a => [.readRegister a, .endProcedure .call]
  | .haltPulse => called .call (haltPulseOps s.cfg)
  | .gpioAssert => called .call (gpioAssertOps s.cfg)
  | .postcode code => called .call (postcodeOps s.cfg code)
  | .apply ws t => called .checkedCall (applyOps s.cfg ws t)
  | .verify ws t => if s.cfg.verifyEnabled then called .call (verifyOps ws t) else []
  | .softResetTarget => called .checkedCall (softResetOps s.cfg)
  | .powerOnRun => if s.host.ranOnce then [] else lockedRunOps s.cfg
  | .forcedReset => lockedRunOps s.cfg
  | .pendingPickup => [.acquire, .pickupBody, .release]

end Sys2Proof.Machine
end

