-- ==== Sys2Proof/Machine/Agent.lean ====
section
/-! DEFINITION. The host agent: its two contexts, the lock, the external trigger, and one operation of a procedure
(45_host_protocol.md, 60_exceptions.md R255 to R258). -/

namespace Sys2Proof.Machine

/-! ### Contexts -/

/-- The context `c`. -/
def HostState.context (h : HostState) : ContextId → Context
  | .main => h.main
  | .irq => h.irq

/-- Replace the context `c`. -/
def HostState.setContext (h : HostState) (c : ContextId) (x : Context) : HostState :=
  match c with
  | .main => { h with main := x }
  | .irq => { h with irq := x }

/-- Replace the host state. -/
def State.setHost (s : State) (h : HostState) : State :=
  { s with host := h }

/-- What the context `c` has still to do. -/
def State.agenda (s : State) (c : ContextId) : List HostOp :=
  (s.host.context c).agenda

/-- Replace what the context `c` has still to do. -/
def State.setAgenda (s : State) (c : ContextId) (ops : List HostOp) : State :=
  s.setHost (s.host.setContext c { s.host.context c with agenda := ops })

/-- The context `c` does `ops` before the rest of its agenda. -/
def State.push (s : State) (c : ContextId) (ops : List HostOp) : State :=
  s.setAgenda c (ops ++ s.agenda c)

/-- Record a procedure's result in its context. -/
def State.setOutcome (s : State) (c : ContextId) (r : ProcResult) : State :=
  s.setHost (s.host.setContext c { s.host.context c with outcome := some r })

/-- The operations from the nearest boundary on: what is left when an error ends a procedure at once (R215). -/
def unwind : List HostOp → List HostOp
  | [] => []
  | .endProcedure b :: rest => .endProcedure b :: rest
  | _ :: rest => unwind rest

/-- A procedure of the context `c` ends at once with `r`; every write it made is kept (R215, R254). -/
def State.abort (s : State) (c : ContextId) (r : ProcResult) : State :=
  (s.setOutcome c r).setAgenda c (unwind (s.agenda c))

/-! ### Events inside a procedure -/

/-- One event of a procedure: an error result or a refusal ends the procedure (R203, R215, R229, log 8). -/
def procedureEvent (c : ContextId) (i : Instr) (s : State) : Host.Outcome State Fault Refusal :=
  match exec i s with
  | .next t =>
    if t.result = some .transportError then .next (t.abort c .transportError)
    else if t.result = some .invalidArgument then .next (t.abort c .invalidArgument)
    else .next t
  | .fault f => .fault f
  | .refused r => .next (s.abort c (.refused r))

/-- Set the TDO samples of the call a context issues by pins. -/
def State.setSamples (s : State) (c : ContextId) (bits : List Bool) : State :=
  s.setHost (s.host.setContext c { s.host.context c with samples := bits })

/-- Begin an admitted call by pins: its pin events, then its return. A call that may fail part-way draws how many cycles it
makes (R197), and then ends with `onFail`. -/
def beginCall (c : ContextId) (call : TransportCall) (onFail : HostOp) (s : State) : State :=
  if mayFailMidway s.cfg then
    if Config.drawNat s.draws < (callCycles s.cfg call).length then
      ((s.advanceDraws 1).setSamples c []).push c
        (pinOps ((callCycles s.cfg call).take (Config.drawNat s.draws)) ++ [onFail])
    else ((s.advanceDraws 1).setSamples c []).push c (pinOps (callCycles s.cfg call) ++ [.returnCall call])
  else (s.setSamples c []).push c (pinOps (callCycles s.cfg call) ++ [.returnCall call])

/-- Take the pins if the call is a `reset`, then begin it (R180). -/
def startCall (c : ContextId) (call : TransportCall) (onFail : HostOp) (s : State) : State :=
  beginCall c call onFail (if call = .reset then s.takePins else s)

/-- Issue a transport call by pins: the checks of R178 come before any pin is written. A call that makes no pin event is
issued whole. -/
def eventByPins (c : ContextId) (call : TransportCall) (s : State) : Host.Outcome State Fault Refusal :=
  if madeOfPins call then
    match checkCall s.ready s.pinsOwned (needsPins call) with
    | .run => .next (startCall c call .failCall s)
    | .error r => .next ((s.returns r).abort c .transportError)
    | .refuse r => .next (s.abort c (.refused r))
  else procedureEvent c (.ofCall call) s

/-- `reg_read(x)`: a direct read under the emulator, refused under the bit-bang backend (R206, R216). -/
def withRegister (c : ContextId) (a : Word) (s : State) (body : Word → State → State) : State :=
  match s.cfg.backend with
  | .bitBang => s.abort c (.refused .physicalReadRefused)
  | .emulator => body (s.memRead a).1 ((s.memRead a).2.returns (.okWord (s.memRead a).1))

/-- One word of `verify`: go on with the next word, or log, write postcode 0x6 and fail (R222). -/
def compareWord (c : ContextId) (k : Nat) (w : Word) (rest : List Word) (t : Word) (actual : Word) (s : State) : State :=
  if actual = w then s.push c [.compareWords (k + 1) rest t]
  else
    (s.setHost { s.host with log := s.host.log ++ [⟨k, w, actual⟩] }).push c
      (postcodeOps s.cfg 0x6#8 ++ [.fail (.mismatch k w actual)])

/-- A bounded poll has made all its reads (R239). -/
def pollExhausted (c : Config) (reads : Nat) : Bool :=
  match c.pollBound with
  | none => false
  | some b => decide (b ≤ reads)

/-- The power-good poll: each read is a free value (R239). -/
def pollPowerGood (c : ContextId) (reads : Nat) (s : State) : State :=
  if pollExhausted s.cfg reads then s.abort c .pollTimeout
  else if s.drawBit.1 then s.drawBit.2
  else s.drawBit.2.push c [.pollPowerGood (reads + 1)]

/-- The ID poll: `read_id` until it returns `EXPECTED_ID` (R192, R239). -/
def pollId (c : ContextId) (reads : Nat) (s : State) : Host.Outcome State Fault Refusal :=
  if pollExhausted s.cfg reads then .next (s.abort c .pollTimeout)
  else
    match exec .readId s with
    | .next t =>
      match t.result with
      | some (.okId id) => .next (if id = t.cfg.expectedId then t else t.push c [.pollId (reads + 1)])
      | _ => .next (t.abort c .transportError)
    | .fault f => .fault f
    | .refused r => .next (s.abort c (.refused r))

/-- The register-map check (R49, R226): under the emulator with the halt-control word in range, that its halt and
soft-reset bits are clear. It reports; it changes nothing else. -/
def checkRegisterMap (s : State) : State :=
  match s.cfg.backend with
  | .bitBang => s
  | .emulator =>
    if wordIndex s.cfg.haltCtrlAddr < s.dev.mem.words then
      s.setHost { s.host with
        registerMapOk := decide
          (s.dev.mem.readWord (wordIndex s.cfg.haltCtrlAddr) &&& (haltMask s.cfg ||| softResetMask s.cfg) = 0#32) }
    else s

/-- What happens at the end of a procedure (R226, R229, R232). -/
def endProcedure (b : Boundary) (s : State) : State :=
  match b with
  | .call => s
  | .checkedCall => checkRegisterMap s
  | .verify => s
  | .run => (checkRegisterMap s).setHost { (checkRegisterMap s).host with seq := .idle }

/-- The lock is taken by `c` (R238). -/
def acquireLock (c : ContextId) (s : State) : State :=
  s.setHost { s.host with lock := .held c }

/-- `release(lock)` by its holder frees it (R238); by any other context it does nothing (log 13). -/
def releaseLock (c : ContextId) (s : State) : State :=
  if s.host.lock = .held c then s.setHost { s.host with lock := .free } else s

/-- The sequencer enters a state of a run; so a run has started since power-on (R229, R230, log 14). -/
def enterSeq (q : SeqState) (s : State) : State :=
  s.setHost { s.host with seq := q, ranOnce := true }

/-- The locked section of `on_trigger`: run inline, or leave it to the main loop (R235). -/
def triggerBody (c : ContextId) (s : State) : State :=
  if s.host.workaroundApplied then s.push c (bringUpOps s.cfg)
  else s.setHost { s.host with resetPending := true }

/-- The locked section of the pending pickup (R236). -/
def pickupBody (c : ContextId) (s : State) : State :=
  if s.host.resetPending then (s.setHost { s.host with resetPending := false }).push c (mainRunOps s.cfg)
  else s

/-- One operation of the context `c`, already taken off its agenda. -/
def hostStep (c : ContextId) (op : HostOp) (s : State) : Host.Outcome State Fault Refusal :=
  match op with
  | .call p => .next (s.push c (procedureOps s p))
  | .event i => procedureEvent c i s
  | .eventByPins call => eventByPins c call s
  | .sampleTdo => .next (s.drawBit.2.setSamples c ((s.host.context c).samples ++ [s.drawBit.1]))
  | .returnResult r => .next (s.returns r)
  | .returnCall call => .next (s.returns (callResult call (s.host.context c).samples))
  | .failCall => .next ((s.returns .transportError).abort c .transportError)
  | .modify a set clear =>
    .next (withRegister c a s fun v t => t.push c (issue (writeWordEvents t.cfg a ((v ||| set) &&& ~~~clear))))
  | .readRegister a => .next (withRegister c a s fun v t => t.setOutcome c (.word v))
  | .runVerify => .next (s.push c (runVerifyOps s.cfg))
  | .compareWords _ [] _ => .next s
  | .compareWords k (w :: rest) t =>
    .next (withRegister c (4#32 * t + 4#32 * BitVec.ofNat 32 k) s (compareWord c k w rest t))
  | .pollPowerGood reads => .next (pollPowerGood c reads s)
  | .pollId reads => pollId c reads s
  | .sequencingLine _ => .next s
  | .setSeq q => .next (enterSeq q s)
  | .markCoreReset =>
    .next (if s.cfg.trackReset then s.setHost { s.host with arcResetObserved := true } else s)
  | .markPatched => .next (s.setHost { s.host with workaroundApplied := true })
  | .checkRegisterMap => .next (checkRegisterMap s)
  | .finish r => .next (s.setOutcome c r)
  | .fail r => .next (s.abort c r)
  | .endProcedure b => .next (endProcedure b s)
  | .acquire => .next (acquireLock c s)
  | .release => .next (releaseLock c s)
  | .setBusCancel b => .next (s.setHost { s.host with busCancel := b })
  | .triggerBody => .next (triggerBody c s)
  | .pickupBody => .next (pickupBody c s)
  | .wasReset => .next (s.setOutcome c (.flag s.host.arcResetObserved))
  | .ackReset => .next (s.setHost { s.host with arcResetObserved := false })

/-! ### Scheduling (R256, R257) -/

/-- The context `c` can move: it has something to do and is not blocked on the lock (R238). -/
def canMove (c : ContextId) (s : State) : Bool :=
  match s.agenda c with
  | [] => false
  | .acquire :: _ => decide (s.host.lock = .free)
  | _ :: _ => true

/-- The context `c` does its next operation. -/
def contextStep (c : ContextId) (s : State) : Host.Outcome State Fault Refusal :=
  match s.agenda c with
  | [] => .next s
  | op :: rest => hostStep c op (s.setAgenda c rest)

/-- A trigger occurs: it is held pending, at most one, when `RESET_ON_EXTERNAL_SIGNAL` is set (R256). -/
def raiseTrigger (s : State) : State :=
  if s.cfg.resetOnExternalSignal then s.setHost { s.host with triggerPending := true } else s

/-- Deliver the pending trigger: it is cleared, and the handler starts in the irq context (R255, R256). -/
def deliverTrigger (s : State) : State :=
  (s.setHost { s.host with triggerPending := false }).setAgenda .irq onTriggerOps

/-- The next event of the main context's program (R86, R131): the record is taken off the program and run; with no record
left nothing happens (R22, R110, log 6). -/
def fetchStep (s : State) : Host.Outcome State Fault Refusal :=
  match s.program with
  | [] => .next s
  | b :: bs =>
    match decode (b :: bs) with
    | .ok i rest => exec i { s with program := rest }
    | .illegal => .refused .illegalEvent
    | .truncated => .refused .truncatedEvent

/-- The main context moves: its procedures first, then its program (log 12). A main context that waits for ever is stuck
(R266, log 19). -/
def mainStep (s : State) : Host.Outcome State Fault Refusal :=
  match s.agenda .main with
  | [] => fetchStep s
  | _ :: _ => if canMove .main s then contextStep .main s else .fault .stuck

/-- A trigger is held pending and no handler runs; with the option clear no trigger is ever delivered (R256). -/
def triggerDue (s : State) : Bool :=
  s.cfg.resetOnExternalSignal && s.host.triggerPending && (s.agenda .irq).isEmpty

/-- One step of the host: a pending trigger is delivered when no handler runs; the irq context preempts the main context
(R257). -/
def agentStep (s : State) : Host.Outcome State Fault Refusal :=
  if triggerDue s then .next (deliverTrigger s)
  else if canMove .irq s then contextStep .irq s
  else mainStep s

/-! ### Issuing an event pin event by pin event (20_memory.md R79) -/

/-- The transport call an event issues through a live handle. -/
def callOf : Instr → Option TransportCall
  | .reset => some .reset
  | .readId => some .readId
  | .updateIr bits => some (.updateIr bits)
  | .updateDr bits => some (.updateDr bits)
  | .tick n => some (.tick n)
  | .teardown => some .teardown
  | .pinTck _ => none
  | .pinTms _ => none
  | .pinTdi _ => none
  | .pinTdo => none
  | .clock _ _ => none
  | .init => none
  | .null _ => none
  | .emuAttach _ => none
  | .emuRead _ => none

/-- The event begun as pin events, if it makes several: `clock` (R104), or a call that passes its checks (R178). -/
def splitEvent (c : ContextId) (onFail : HostOp) (i : Instr) (s : State) : Option State :=
  match i with
  | .clock tms tdi => some (s.push c (pinOps [(tms, tdi)] ++ [.returnResult .ok]))
  | i =>
    match callOf i with
    | none => none
    | some call =>
      if madeOfPins call && decide (checkCall s.ready s.pinsOwned (needsPins call) = .run) then some (startCall c call onFail s)
      else none

/-- The context's next event begun as pin events, if it is one that can be. -/
def splitContext (c : ContextId) (s : State) : State :=
  match s.agenda c with
  | .event i :: rest => (splitEvent c .failCall i (s.setAgenda c rest)).getD s
  | _ => s

/-- The program's next record begun as pin events of the main context, if it is one that can be. -/
def splitProgram (s : State) : State :=
  match decode s.program with
  | .ok i rest => (splitEvent .main (.returnResult .transportError) i { s with program := rest }).getD s
  | .illegal => s
  | .truncated => s

/-- The slot `split`: what would be issued next is begun as pin events. A trigger that is due comes before (R256). -/
def splitStep (s : State) : State :=
  if triggerDue s then deliverTrigger s
  else if canMove .irq s then splitContext .irq s
  else if (s.agenda .main).isEmpty then splitProgram s
  else splitContext .main s

/-- One step of the machine with a valid configuration: the environment's next slot, then the host (log 10). -/
def machineStep (s : State) : Host.Outcome State Fault Refusal :=
  match s.inputs with
  | [] => agentStep s
  | .quiet :: rest => agentStep { s with inputs := rest }
  | .trigger :: rest => .next (raiseTrigger { s with inputs := rest })
  | .split :: rest => .next (splitStep { s with inputs := rest })

/-- The state in which the very next step runs a record standing first in `bytes` (log 27): nothing else is left to do. -/
def State.withProgram (s : State) (bytes : List Byte) : State :=
  { s with
    program := bytes
    inputs := []
    host := { s.host with
      triggerPending := false
      main := { s.host.main with agenda := [] }
      irq := { s.host.irq with agenda := [] } } }

end Sys2Proof.Machine
end

