-- ==== Sys2Proof/Machine/Step.lean ====
section
/-! DEFINITION. One step of the machine. -/

namespace Sys2Proof.Machine

/-- One step: an invalid configuration refuses every event (R10, R250, R252); otherwise the machine moves. -/
def step (s : State) : Host.Outcome State Fault Refusal :=
  if configValid s.cfg then machineStep s else .refused .configInvalid

/-- The opcode-table word `w` placed where the next step fetches. -/
def State.withFetchWord (s : State) (nbits w : Nat) : State :=
  s.withProgram (tableBytes nbits w)

end Sys2Proof.Machine
end

