-- ==== Sys2Proof/Safety.lean ====
section
/-! DEFINITION. What counts as a safe run, in the terms the statements use: the invariants a step keeps, when the machine
runs its program, when an operation runs to its end, and sequences of events. -/

namespace Sys2Proof.Machine

/-! ### Invariants -/

/-- The TAP states of the DR column from Capture to Update (R127). -/
def inDrColumn : TapState → Bool
  | .captureDr => true
  | .shiftDr => true
  | .exit1Dr => true
  | .pauseDr => true
  | .exit2Dr => true
  | .updateDr => true
  | .reset => false
  | .idle => false
  | .scanDr => false
  | .scanIr => false
  | .captureIr => false
  | .shiftIr => false
  | .exit1Ir => false
  | .pauseIr => false
  | .exit2Ir => false
  | .updateIr => false

/-- The TAP states of the IR column from Capture to Update (R127). -/
def inIrColumn : TapState → Bool
  | .captureIr => true
  | .shiftIr => true
  | .exit1Ir => true
  | .pauseIr => true
  | .exit2Ir => true
  | .updateIr => true
  | .reset => false
  | .idle => false
  | .scanDr => false
  | .scanIr => false
  | .captureDr => false
  | .shiftDr => false
  | .exit1Dr => false
  | .pauseDr => false
  | .exit2Dr => false
  | .updateDr => false

/-- Inside a column the active register is that column's: `DR` (or `BYP`, R136) or `IR` (R148). -/
def Device.columnSelect (d : Device) : Prop :=
  (inDrColumn d.tap = true → d.sel ≠ .ir) ∧ (inIrColumn d.tap = true → d.sel = .ir)

/-- With the default `BYPASS_SELECT` the Bypass register is never the active one (R32). -/
def State.bypassUnused (s : State) : Prop :=
  s.cfg.bypassSelect = [] ∧ s.dev.sel ≠ .byp

/-! ### When an event runs -/

/-- The host leaves the next event to the program, whole: the environment's slot is quiet, there is no trigger to deliver and
no operation of a procedure to do. -/
def State.runsProgram (s : State) : Prop :=
  s.inputs.head? ≠ some .trigger ∧ s.inputs.head? ≠ some .split ∧ triggerDue s = false ∧ canMove .irq s = false ∧ s.agenda .main = []

/-- A transport operation passes its checks and cannot fail part-way (R178, R197). -/
def State.canScan (s : State) : Prop :=
  s.ready = true ∧ s.pinsOwned = true ∧ mayFailMidway s.cfg = false

/-- A count of `n` does not wrap (R30). -/
def countExact (c : Config) (n : Nat) : Prop :=
  ∀ m, c.countModulus = some m → n < m

/-- The record is one of those R97 lists as illegal. -/
def illegalRecord (op : Byte) (rest : List Byte) : Prop :=
  (op.toNat = 0x00 ∨ (0x06 ≤ op.toNat ∧ op.toNat ≤ 0x0F) ∨ (0x17 ≤ op.toNat ∧ op.toNat ≤ 0x1E) ∨ 0x22 ≤ op.toNat) ∨
    ((op = 0x01#8 ∨ op = 0x02#8 ∨ op = 0x03#8) ∧ ∃ b r, rest = b :: r ∧ ∃ i, 1 ≤ i ∧ b.getLsbD i = true) ∨
    (op = 0x05#8 ∧ ∃ b r, rest = b :: r ∧ ∃ i, 2 ≤ i ∧ b.getLsbD i = true) ∨
    (op = 0x1F#8 ∧ ∃ b r, rest = b :: r ∧ (b.toNat < 0x11 ∨ 0x16 < b.toNat))

/-! ### Sequences of events -/

/-- The event returned an error (R245). -/
def isError : Option Result → Bool
  | some .transportError => true
  | some .invalidArgument => true
  | some .ok => false
  | some (.okBit _) => false
  | some (.okBits _ _) => false
  | some (.okId _) => false
  | some (.okWord _) => false
  | none => false

/-- Run events in order; the first error, refusal or fault ends the sequence (R203). -/
def execEvents : List Instr → State → Host.Outcome State Fault Refusal
  | [], s => .next s
  | i :: is, s =>
    match exec i s with
    | .next t => if isError t.result then .next t else execEvents is t
    | .fault f => .fault f
    | .refused r => .refused r

/-- The operation `op` of a procedure ends it with `r`, its device effects being those of `s'`: an event that returns an error
or is refused, a poll's `read_id` that fails or is refused, a register read refused under the bit-bang backend, a call issued by
pins that has failed part-way, or the procedure's own failure (R197, R215, R216, R222, R229). -/
def endsProcedure (op : HostOp) (s s' : State) (r : ProcResult) : Prop :=
  (∃ i, op = .event i ∧ exec i s = .next s' ∧
    (s'.result = some .transportError ∧ r = .transportError ∨ s'.result = some .invalidArgument ∧ r = .invalidArgument)) ∨
  (∃ i q, op = .event i ∧ exec i s = .refused q ∧ r = .refused q ∧ s' = s) ∨
  (∃ k, op = .pollId k ∧ (∀ b, s.cfg.pollBound = some b → k < b) ∧
    (exec .readId s = .next s' ∧ s'.result = some .transportError ∧ r = .transportError ∨
      ∃ q, exec .readId s = .refused q ∧ r = .refused q ∧ s' = s)) ∨
  (s.cfg.backend = .bitBang ∧ r = .refused .physicalReadRefused ∧ s' = s ∧
    ((∃ a set clear, op = .modify a set clear) ∨ (∃ a, op = .readRegister a) ∨
      ∃ k w ws t, op = .compareWords k (w :: ws) t)) ∨
  (op = .failCall ∧ r = .transportError ∧ s' = s) ∨
  (op = .fail r ∧ s' = s)

/-- The context `c` goes on undisturbed: no slot of the environment is left, and the main context is not preempted (R257). -/
def State.undisturbed (s : State) (c : ContextId) : Prop :=
  configValid s.cfg = true ∧ s.inputs = [] ∧ (c = .main → triggerDue s = false ∧ canMove .irq s = false)

/-- Some number of steps leads from `s` to `t`. -/
def reaches (s t : State) : Prop :=
  ∃ k, Sys2Proof.core.run k s = .next t

/-- The device after TCK cycles: each is one falling edge and leaves TCK low and the cycle's TMS and TDI latched (R176). -/
def cycleDevice (c : Config) : List (Bool × Bool) → Device → Device
  | [], d => d
  | (m, b) :: rest, d => cycleDevice c rest { edge c d m b with tck := false, tms := m, tdi := b }

end Sys2Proof.Machine
end

