-- ==== Sys2Proof/Certificates/Slice0/Obligations.lean ====
section
/-! DEFINITION. The statements for the provers, one `def Obligations.<Name> : Prop` each. Each docstring names the rule of
spec/ it formalises, or says that the clause is the model's own and names its log entry. -/

open Sys2Proof Sys2Proof.Machine Host.Outcome

/-! ### Encoding (30_encoding.md) -/

/-- R86 to R94: decoding the record of any well-formed event gives it back, and leaves the bytes after it. -/
def Obligations.DecodeOfEncodeIsIdentity : Prop :=
  ∀ (i : Instr) (rest : List Byte), i.wellFormed = true → decode (encode i ++ rest) = .ok i rest

/-- R105: the worked examples, encoded and decoded. -/
def Obligations.WorkedEncodingExamples : Prop :=
  (encode .reset = [0x11#8] ∧ decode [0x11#8] = .ok .reset []) ∧
  (encode (.updateDr (bitsOf 4 0xB)) = [0x14#8, 4#8, 0#8, 0#8, 0#8, 0x0B#8] ∧
    decode [0x14#8, 4#8, 0#8, 0#8, 0#8, 0x0B#8] = .ok (.updateDr (bitsOf 4 0xB)) []) ∧
  (encode (.updateDr (bitsOf 32 0xDEADBEEF)) = [0x14#8, 0x20#8, 0#8, 0#8, 0#8, 0xEF#8, 0xBE#8, 0xAD#8, 0xDE#8] ∧
    decode [0x14#8, 0x20#8, 0#8, 0#8, 0#8, 0xEF#8, 0xBE#8, 0xAD#8, 0xDE#8] = .ok (.updateDr (bitsOf 32 0xDEADBEEF)) []) ∧
  (encode (.updateIr (bitsOf 5 0x13)) = [0x13#8, 5#8, 0#8, 0#8, 0#8, 0x13#8] ∧
    decode [0x13#8, 5#8, 0#8, 0#8, 0#8, 0x13#8] = .ok (.updateIr (bitsOf 5 0x13)) []) ∧
  (encode (.updateDr (bitsOf 12 0xABC)) = [0x14#8, 0x0C#8, 0#8, 0#8, 0#8, 0xBC#8, 0x0A#8] ∧
    decode [0x14#8, 0x0C#8, 0#8, 0#8, 0#8, 0xBC#8, 0x0A#8] = .ok (.updateDr (bitsOf 12 0xABC)) []) ∧
  (encode (.tick 3#32) = [0x15#8, 3#8, 0#8, 0#8, 0#8] ∧ decode [0x15#8, 3#8, 0#8, 0#8, 0#8] = .ok (.tick 3#32) []) ∧
  (encode (.clock true false) = [0x05#8, 0x02#8] ∧ decode [0x05#8, 0x02#8] = .ok (.clock true false) []) ∧
  (encode (.pinTck true) = [0x01#8, 0x01#8] ∧ decode [0x01#8, 0x01#8] = .ok (.pinTck true) []) ∧
  (encode (.null .reset) = [0x1F#8, 0x11#8] ∧ decode [0x1F#8, 0x11#8] = .ok (.null .reset) []) ∧
  (encode (.emuAttach [1#32, 2#32]) = [0x20#8, 2#8, 0#8, 0#8, 0#8, 1#8, 0#8, 0#8, 0#8, 2#8, 0#8, 0#8, 0#8] ∧
    decode [0x20#8, 2#8, 0#8, 0#8, 0#8, 1#8, 0#8, 0#8, 0#8, 2#8, 0#8, 0#8, 0#8] = .ok (.emuAttach [1#32, 2#32]) []) ∧
  (encode (.emuRead 8#32) = [0x21#8, 8#8, 0#8, 0#8, 0#8] ∧ decode [0x21#8, 8#8, 0#8, 0#8, 0#8] = .ok (.emuRead 8#32) []) ∧
  decode [0x02#8, 0x02#8] = .illegal ∧
  decode [0x1F#8, 0x1F#8, 0x11#8] = .illegal ∧
  decode [0x14#8, 9#8, 0#8, 0#8, 0#8, 0xFF#8] = .truncated

/-- R97: an event record of each illegal kind is refused by the decoder, and the step that fetches it is refused with reason
`IllegalEvent`. -/
def Obligations.IllegalRecordsAreRefused : Prop :=
  ∀ (s : State) (op : Byte) (rest : List Byte), configValid s.cfg = true → s.runsProgram → s.program = op :: rest →
    illegalRecord op rest → decode (op :: rest) = .illegal ∧ step s = .refused .illegalEvent

/-- R98: a record whose bytes run past the end of the program is refused with reason `TruncatedEvent`; and on any byte
string, ignored payload bits included, the decoder answers the records up to the first illegal or truncated one, and the
verdict for that record: a legal record is followed by what the shorter rest decodes to. -/
def Obligations.TruncatedRecordsAndProgramDecode : Prop :=
  (∀ (s : State) (i : Instr) (k : Nat), configValid s.cfg = true → s.runsProgram → i.wellFormed = true → 0 < k →
    k < (encode i).length → s.program = (encode i).take k → step s = .refused .truncatedEvent) ∧
  (∀ bs : List Byte,
    (bs = [] → decodeProgram bs = ([], .complete)) ∧
    (∀ i rest, decode bs = .ok i rest → rest.length < bs.length ∧
      decodeProgram bs = (i :: (decodeProgram rest).1, (decodeProgram rest).2)) ∧
    (decode bs = .illegal → decodeProgram bs = ([], .illegalEvent)) ∧
    (bs ≠ [] → decode bs = .truncated → decodeProgram bs = ([], .truncatedEvent)))

/-! ### The step -/

/-- R77, R86, R131: when the bytes of the program decode to an event and the host leaves the step to the program, the step is
that event, with the record taken off the program and the environment's quiet slot (log 10) used. With no record left
(R22, R110; the model's choice, log 6) a step changes nothing but that slot. -/
def Obligations.StepRunsTheDecodedEvent : Prop :=
  ∀ s : State, configValid s.cfg = true → s.runsProgram →
    (∀ i rest, decode s.program = .ok i rest → step s = exec i { s with program := rest, inputs := s.inputs.tail }) ∧
    (s.program = [] → step s = next { s with inputs := s.inputs.tail })

/-- R10: a configuration that breaks a constraint is rejected: no step of it runs. -/
def Obligations.InvalidConfigurationIsRejected : Prop :=
  ∀ s : State,
    ¬ (1 ≤ s.cfg.irLen ∧ s.cfg.irLen ≤ 32 ∧ s.cfg.addrInstr.toNat < 2 ^ s.cfg.irLen ∧ s.cfg.haltShift + 4 ≤ 32 ∧
        (s.cfg.softResetShift.val < s.cfg.haltShift ∨ s.cfg.haltShift + 3 < s.cfg.softResetShift.val) ∧
        s.cfg.postcodeShift % 8 = 0 ∧ s.cfg.postcodeShift ≤ 24) ↔
      step s = .refused .configInvalid

/-- R270: power-on, for every value of the parameters; the pieces R57 leaves unspecified are not constrained here. -/
def Obligations.PowerOnState : Prop :=
  ∀ c : Config,
    let s := State.powerOn c
    s.dev.tap = .idle ∧ s.dev.phase = .none ∧ s.dev.mem.words = 0 ∧ s.dev.tck = false ∧ s.ready = false ∧
      s.pinsOwned = false ∧ s.host.workaroundApplied = false ∧ s.host.resetPending = false ∧
      s.host.arcResetObserved = false ∧ s.host.busCancel = false ∧ s.host.lock = .free ∧ s.host.seq = .idle

/-! ### The TAP state machine (40_tap_fsm.md) -/

/-- R120: the transition table, all 32 entries, with the codes of R25. -/
def Obligations.TransitionTable : Prop :=
  ∀ row ∈ ([(0, .reset, .idle, .reset), (1, .idle, .idle, .scanDr), (2, .scanDr, .captureDr, .scanIr),
      (3, .scanIr, .captureIr, .reset), (4, .captureDr, .shiftDr, .exit1Dr), (5, .captureIr, .shiftIr, .exit1Ir),
      (6, .shiftDr, .shiftDr, .exit1Dr), (7, .shiftIr, .shiftIr, .exit1Ir), (8, .exit1Dr, .pauseDr, .updateDr),
      (9, .exit1Ir, .pauseIr, .updateIr), (10, .pauseDr, .pauseDr, .exit2Dr), (11, .pauseIr, .pauseIr, .exit2Ir),
      (12, .exit2Dr, .shiftDr, .updateDr), (13, .exit2Ir, .shiftIr, .updateIr), (14, .updateDr, .idle, .scanDr),
      (15, .updateIr, .idle, .scanDr)] : List (BitVec 4 × TapState × TapState × TapState)),
    tapCode row.2.1 = row.1 ∧ nextTap row.2.1 false = row.2.2.1 ∧ nextTap row.2.1 true = row.2.2.2

/-- R125: from any device, five falling edges with TMS high land in `Reset`, and one more with TMS low in `Idle`, whatever TDI
is and whatever the edges do on the way. -/
def Obligations.FiveHighEdgesReachReset : Prop :=
  ∀ (c : Config) (d : Device) (b1 b2 b3 b4 b5 b6 : Bool),
    (edges c [(true, b1), (true, b2), (true, b3), (true, b4), (true, b5)] d).tap = .reset ∧
      (edges c [(true, b1), (true, b2), (true, b3), (true, b4), (true, b5), (false, b6)] d).tap = .idle

/-- R111, R112, R114: a write of TMS or TDI latches the level and changes nothing else, and a sample of TDO returns one bit,
any bit, and changes no device state, whatever `ready` and `pins_owned` are (the counter of drawn values is the model's,
log 3). -/
def Obligations.TmsTdiAndTdoPins : Prop :=
  ∀ (s : State) (v : Bool),
    exec (.pinTms v) s = next { s with dev := { s.dev with tms := v }, result := some .ok } ∧
      exec (.pinTdi v) s = next { s with dev := { s.dev with tdi := v }, result := some .ok } ∧
      ∃ b, exec .pinTdo s = next { s with result := some (.okBit b), draws := s.draws + 1 }

/-- R115, R116: a rising edge of TCK only latches the level, and a write of the level a pin already has changes nothing. -/
def Obligations.OnlyFallingEdgesAct : Prop :=
  (∀ s : State, s.dev.tck = false →
    exec (.pinTck true) s = next { s with dev := { s.dev with tck := true }, result := some .ok }) ∧
  (∀ s : State, exec (.pinTck s.dev.tck) s = next { s with result := some .ok } ∧
    exec (.pinTms s.dev.tms) s = next { s with result := some .ok } ∧
    exec (.pinTdi s.dev.tdi) s = next { s with result := some .ok })

/-- R104: `clock m, d` is the five device events `pin tms, m; pin tdi, d; pin tck, 1; pin tdo; pin tck, 0`, and it completes
in every state; R176: its device effect is the one step `edge(m, d)`, with the levels latched and TCK low. -/
def Obligations.ClockIsFivePinEvents : Prop :=
  ∀ (s : State) (m d : Bool), ∃ t,
    exec (.clock m d) s = next t ∧
      execEvents [.pinTms m, .pinTdi d, .pinTck true, .pinTdo, .pinTck false] s = next t ∧
      t = { s with
        dev := { edge s.cfg s.dev m d with tck := false, tms := m, tdi := d }
        result := some .ok
        draws := s.draws + 1 }

/-! ### Falling-edge actions (41_shift_registers.md) -/

/-- R135, R136: the edge in a Scan state selects the active register and moves on; nothing else changes. -/
def Obligations.ScanEdgeSelects : Prop :=
  ∀ s : State, s.dev.tck = true →
    (s.dev.tap = .scanDr → exec (.pinTck false) s = next { s with
      dev := { s.dev with
        sel := if s.dev.ir.hold ∈ s.cfg.bypassSelect then .byp else .dr
        tap := if s.dev.tms then .scanIr else .captureDr
        tck := false }
      result := some .ok }) ∧
    (s.dev.tap = .scanIr → exec (.pinTck false) s = next { s with
      dev := { s.dev with sel := .ir, tap := if s.dev.tms then .reset else .captureIr, tck := false }
      result := some .ok })

/-- R137, R138: the edge in a Capture state clears the active register's bit count, and only that. -/
def Obligations.CaptureEdgeClearsTheCount : Prop :=
  ∀ s : State, s.dev.tck = true → s.dev.tap = .captureDr ∨ s.dev.tap = .captureIr →
    exec (.pinTck false) s = next { s with
      dev := { s.dev.setReg s.dev.sel { s.dev.reg s.dev.sel with count := 0 } with
        tap := nextTap s.dev.tap s.dev.tms
        tck := false }
      result := some .ok }

/-- R139: the edge in a Shift state with TMS low appends the TDI level as the new least significant bit of the active
register and counts it, modulo `COUNT_MODULUS` if it is set (not to 0, which no rule speaks of, log 15); nothing else changes,
the TAP state included. -/
def Obligations.ShiftEdgeAppendsTdi : Prop :=
  ∀ s : State, s.cfg.countModulus ≠ some 0 → s.dev.tck = true → s.dev.tms = false → s.dev.tap = .shiftDr ∨ s.dev.tap = .shiftIr →
    exec (.pinTck false) s = next { s with
      dev := { s.dev.setReg s.dev.sel { s.dev.reg s.dev.sel with
          acc := BitVec.ofNat 32 (2 * (s.dev.reg s.dev.sel).acc.toNat + s.dev.tdi.toNat)
          count := match s.cfg.countModulus with
            | none => (s.dev.reg s.dev.sel).count + 1
            | some m => ((s.dev.reg s.dev.sel).count + 1) % m } with
        tck := false }
      result := some .ok }

/-- R119, R121, R140: an edge in `Reset`, `Idle`, an Exit or Pause state, or in a Shift state with TMS high, only moves. -/
def Obligations.EdgesWithoutAction : Prop :=
  ∀ s : State, s.dev.tck = true →
    s.dev.tap ∈ [.reset, .idle, .exit1Dr, .exit1Ir, .pauseDr, .pauseIr, .exit2Dr, .exit2Ir] ∨
      (s.dev.tms = true ∧ s.dev.tap ∈ [.shiftDr, .shiftIr]) →
    exec (.pinTck false) s = next { s with
      dev := { s.dev with tap := nextTap s.dev.tap s.dev.tms, tck := false }
      result := some .ok }

/-- R143, R155, R156, R136: the edge in an Update state with IR active commits IR, arms the pairing on `ADDR_INSTR`, cancels
it on any other value when `P_IR_CANCEL` is set, and leaves memory alone; with BYP active it commits BYP and runs no
pairing hook. -/
def Obligations.IrAndBypassCommitEdge : Prop :=
  ∀ (s : State) (v : Word), s.dev.tck = true → s.dev.tap = .updateDr ∨ s.dev.tap = .updateIr →
    (s.dev.sel = .ir → v = rev32 s.dev.ir.acc >>> (32 - min (max s.dev.ir.count 1) 32) →
      exec (.pinTck false) s = next { s with
        dev := { s.dev with
          ir := { s.dev.ir with hold := v }
          phase := if v = s.cfg.addrInstr then .armed else if s.cfg.pIrCancel then .none else s.dev.phase
          tap := if s.dev.tms then .scanDr else .idle
          tck := false }
        result := some .ok }) ∧
    (s.dev.sel = .byp → v = rev32 s.dev.byp.acc >>> (32 - min (max s.dev.byp.count 1) 32) →
      exec (.pinTck false) s = next { s with
        dev := { s.dev with
          byp := { s.dev.byp with hold := v }
          tap := if s.dev.tms then .scanDr else .idle
          tck := false }
        result := some .ok })

/-- R157, R158, R159: the edge in an Update state with DR active commits DR; with no pairing it does nothing more, armed it
captures the address, and with an address pending it writes the word there and ends the pair (or re-arms, `P_REARM`). -/
def Obligations.DrCommitEdge : Prop :=
  ∀ (s : State) (v : Word), s.dev.tck = true → s.dev.tap = .updateDr ∨ s.dev.tap = .updateIr → s.dev.sel = .dr →
    v = rev32 s.dev.dr.acc >>> (32 - min (max s.dev.dr.count 1) 32) →
    ∃ p m, exec (.pinTck false) s = next { s with
        dev := { s.dev with
          dr := { s.dev.dr with hold := v }
          phase := p
          mem := m
          tap := if s.dev.tms then .scanDr else .idle
          tck := false }
        result := some .ok } ∧
      (s.dev.phase = .none → p = .none ∧ m = s.dev.mem) ∧
      (s.dev.phase = .armed → p = .addr v ∧ m = s.dev.mem) ∧
      (∀ a, s.dev.phase = .addr a → p = (if s.cfg.pRearm then .armed else .none) ∧ m = memWrite s.dev.mem a v)

/-- R153: the committed value at every count, bit by bit: at 0 the newest bit; from 1 to 31 the last `count` bits reversed;
from 32 on the whole accumulator reversed. -/
def Obligations.CommitArithmetic : Prop :=
  ∀ (acc : Word) (count : Nat),
    (count = 0 → clampCount count = 1 ∧ commitValue acc count = (BitVec.ofBool (acc.getLsbD 0)).setWidth 32) ∧
    (1 ≤ count → count ≤ 31 → clampCount count = count ∧
      ∀ j, (commitValue acc count).getLsbD j = (decide (j < count) && acc.getLsbD (count - 1 - j))) ∧
    (32 ≤ count → clampCount count = 32 ∧ commitValue acc count = rev32 acc ∧
      ∀ j, (commitValue acc count).getLsbD j = (decide (j < 32) && acc.getLsbD (31 - j)))

/-- R145: shifting an n-bit value (1 to 32 bits) least significant bit first between a Capture and the next Update of a
register commits exactly that value, whatever the register held before. -/
def Obligations.ScanCommitsItsValue : Prop :=
  ∀ (c : Config) (d : Device) (bits : List Bool) (x y z w m : Bool), d.tap = .captureDr ∨ d.tap = .captureIr →
    1 ≤ bits.length → bits.length ≤ 32 → countExact c bits.length →
    ((edges c ([(false, x)] ++ dataCycles bits ++ [(true, y), (true, z), (m, w)]) d).reg d.sel).hold =
      BitVec.ofNat 32 (scanValue bits)

/-- R149, R147: after a scan of more than 32 bits the commit holds the last 32, the earliest of them at bit 0; with
`COUNT_MODULUS` set (not to 0, which no rule speaks of, log 15) the clamped count is that of the wrapped counter, for a scan of
any length. A scan that passes from Capture to Update without a shift commits the last bit left in the accumulator. -/
def Obligations.OverLongAndZeroCountCommits : Prop :=
  ∀ (c : Config) (d : Device) (x y z w m : Bool), d.tap = .captureDr ∨ d.tap = .captureIr → c.countModulus ≠ some 0 →
    (∀ (bits : List Bool) (k : Nat), 1 ≤ bits.length →
      k = (match c.countModulus with
        | none => min bits.length 32
        | some q => min (max (bits.length % q) 1) 32) →
      ∀ j, (((edges c ([(false, x)] ++ dataCycles bits ++ [(true, y), (true, z), (m, w)]) d).reg d.sel).hold).getLsbD j =
        (decide (j < k) && bits.getD (bits.length - k + j) false)) ∧
    ((edges c [(true, x), (true, y), (m, z)] d).reg d.sel).hold =
      (BitVec.ofBool ((d.reg d.sel).acc.getLsbD 0)).setWidth 32

/-- R141: a scan may leave Shift, wait any number of edges in Pause and return; the device is then as it was. -/
def Obligations.PausedScanIsUnchanged : Prop :=
  ∀ (c : Config) (d : Device) (k : Nat) (x y z u v : Bool), d.tap = .shiftDr ∨ d.tap = .shiftIr →
    edges c ([(true, x), (false, y)] ++ List.replicate k (false, z) ++ [(true, u), (false, v)]) d = d

/-! ### Pairing and memory (42_tdr_memory.md) -/

/-- R31, R160: an edge taken outside the Update states changes no hold value, no pairing phase and no memory. -/
def Obligations.OnlyUpdateEdgesCommit : Prop :=
  ∀ (c : Config) (d : Device) (m b : Bool), d.tap ≠ .updateDr → d.tap ≠ .updateIr →
    (edge c d m b).phase = d.phase ∧ (edge c d m b).mem = d.mem ∧ ∀ r, ((edge c d m b).reg r).hold = (d.reg r).hold

/-- R162, R74: in range the word that contains the address holds the value and every other word is as before; out of range
the write is silently dropped; the same write twice leaves the same memory as once. -/
def Obligations.BoundedWordWrite : Prop :=
  ∀ (m : Memory) (a v : Word), m.wf = true →
    (a.toNat / 4 < m.words →
      (memWrite m a v).readWord (a.toNat / 4) = v ∧ (memWrite m a v).words = m.words ∧
        ∀ i, i ≠ a.toNat / 4 → (memWrite m a v).readWord i = m.readWord i) ∧
    (m.words ≤ a.toNat / 4 → memWrite m a v = m) ∧
    memWrite (memWrite m a v) a v = memWrite m a v

/-- The memory frame of a falling edge (R31, R159): every byte outside the word that the pending address names reads as
before, and with no address pending, or no DR commit, every byte does. -/
def Obligations.FallingEdgeMemoryFrame : Prop :=
  ∀ (s t : State) (x : Nat), exec (.pinTck false) s = next t →
    (∀ a, s.dev.tck = true → s.dev.tap = .updateDr ∨ s.dev.tap = .updateIr → s.dev.sel = .dr → s.dev.phase = .addr a →
      x < 4 * wordIndex a ∨ 4 * wordIndex a + 4 ≤ x) →
    t.dev.mem.readByte x = s.dev.mem.readByte x ∧ t.dev.mem.words = s.dev.mem.words

/-- R166, R167: under the emulator a direct read returns the word that contains the address, or out of range any word; it
changes no device state and needs neither `ready` nor `pins_owned` (the counter of drawn values is the model's, log 3). -/
def Obligations.DirectReadReturnsTheWord : Prop :=
  ∀ (s : State) (a : Word), s.cfg.backend = .emulator →
    (a.toNat / 4 < s.dev.mem.words →
      exec (.emuRead a) s = next { s with result := some (.okWord (s.dev.mem.readWord (a.toNat / 4))) }) ∧
    (s.dev.mem.words ≤ a.toNat / 4 →
      ∃ w, exec (.emuRead a) s = next { s with result := some (.okWord w), draws := s.draws + 1 })

/-- R169, R170: under the emulator an attach binds exactly the words given and changes only the memory: a pending address
survives. That the memory has its canonical form is the model's own clause (log 5). -/
def Obligations.AttachBindsTheWords : Prop :=
  ∀ (s : State) (ws : List Word), s.cfg.backend = .emulator →
    ∃ m, exec (.emuAttach ws) s = next { s with dev := { s.dev with mem := m }, result := some .ok } ∧
      m.words = ws.length ∧ m.wf = true ∧ ∀ k (h : k < ws.length), m.readWord k = ws[k]

/-- R172, R206, R216: under the physical backend both emulator events are refused with reason `EmulatorOnly`, and a register
read of a host procedure, be it `reg_read`, the read of a read-modify-write or a word of `verify`, ends it with the refusal
`PhysicalReadRefused` and changes nothing else (that the procedure ends with it, and the machine does not stop, is the model's
reading, log 8). -/
def Obligations.PhysicalBackendRefusesReads : Prop :=
  ∀ (s : State) (ws : List Word) (a b d w : Word) (k : Nat) (c : ContextId), s.cfg.backend = .bitBang →
    exec (.emuAttach ws) s = .refused .emulatorOnly ∧ exec (.emuRead a) s = .refused .emulatorOnly ∧
      ∀ op ∈ [.readRegister a, .modify a b d, .compareWords k (w :: ws) a],
        hostStep c op s = next (s.abort c (.refused .physicalReadRefused))

/-! ### Transport operations (43_transport.md) -/

/-- R200, R198: `init` sets `ready` and `teardown` releases the pins; each returns `Ok` in every state and makes no pin
event. -/
def Obligations.InitAndTeardown : Prop :=
  ∀ s : State, exec .init s = next { s with ready := true, result := some .ok } ∧
    exec .teardown s = next { s with pinsOwned := false, result := some .ok }

/-- R176, R180, R184, R186, R190, R193, R280: from every TAP state a transport operation that passes its checks and cannot
fail part-way completes, makes exactly its TCK cycles, from wherever the TAP is, and changes no state but the device's and
`pins_owned`, which `reset` sets. R290: the number of cycles of each. That a start in `Shift-DR` makes the cycles of the framing
by the table of R120, and so shifts none of them, is the model's reading: the example of R280 says otherwise (log 29). -/
def Obligations.OperationMakesItsCycles : Prop :=
  ∀ (s : State) (call : TransportCall), madeOfPins call = true → s.ready = true →
    (needsPins call = true → s.pinsOwned = true) → mayFailMidway s.cfg = false → ∃ r n,
      exec (.ofCall call) s = next { s with
        dev := cycleDevice s.cfg (callCycles s.cfg call) s.dev
        pinsOwned := true
        result := some r
        draws := s.draws + n } ∧
      isError (some r) = false ∧ n = (callCycles s.cfg call).length ∧
      n = (match call with
        | .reset => 6
        | .readId => 39
        | .updateIr bits => bits.length + 7
        | .updateDr bits => bits.length + 6
        | .tick k => k.toNat
        | .teardown => 0)

/-- R201: any transport event through a null handle returns `InvalidArgument`: no pin event, no state change. R251: in every
configuration its numeric code differs from that of `TransportError`, and both from that of `Ok` (that a code is a 32-bit word is
the model's choice, log 31). -/
def Obligations.NullHandleIsInvalidArgument : Prop :=
  (∀ (s : State) (call : TransportCall), exec (.null call) s = next { s with result := some .invalidArgument }) ∧
    ∀ (g : Config) (r : Result), (resultCode g r = resultCode g .ok ↔ isError (some r) = false) ∧
      resultCode g .invalidArgument ≠ resultCode g .transportError

/-- R180, R181: with the link ready, `reset` completes from every TAP state, in six cycles, with `tap = Idle` and the pins
taken; from `Idle` it changes nothing else of the device but the select, to IR, and the pin latches. -/
def Obligations.ResetEndsInIdle : Prop :=
  ∀ s : State, s.ready = true → mayFailMidway s.cfg = false → ∃ d,
    exec .reset s = next { s with dev := d, pinsOwned := true, result := some .ok, draws := s.draws + 6 } ∧ d.tap = .idle ∧
      (s.dev.tap = .idle → d = { s.dev with sel := .ir, tck := false, tms := false, tdi := false })

/-- R182: a `reset` started in `Shift-DR` with DR active commits it on the way, with the pairing hook, and so can capture an
address or write a data word. -/
def Obligations.ResetInShiftCommits : Prop :=
  ∀ s : State, s.ready = true → mayFailMidway s.cfg = false → s.dev.tap = .shiftDr → s.dev.sel = .dr → ∃ d,
    exec .reset s = next { s with dev := d, pinsOwned := true, result := some .ok, draws := s.draws + 6 } ∧ d.tap = .idle ∧
      d.dr = { s.dev.dr with hold := commitValue s.dev.dr.acc s.dev.dr.count } ∧
      (s.dev.phase = .none → d.phase = .none ∧ d.mem = s.dev.mem) ∧
      (s.dev.phase = .armed → d.phase = .addr d.dr.hold ∧ d.mem = s.dev.mem) ∧
      (∀ a, s.dev.phase = .addr a →
        d.phase = (if s.cfg.pRearm then .armed else .none) ∧ d.mem = memWrite s.dev.mem a d.dr.hold)

/-- R185: a successful `update_ir n, V` (n at least 1) from `Idle`: IR holds the value (the last 32 bits of a longer one), its
count is n, the hook has run, and memory and the other registers are unchanged. -/
def Obligations.UpdateIrFromIdle : Prop :=
  ∀ (s : State) (bits : List Bool) (v : Word), s.canScan → s.dev.tap = .idle → 1 ≤ bits.length →
    countExact s.cfg bits.length →
    v = BitVec.ofNat 32 (if bits.length ≤ 32 then scanValue bits else scanValue bits / 2 ^ (bits.length - 32)) →
    exec (.updateIr bits) s = next { s with
      dev := { s.dev with
        sel := .ir
        ir := { acc := BitVec.ofNat 32 (s.dev.ir.acc.toNat * 2 ^ bits.length + scanValue bits.reverse)
                count := bits.length
                hold := v }
        phase := if v = s.cfg.addrInstr then .armed else if s.cfg.pIrCancel then .none else s.dev.phase
        tck := false
        tms := false
        tdi := false }
      result := some .ok
      draws := s.draws + (bits.length + 7) }

/-- R187, R188: a successful `update_dr n, V` (n at least 1) from `Idle`, with no IR value selecting BYP: DR holds the value,
its count is n, the DR hook has run with it, and n bits, any bits, are returned. -/
def Obligations.UpdateDrFromIdle : Prop :=
  ∀ (s : State) (bits : List Bool) (v : Word), s.canScan → s.dev.tap = .idle → 1 ≤ bits.length →
    countExact s.cfg bits.length → s.dev.ir.hold ∉ s.cfg.bypassSelect →
    v = BitVec.ofNat 32 (if bits.length ≤ 32 then scanValue bits else scanValue bits / 2 ^ (bits.length - 32)) →
    ∃ p m out, out.length = bits.length ∧
      exec (.updateDr bits) s = next { s with
        dev := { s.dev with
          sel := .dr
          dr := { acc := BitVec.ofNat 32 (s.dev.dr.acc.toNat * 2 ^ bits.length + scanValue bits.reverse)
                  count := bits.length
                  hold := v }
          phase := p
          mem := m
          tck := false
          tms := false
          tdi := false }
        result := some (.okBits bits.length (packBits out))
        draws := s.draws + (bits.length + 6) } ∧
      (s.dev.phase = .none → p = .none ∧ m = s.dev.mem) ∧
      (s.dev.phase = .armed → p = .addr v ∧ m = s.dev.mem) ∧
      (∀ a, s.dev.phase = .addr a → p = (if s.cfg.pRearm then .armed else .none) ∧ m = memWrite s.dev.mem a v)

/-- R136: with the committed IR value in `BYPASS_SELECT`, an `update_dr` from `Idle` goes to BYP: DR, the pairing and memory
are unchanged. -/
def Obligations.UpdateDrThroughBypass : Prop :=
  ∀ (s : State) (bits : List Bool) (v : Word), s.canScan → s.dev.tap = .idle → 1 ≤ bits.length →
    countExact s.cfg bits.length → s.dev.ir.hold ∈ s.cfg.bypassSelect →
    v = BitVec.ofNat 32 (if bits.length ≤ 32 then scanValue bits else scanValue bits / 2 ^ (bits.length - 32)) →
    ∃ out, out.length = bits.length ∧
      exec (.updateDr bits) s = next { s with
        dev := { s.dev with
          sel := .byp
          byp := { acc := BitVec.ofNat 32 (s.dev.byp.acc.toNat * 2 ^ bits.length + scanValue bits.reverse)
                   count := bits.length
                   hold := v }
          tck := false
          tms := false
          tdi := false }
        result := some (.okBits bits.length (packBits out))
        draws := s.draws + (bits.length + 6) }

/-- R190, R191: `read_id` from `Idle` commits `ID_TDI_FILL` to IR in 39 cycles, runs the hook with it, and returns an id, any
id; memory is unchanged. -/
def Obligations.ReadIdFromIdle : Prop :=
  ∀ s : State, s.canScan → s.dev.tap = .idle → countExact s.cfg 32 → ∃ id,
    exec .readId s = next { s with
      dev := { s.dev with
        sel := .ir
        ir := { acc := rev32 s.cfg.idTdiFill, count := 32, hold := s.cfg.idTdiFill }
        phase := if s.cfg.idTdiFill = s.cfg.addrInstr then .armed
          else if s.cfg.pIrCancel then .none else s.dev.phase
        tck := false
        tms := false
        tdi := false }
      result := some (.okId id)
      draws := s.draws + 39 }

/-- R193, R194: `tick n` completes from every TAP state; from `Idle` it changes no device state but the pin latches, which the
cycles drive low when there are any (log 16). -/
def Obligations.TickWaitsInIdle : Prop :=
  ∀ (s : State) (n : Word), s.canScan → ∃ d,
    exec (.tick n) s = next { s with dev := d, result := some .ok, draws := s.draws + n.toNat } ∧
      d = cycleDevice s.cfg (List.replicate n.toNat (false, false)) s.dev ∧
      (s.dev.tap = .idle → d = if n = 0 then s.dev else { s.dev with tck := false, tms := false, tdi := false })

/-- R199: while the pins are released, `read_id`, a scan of at least one bit and `tick` are refused with reason
`PinsReleased`. -/
def Obligations.ReleasedPinsRefuseScans : Prop :=
  ∀ (s : State) (bits : List Bool) (n : Word), s.ready = true → s.pinsOwned = false → 1 ≤ bits.length →
    exec .readId s = .refused .pinsReleased ∧ exec (.updateIr bits) s = .refused .pinsReleased ∧
      exec (.updateDr bits) s = .refused .pinsReleased ∧ exec (.tick n) s = .refused .pinsReleased

/-- R178 check 3, R183, R246 cause 1: while the link is not ready, `reset`, `read_id`, a scan of at least one bit and `tick`
return `TransportError` and change nothing, `pins_owned` included. -/
def Obligations.UnreadyLinkIsTransportError : Prop :=
  ∀ (s : State) (bits : List Bool) (n : Word), s.ready = false → 1 ≤ bits.length →
    ∀ i ∈ [.reset, .readId, .updateIr bits, .updateDr bits, .tick n],
      exec i s = next { s with result := some .transportError }

/-- R179: a zero-length scan changes no state; with the link ready it returns `Ok` (with no bits out), else `Ok` or
`TransportError` (the counter of drawn values is the model's, log 3). -/
def Obligations.ZeroLengthScansDoNothing : Prop :=
  ∀ s : State,
    (s.ready = true → exec (.updateIr []) s = next { s with result := some .ok } ∧
      exec (.updateDr []) s = next { s with result := some (.okBits 0 []) }) ∧
    (s.ready = false →
      (∃ r, (r = .ok ∨ r = .transportError) ∧
        exec (.updateIr []) s = next { s with result := some r, draws := s.draws + 1 }) ∧
      (∃ r, (r = .okBits 0 [] ∨ r = .transportError) ∧
        exec (.updateDr []) s = next { s with result := some r, draws := s.draws + 1 }))

/-- R197: with `MIDOP_FAIL` under the bit-bang backend, an operation that has passed its checks (`reset` with the pins released
among them, R180) makes some first k of its
cycles; it returns `TransportError` exactly when k is less than its cycle count. -/
def Obligations.PartWayFailureKeepsACyclePrefix : Prop :=
  ∀ (s : State) (call : TransportCall), s.cfg.backend = .bitBang → s.cfg.midopFail = true → s.ready = true →
    (needsPins call = true → s.pinsOwned = true) → madeOfPins call = true → ∃ t k,
      exec (.ofCall call) s = next t ∧ k ≤ (callCycles s.cfg call).length ∧
        t.dev = cycleDevice s.cfg ((callCycles s.cfg call).take k) s.dev ∧
        (t.result = some .transportError ↔ k < (callCycles s.cfg call).length) ∧
        t.ready = true ∧ t.pinsOwned = true ∧ t.host = s.host

/-- R204: `write_word a, d` from `Idle` re-arms the pairing whatever its phase, writes the word in range, and ends in `Idle`
with `ADDR_INSTR` and `d` in the hold registers, after `IR_LEN + 83` cycles (R290), each of them one drawn TDO sample. -/
def Obligations.WriteWordEffect : Prop :=
  ∀ (s : State) (a d : Word), configValid s.cfg = true → s.canScan → s.dev.tap = .idle → countExact s.cfg 32 →
    s.cfg.addrInstr ∉ s.cfg.bypassSelect → ∃ t,
      execEvents (writeWordEvents s.cfg a d) s = next t ∧ t.dev.tap = .idle ∧ t.dev.mem = memWrite s.dev.mem a d ∧
        t.dev.phase = (if s.cfg.pRearm then .armed else .none) ∧ t.dev.ir.hold = s.cfg.addrInstr ∧ t.dev.dr.hold = d ∧
        t.dev.byp = s.dev.byp ∧ t.cfg = s.cfg ∧ t.ready = true ∧ t.pinsOwned = true ∧ t.host = s.host ∧
        isError t.result = false ∧ t.draws = s.draws + (s.cfg.irLen + 83)

/-- R205: `write_block a, [w0, …]` from `Idle`: word `((a >> 2) + k) mod 2^30` is set to `wk`, in order (so the last one stands
where a block longer than the address space meets itself), if it is in range, and dropped otherwise; all other words are
unchanged; it takes `m * (IR_LEN + 83)` cycles. The memory holds its canonical form (log 5), which every step keeps. -/
def Obligations.WriteBlockEffect : Prop :=
  ∀ (s : State) (a : Word) (ws : List Word), configValid s.cfg = true → s.canScan → s.dev.tap = .idle →
    countExact s.cfg 32 → s.cfg.addrInstr ∉ s.cfg.bypassSelect → s.dev.mem.wf = true → ∃ t,
      execEvents (writeBlockEvents s.cfg a ws) s = next t ∧ t.dev.tap = .idle ∧ t.dev.mem.words = s.dev.mem.words ∧
        (∀ k (h : k < ws.length), (a.toNat / 4 + k) % 2 ^ 30 < s.dev.mem.words →
          (∀ l, k < l → l < ws.length → (a.toNat / 4 + l) % 2 ^ 30 ≠ (a.toNat / 4 + k) % 2 ^ 30) →
          t.dev.mem.readWord ((a.toNat / 4 + k) % 2 ^ 30) = ws[k]) ∧
        (∀ i, (∀ k, k < ws.length → i ≠ (a.toNat / 4 + k) % 2 ^ 30) → t.dev.mem.readWord i = s.dev.mem.readWord i) ∧
        t.draws = s.draws + ws.length * (s.cfg.irLen + 83)

/-- R79, R175, R176: a transport call issued pin event by pin event, with nothing else in between, leaves the device, the
transport and the result as the call issued whole, when both are given the same TDO samples (log 3); whether the host issues it
so itself, or the environment has an event of a procedure or a record of the program issued so (log 9). The number of steps
counts the model's own bookkeeping steps (log 25). -/
def Obligations.CallByPinsIsTheCall : Prop :=
  ∀ (s : State) (call : TransportCall) (rest : List HostOp), configValid s.cfg = true →
    triggerDue s = false → canMove .irq s = false → madeOfPins call = true →
    (s.inputs = [] ∧ s.agenda .main = .eventByPins call :: rest ∨
      s.inputs = [.split] ∧ s.agenda .main = .event (.ofCall call) :: rest ∨
      s.inputs = [.split] ∧ s.agenda .main = [] ∧ rest = [] ∧ ∃ bs, decode s.program = .ok (.ofCall call) bs) →
    s.ready = true → (needsPins call = true → s.pinsOwned = true) → mayFailMidway s.cfg = false → ∃ t u,
      Sys2Proof.core.run (5 * (callCycles s.cfg call).length + 2) s = next t ∧ exec (.ofCall call) s = next u ∧
        t.dev = u.dev ∧ t.pinsOwned = u.pinsOwned ∧ t.result = u.result ∧ t.draws = u.draws ∧ t.agenda .main = rest

/-! ### The host (45_host_protocol.md) -/

/-- R217: `halt_pulse` under the emulator, the halt-control word in range: it reads, writes the word with the halt field set,
reads again, and writes it with the field cleared; the word ends as `old & ~HM` and every other word is unchanged. The numbers
of steps count each read as a step of its own (log 25). -/
def Obligations.HaltPulseEffect : Prop :=
  ∀ (s : State) (rest : List HostOp), configValid s.cfg = true → s.cfg.backend = .emulator → s.inputs = [] →
    triggerDue s = false → canMove .irq s = false → s.agenda .main = haltPulseOps s.cfg ++ rest → s.canScan →
    s.dev.tap = .idle → countExact s.cfg 32 → s.cfg.addrInstr ∉ s.cfg.bypassSelect → s.dev.mem.wf = true →
    wordIndex s.cfg.haltCtrlAddr < s.dev.mem.words → ∃ t u,
      Sys2Proof.core.run 4 s = next t ∧ Sys2Proof.core.run 4 t = next u ∧
        t.dev.mem.readWord (wordIndex s.cfg.haltCtrlAddr) =
          s.dev.mem.readWord (wordIndex s.cfg.haltCtrlAddr) ||| haltMask s.cfg ∧
        u.dev.mem.readWord (wordIndex s.cfg.haltCtrlAddr) =
          s.dev.mem.readWord (wordIndex s.cfg.haltCtrlAddr) &&& ~~~haltMask s.cfg ∧
        (∀ i, i ≠ wordIndex s.cfg.haltCtrlAddr → u.dev.mem.readWord i = s.dev.mem.readWord i) ∧
        u.agenda .main = rest ∧ u.dev.tap = .idle

/-- R220, R221: `apply` under the emulator, from `Idle` with no error, run twice in a row: the first call leaves the patch,
`0xF3` in the postcode word, the halt field cleared and the I/O direction bits set, each where in range and not overwritten
later in the sequence, `tap = Idle`, and the pairing done; the second call leaves memory, `tap` and `phase` as the first.
The register-map check at its end reports whether the halt and soft-reset bits are clear (R226, log 17).
(The accumulators are not compared: with a short `IR_LEN` one call does not shift out all of the old IR accumulator.) The number
of steps counts the model's own steps, the one of the register-map check among them (logs 17, 25). -/
def Obligations.ApplyTwiceIsApplyOnce : Prop :=
  ∀ (s : State) (ws : List Word) (t : Word) (rest : List HostOp) (pw : Nat → Nat) (halt gpio post : Nat),
    configValid s.cfg = true → s.cfg.backend = .emulator → s.inputs = [] → triggerDue s = false → canMove .irq s = false →
    s.agenda .main = applyOps s.cfg ws t ++ (applyOps s.cfg ws t ++ rest) → s.ready = true → s.dev.tap = .idle →
    countExact s.cfg 32 → s.cfg.addrInstr ∉ s.cfg.bypassSelect → s.dev.mem.wf = true → ws.length ≤ 2 ^ 30 →
    (∀ k, pw k = (t.toNat + k) % 2 ^ 30) → halt = wordIndex s.cfg.haltCtrlAddr → gpio = wordIndex s.cfg.gpioDirAddr →
    post = wordIndex s.cfg.postcodeAddr → ∃ u v,
      Sys2Proof.core.run (3 * ws.length + 20) s = next u ∧ Sys2Proof.core.run (3 * ws.length + 20) u = next v ∧
        u.agenda .main = applyOps s.cfg ws t ++ rest ∧ v.agenda .main = rest ∧
        u.dev.tap = .idle ∧ u.dev.phase = (if s.cfg.pRearm then .armed else .none) ∧
        v.dev.tap = u.dev.tap ∧ v.dev.phase = u.dev.phase ∧ v.dev.mem = u.dev.mem ∧
        (halt < s.dev.mem.words → (u.host.registerMapOk = true ↔
          u.dev.mem.readWord halt &&& (haltMask s.cfg ||| softResetMask s.cfg) = 0#32) ∧
          v.host.registerMapOk = u.host.registerMapOk) ∧
        u.dev.mem.words = s.dev.mem.words ∧
        (post < s.dev.mem.words → u.dev.mem.readWord post = postcodeWord s.cfg 0xF3#8) ∧
        (∀ k (h : k < ws.length), pw k < s.dev.mem.words → pw k ≠ post → u.dev.mem.readWord (pw k) = ws[k]) ∧
        (halt < s.dev.mem.words → halt ≠ gpio → halt ≠ post → (∀ k, k < ws.length → halt ≠ pw k) →
          u.dev.mem.readWord halt = s.dev.mem.readWord halt &&& ~~~haltMask s.cfg) ∧
        (gpio < s.dev.mem.words → gpio ≠ halt → gpio ≠ post → (∀ k, k < ws.length → gpio ≠ pw k) →
          u.dev.mem.readWord gpio = s.dev.mem.readWord gpio ||| s.cfg.gpioDirMask) ∧
        (∀ i, i ≠ halt → i ≠ gpio → i ≠ post → (∀ k, k < ws.length → i ≠ pw k) →
          u.dev.mem.readWord i = s.dev.mem.readWord i)

/-- R222, R223: one word of `verify` under the emulator: in range, a match goes on with the next word; a mismatch is logged,
postcode 0x6 is written, and the procedure ends with that mismatch, so that no later word is read. -/
def Obligations.VerifyStopsAtTheFirstMismatch : Prop :=
  ∀ (s : State) (c : ContextId) (k : Nat) (w t : Word) (rest : List Word) (a : Word), s.cfg.backend = .emulator →
    a = 4#32 * t + 4#32 * BitVec.ofNat 32 k → wordIndex a < s.dev.mem.words →
    ∀ x, x = s.dev.mem.readWord (wordIndex a) → ∃ u,
      hostStep c (.compareWords k (w :: rest) t) s = next u ∧ u.dev = s.dev ∧ u.result = some (.okWord x) ∧
        (x = w → u.agenda c = .compareWords (k + 1) rest t :: s.agenda c ∧ u.host.log = s.host.log) ∧
        (x ≠ w → u.agenda c = postcodeOps s.cfg 0x6#8 ++ .fail (.mismatch k w x) :: s.agenda c ∧
          u.host.log = s.host.log ++ [⟨k, w, x⟩])

/-- R215, R216, R229, R232: an event of a run that returns an error, or is refused, or fails part-way as pin events, the
`read_id` of its ID poll among them, or a register read refused under the bit-bang backend, ends the run at once with that
error, wherever the run has got to: what is left of it is its end, which puts the sequencer in `Idle`;
`workaround_applied` is unchanged and every write made is kept. Only the run's own `verify`, from where it starts to its
boundary, stops there instead, and the run goes on. (`started` is what is left of the part of the run in hand.)
That a refusal keeps the writes made before it is the model's reading (log 30). -/
def Obligations.ErrorEndsTheRun : Prop :=
  (∀ (s s' : State) (c : ContextId) (op : HostOp) (r : ProcResult) (started ops tail : List HostOp),
    (∀ o ∈ started, ∀ b, o ≠ .endProcedure b) → ops <:+ mainRunOps s.cfg → ops ≠ [] →
    s.agenda c = started ++ ops ++ tail → endsProcedure op s s' r →
    ∃ t u, hostStep c op s = next t ∧ t.agenda c = .endProcedure .run :: tail ∧
      (t.host.context c).outcome = some r ∧ t.dev = s'.dev ∧ t.host.workaroundApplied = s.host.workaroundApplied ∧
      hostStep c (.endProcedure .run) (t.setAgenda c tail) = next u ∧ u.host.seq = .idle ∧
      (u.host.context c).outcome = some r ∧ u.host.workaroundApplied = s.host.workaroundApplied ∧ u.dev = s'.dev ∧
      u.agenda c = tail) ∧
  (∀ (s : State) (c : ContextId), ∃ t, hostStep c .runVerify s = next t ∧ t.dev = s.dev ∧
    t.agenda c = (if s.cfg.verifyEnabled then
      .compareWords 0 (patchWords s.cfg) s.cfg.patchTarget.word :: .endProcedure .verify :: s.agenda c else s.agenda c)) ∧
  (∀ (s s' : State) (c : ContextId) (op : HostOp) (r : ProcResult) (started rest : List HostOp),
    (∀ o ∈ started, ∀ b, o ≠ .endProcedure b) → s.agenda c = started ++ .endProcedure .verify :: rest →
    endsProcedure op s s' r →
    ∃ t, hostStep c op s = next t ∧ t.agenda c = .endProcedure .verify :: rest ∧
      hostStep c (.endProcedure .verify) (t.setAgenda c rest) = next (t.setAgenda c rest) ∧
      (t.host.context c).outcome = some r ∧ t.dev = s'.dev)

/-- R235, R236: the locked section of `on_trigger` runs the sequencer inline from `BringingUpTransport` when the patch has been
applied, and else sets `reset_pending` and issues no transport event; the locked section of the pending pickup clears
`reset_pending` and runs the sequencer from `AwaitingPowerGood` if it is set, and else does nothing.
R230, R236, R238: `power_on_run` and `forced_reset` run it with the lock taken first and released last, and the pickup does its
check and its run in one locked section. Entering a state of a run sets the sequencer's state, and that a run has started, after
which `power_on_run` starts none (log 14).
R229, R242: the order of a run, with the two polls exactly when `EMULATION` is clear.
R229, R232, R234: a run of either entry, in either context, under the emulator with `EMULATION` set goes through its states to
its end from every state of the device, whatever its `verify` finds; and under either backend the last operations of a run set
`workaround_applied`, release the pins, put the sequencer in `Idle` and return `Ok` (in four steps, as the model counts them,
log 25). -/
def Obligations.TriggerRunsInlineOrDefers : Prop :=
  (∀ (s : State) (rest : List HostOp) (c : ContextId), s.agenda c = rest →
    (s.host.workaroundApplied = true → ∃ t, hostStep c .triggerBody s = next t ∧ t.agenda c = bringUpOps s.cfg ++ rest ∧
      t.dev = s.dev ∧ t.host.resetPending = s.host.resetPending) ∧
    (s.host.workaroundApplied = false →
      hostStep c .triggerBody s = next { s with host := { s.host with resetPending := true } }) ∧
    (s.host.resetPending = true → ∃ t, hostStep c .pickupBody s = next t ∧ t.agenda c = mainRunOps s.cfg ++ rest ∧
      t.dev = s.dev ∧ t.host.resetPending = false) ∧
    (s.host.resetPending = false → hostStep c .pickupBody s = next s)) ∧
  (∀ (s : State) (c : ContextId),
    hostStep c (.call .powerOnRun) s =
      next (s.push c (if s.host.ranOnce then [] else [.acquire] ++ mainRunOps s.cfg ++ [.release])) ∧
    hostStep c (.call .forcedReset) s = next (s.push c ([.acquire] ++ mainRunOps s.cfg ++ [.release])) ∧
    hostStep c (.call .pendingPickup) s = next (s.push c [.acquire, .pickupBody, .release]) ∧
    ∀ q, hostStep c (.setSeq q) s = next { s with host := { s.host with seq := q, ranOnce := true } }) ∧
  (∀ g : Config,
    mainRunOps g = .setSeq .awaitingPowerGood :: (if g.emulation then [] else [.pollPowerGood 0]) ++ bringUpOps g ∧
    bringUpOps g = .setSeq .bringingUpTransport ::
      [.sequencingLine .assert_, .sequencingLine .delay1ms, .sequencingLine .deassert, .sequencingLine .delay2ms] ++
      .event .reset :: (if g.emulation then [] else [.pollId 0]) ++
      .setSeq .patching :: applyOps g (patchWords g) g.patchTarget.word ++
      .setSeq .verifying :: .runVerify ::
      .setSeq .releasing :: softResetOps g ++ [.event .teardown, .markPatched, .finish .ok, .endProcedure .run]) ∧
  (∀ (s : State) (c : ContextId) (rest : List HostOp), s.undisturbed c →
    s.agenda c = [.event .teardown, .markPatched, .finish .ok, .endProcedure .run] ++ rest → ∃ t,
      Sys2Proof.core.run 4 s = next t ∧ t.host.workaroundApplied = true ∧ t.pinsOwned = false ∧ t.host.seq = .idle ∧
        (t.host.context c).outcome = some .ok ∧ t.dev = s.dev ∧ t.agenda c = rest) ∧
  (∀ (s : State) (c : ContextId) (fromPowerGood : Bool) (rest : List HostOp), s.undisturbed c → s.cfg.backend = .emulator →
    s.cfg.emulation = true → s.ready = true →
    s.agenda c = (if fromPowerGood then mainRunOps s.cfg else bringUpOps s.cfg) ++ rest → ∃ p a b d e z,
      reaches s p ∧ (fromPowerGood = true → p.host.seq = .awaitingPowerGood) ∧
      reaches p a ∧ a.host.seq = .bringingUpTransport ∧ reaches a b ∧ b.host.seq = .patching ∧
      reaches b d ∧ d.host.seq = .verifying ∧ reaches d e ∧ e.host.seq = .releasing ∧
      reaches e z ∧ z.host.seq = .idle ∧ z.host.workaroundApplied = true ∧ z.pinsOwned = false ∧
      z.host.arcResetObserved = (s.host.arcResetObserved || s.cfg.trackReset) ∧
      (z.host.context c).outcome = some .ok ∧ z.agenda c = rest)

/-- R256, R257: a trigger is held pending, at most one, when the option is set, and is never delivered when it is clear; it is
delivered as soon as no handler runs, and its delivery clears it. While a handler runs, a pending trigger stays pending; then,
and with the option clear, no step starts a handler: the irq context is as before, or has done its own next operation, whole or
begun as pin events.
R235, R238: the handler sets `bus_cancel` without the lock, takes the lock, does its locked section, releases the lock and clears
`bus_cancel`; with the patch not applied and the lock free it leaves `reset_pending` set and nothing else changed.
That an arrival is a slot of `inputs` and takes a step of its own is the model's choice (log 10), and so is
the slot that begins an event as pin events (log 9); the five steps of the handler are the model's (log 25). -/
def Obligations.TriggerDelivery : Prop :=
  (∀ s : State, configValid s.cfg = true →
    (∀ rest, s.inputs = .trigger :: rest → s.cfg.resetOnExternalSignal = true →
      step s = next { s with inputs := rest, host := { s.host with triggerPending := true } }) ∧
    (∀ rest, s.inputs = .trigger :: rest → s.cfg.resetOnExternalSignal = false → step s = next { s with inputs := rest }) ∧
    (s.inputs.head? ≠ some .trigger → s.cfg.resetOnExternalSignal = true → s.host.triggerPending = true →
      s.agenda .irq = [] →
      step s = next { s with
        inputs := s.inputs.tail
        host := { s.host with
          triggerPending := false
          irq := { s.host.irq with
            agenda := [.setBusCancel true, .acquire, .triggerBody, .release, .setBusCancel false] } } })) ∧
  (∀ s : State, s.undisturbed .irq →
    s.agenda .irq = [.setBusCancel true, .acquire, .triggerBody, .release, .setBusCancel false] →
    step s = next ({ s with host := { s.host with busCancel := true } }.setAgenda .irq
      [.acquire, .triggerBody, .release, .setBusCancel false]) ∧
    (s.host.lock = .free → s.host.workaroundApplied = false →
      Sys2Proof.core.run 5 s = next ({ s with
        host := { s.host with busCancel := false, resetPending := true } }.setAgenda .irq []))) ∧
  (∀ s t : State, s.agenda .irq ≠ [] ∨ s.cfg.resetOnExternalSignal = false → step s = next t →
    (s.host.triggerPending = true → t.host.triggerPending = true) ∧
    (s.cfg.resetOnExternalSignal = false → t.host.triggerPending = s.host.triggerPending) ∧
    (t.host.irq = s.host.irq ∨ ∃ op rest u, s.agenda .irq = op :: rest ∧
      u = { s with inputs := s.inputs.tail }.setAgenda .irq rest ∧
      (hostStep .irq op u = next t ∨ ∃ i, op = .event i ∧ splitEvent .irq .failCall i u = some t)))

/-- R238: `acquire` of a free lock by a context makes it held by that context, and `release` by its holder frees it; neither
changes anything else.
R238, R257, R266: a handler waiting at its `acquire` while the lock is held, by the main context or by itself, issues no
event: whatever the step, the irq context is as before; and so for a main context waiting at its `acquire` while the lock is
held, by the handler or by itself. That with a main context so waiting, no trigger still to take and the irq context unable to
move the machine stops, with the fault `stuck`, is the model's reading (log 19): so end a main context that acquires the lock it
already holds, and one that waits for a handler that is itself stuck. -/
def Obligations.BlockedContextsIssueNothing : Prop :=
  (∀ (s : State) (c : ContextId) (rest : List HostOp), s.undisturbed c →
    (s.agenda c = .acquire :: rest → s.host.lock = .free →
      step s = next ({ s with host := { s.host with lock := .held c } }.setAgenda c rest)) ∧
    (s.agenda c = .release :: rest → s.host.lock = .held c →
      step s = next ({ s with host := { s.host with lock := .free } }.setAgenda c rest))) ∧
  (∀ (s t : State) (c : ContextId) (rest : List HostOp), s.agenda .irq = .acquire :: rest → s.host.lock = .held c →
    step s = next t → t.host.irq = s.host.irq) ∧
  (∀ (s t : State) (c : ContextId) (rest : List HostOp), s.agenda .main = .acquire :: rest → s.host.lock = .held c →
    step s = next t → t.host.main = s.host.main) ∧
  (∀ (s : State) (c : ContextId) (rest : List HostOp), configValid s.cfg = true → s.inputs = [] ∨ s.inputs = [.quiet] →
    triggerDue s = false → canMove .irq s = false → s.agenda .main = .acquire :: rest → s.host.lock = .held c →
    step s = .fault .stuck)

/-- R237, R224: `was_reset` returns `arc_reset_observed` and `ack_reset` clears it; neither touches the block or takes the lock.
`soft_reset_target` under the emulator: it pulses the halt field, writes `ENTER_PATCH_VECTOR` into the reset-vector word, sets
the soft-reset bit and clears it again, leaves every other word, and sets the flag at its end when `TRACK_RESET` is set. The
numbers of steps count the model's own steps (logs 17, 25).
R49, R226: the register-map check, at the end of `apply`, `soft_reset_target` and every run, reports whether the halt and
soft-reset bits are clear, when the halt-control word is in range, and changes nothing else; where it is not, or under the
bit-bang backend, it reports nothing (`registerMapOk` is the model's report, log 17). After `soft_reset_target` it reports that
they are, when the reset-vector word is another. -/
def Obligations.CoreResetFlag : Prop :=
  (∀ (s : State) (c : ContextId),
    hostStep c .wasReset s = next (s.setOutcome c (.flag s.host.arcResetObserved)) ∧
      hostStep c .ackReset s = next { s with host := { s.host with arcResetObserved := false } }) ∧
  (∀ (s : State) (c : ContextId) (x : Bool), (s.cfg.backend = .emulator → wordIndex s.cfg.haltCtrlAddr < s.dev.mem.words →
      (x = true ↔ s.dev.mem.readWord (wordIndex s.cfg.haltCtrlAddr) &&& (haltMask s.cfg ||| softResetMask s.cfg) = 0#32)) →
    (s.cfg.backend = .bitBang ∨ s.dev.mem.words ≤ wordIndex s.cfg.haltCtrlAddr → x = s.host.registerMapOk) →
    hostStep c .checkRegisterMap s = next { s with host := { s.host with registerMapOk := x } } ∧
      hostStep c (.endProcedure .checkedCall) s = next { s with host := { s.host with registerMapOk := x } } ∧
      hostStep c (.endProcedure .run) s = next { s with host := { s.host with registerMapOk := x, seq := .idle } }) ∧
  (∀ (s : State) (rest : List HostOp) (halt vec : Nat), configValid s.cfg = true → s.cfg.backend = .emulator →
    s.inputs = [] → triggerDue s = false → canMove .irq s = false → s.agenda .main = softResetOps s.cfg ++ rest →
    s.canScan → s.dev.tap = .idle → countExact s.cfg 32 → s.cfg.addrInstr ∉ s.cfg.bypassSelect → s.dev.mem.wf = true →
    halt = wordIndex s.cfg.haltCtrlAddr → vec = wordIndex s.cfg.resetVectorAddr → ∃ t u,
      Sys2Proof.core.run 15 s = next t ∧ Sys2Proof.core.run 6 t = next u ∧ u.agenda .main = rest ∧ u.dev.tap = .idle ∧
        u.dev.mem.words = s.dev.mem.words ∧
        u.host.arcResetObserved = (s.host.arcResetObserved || s.cfg.trackReset) ∧
        (halt < s.dev.mem.words → (u.host.registerMapOk = true ↔
          u.dev.mem.readWord halt &&& (haltMask s.cfg ||| softResetMask s.cfg) = 0#32)) ∧
        (halt < s.dev.mem.words → halt ≠ vec → u.host.registerMapOk = true) ∧
        (halt < s.dev.mem.words → halt ≠ vec →
          t.dev.mem.readWord halt = s.dev.mem.readWord halt &&& ~~~haltMask s.cfg ||| softResetMask s.cfg ∧
          u.dev.mem.readWord halt = s.dev.mem.readWord halt &&& ~~~haltMask s.cfg &&& ~~~softResetMask s.cfg) ∧
        (vec < s.dev.mem.words → vec ≠ halt →
          t.dev.mem.readWord vec = s.cfg.enterPatchVector ∧ u.dev.mem.readWord vec = s.cfg.enterPatchVector) ∧
        (halt < s.dev.mem.words → halt = vec →
          t.dev.mem.readWord halt = s.cfg.enterPatchVector ||| softResetMask s.cfg ∧
          u.dev.mem.readWord halt = s.cfg.enterPatchVector &&& ~~~softResetMask s.cfg) ∧
        ∀ i, i ≠ halt → i ≠ vec → u.dev.mem.readWord i = s.dev.mem.readWord i)

/-- R239: with `POLL_BOUND = b`, a poll of a run that has read b times without success ends the run with `PollTimeout`, as an
error does: it reads no more, and what is left of the run is its end, which puts the sequencer in `Idle` and leaves
`workaround_applied` as it was. A poll with fewer reads made, or with no bound, makes exactly one read: with success the run
goes on, and else the poll is left with one read more. -/
def Obligations.BoundedPollTimesOut : Prop :=
  (∀ (s : State) (c : ContextId) (b : Nat) (ops tail : List HostOp), s.cfg.pollBound = some b →
    ops <:+ mainRunOps s.cfg → ops ≠ [] → s.agenda c = ops ++ tail →
    ∀ op ∈ [.pollPowerGood b, .pollId b], ∃ t u, hostStep c op s = next t ∧
      t.agenda c = .endProcedure .run :: tail ∧ (t.host.context c).outcome = some .pollTimeout ∧ t.dev = s.dev ∧
      t.draws = s.draws ∧ hostStep c (.endProcedure .run) (t.setAgenda c tail) = next u ∧ u.host.seq = .idle ∧
      (u.host.context c).outcome = some .pollTimeout ∧ u.host.workaroundApplied = s.host.workaroundApplied ∧
      u.agenda c = tail) ∧
  (∀ (s : State) (c : ContextId) (reads : Nat) (rest : List HostOp), (∀ b, s.cfg.pollBound = some b → reads < b) →
    s.agenda c = rest →
    (∃ t, hostStep c (.pollPowerGood reads) s = next t ∧ t.dev = s.dev ∧ t.draws = s.draws + 1 ∧
      (Config.drawBit s.draws = true → t.agenda c = rest) ∧
      (Config.drawBit s.draws = false → t.agenda c = .pollPowerGood (reads + 1) :: rest)) ∧
    (∀ u id, exec .readId s = next u → u.result = some (.okId id) → ∃ t, hostStep c (.pollId reads) s = next t ∧
      t.dev = u.dev ∧ t.draws = u.draws ∧ t.result = some (.okId id) ∧ (id = s.cfg.expectedId → t.agenda c = rest) ∧
      (id ≠ s.cfg.expectedId → t.agenda c = .pollId (reads + 1) :: rest)))

/-! ### Whole-machine rules -/

/-- R39 to R42, R57: an event changes no parameter, no host state, no program and no environment input; `ready` is changed
by `init` alone, and `pins_owned` by `reset` and `teardown` alone. -/
def Obligations.EventsLeaveTheHostAlone : Prop :=
  ∀ (i : Instr) (s t : State), exec i s = next t →
    t.cfg = s.cfg ∧ t.host = s.host ∧ t.program = s.program ∧ t.inputs = s.inputs ∧
      (i ≠ .init → t.ready = s.ready) ∧ (i ≠ .reset → i ≠ .teardown → t.pinsOwned = s.pinsOwned)

/-- R40, R234, R9: no step clears `ready` or `workaround_applied`, or changes a parameter. -/
def Obligations.StepNeverClearsLatches : Prop :=
  ∀ s t : State, step s = next t →
    t.cfg = s.cfg ∧ (s.ready = true → t.ready = true) ∧
      (s.host.workaroundApplied = true → t.host.workaroundApplied = true)

/-- Every step keeps the memory's canonical form (log 5). -/
def Obligations.StepKeepsMemoryCanonical : Prop :=
  ∀ s t : State, s.dev.mem.wf = true → step s = next t → t.dev.mem.wf = true

/-- R148: every step keeps the active register equal to the column of the TAP state. -/
def Obligations.StepKeepsColumnSelect : Prop :=
  ∀ s t : State, s.dev.columnSelect → step s = next t → t.dev.columnSelect

/-- R32: with `BYPASS_SELECT` empty and BYP not active, no step makes it active or changes the Bypass register. -/
def Obligations.BypassKeepsItsValues : Prop :=
  ∀ s t : State, s.bypassUnused → step s = next t → t.bypassUnused ∧ t.dev.byp = s.dev.byp

/-- The three invariants hold at power-on with the default `BYPASS_SELECT` (that `sel` is DR at power-on is the model's
choice, log 2). -/
def Obligations.PowerOnInvariants : Prop :=
  ∀ c : Config, (State.powerOn c).dev.mem.wf = true ∧ (State.powerOn c).dev.columnSelect ∧
    (c.bypassSelect = [] → (State.powerOn c).bypassUnused)
end

