-- ==== Sys2Proof/Laws/State.lean ====
section
/-! SUPPORT. One lemma per field per state update, so that no proof unfolds a record update. -/

namespace Sys2Proof.Machine

/-! ### `returns` -/

@[simp] theorem State.returns_cfg (s : State) (r : Result) : (s.returns r).cfg = s.cfg := rfl
@[simp] theorem State.returns_dev (s : State) (r : Result) : (s.returns r).dev = s.dev := rfl
@[simp] theorem State.returns_ready (s : State) (r : Result) : (s.returns r).ready = s.ready := rfl
@[simp] theorem State.returns_pinsOwned (s : State) (r : Result) : (s.returns r).pinsOwned = s.pinsOwned := rfl
@[simp] theorem State.returns_host (s : State) (r : Result) : (s.returns r).host = s.host := rfl
@[simp] theorem State.returns_program (s : State) (r : Result) : (s.returns r).program = s.program := rfl
@[simp] theorem State.returns_inputs (s : State) (r : Result) : (s.returns r).inputs = s.inputs := rfl
@[simp] theorem State.returns_result (s : State) (r : Result) : (s.returns r).result = some r := rfl
@[simp] theorem State.returns_draws (s : State) (r : Result) : (s.returns r).draws = s.draws := rfl

/-! ### `setDev` -/

@[simp] theorem State.setDev_cfg (s : State) (d : Device) : (s.setDev d).cfg = s.cfg := rfl
@[simp] theorem State.setDev_dev (s : State) (d : Device) : (s.setDev d).dev = d := rfl
@[simp] theorem State.setDev_ready (s : State) (d : Device) : (s.setDev d).ready = s.ready := rfl
@[simp] theorem State.setDev_pinsOwned (s : State) (d : Device) : (s.setDev d).pinsOwned = s.pinsOwned := rfl
@[simp] theorem State.setDev_host (s : State) (d : Device) : (s.setDev d).host = s.host := rfl
@[simp] theorem State.setDev_program (s : State) (d : Device) : (s.setDev d).program = s.program := rfl
@[simp] theorem State.setDev_inputs (s : State) (d : Device) : (s.setDev d).inputs = s.inputs := rfl
@[simp] theorem State.setDev_result (s : State) (d : Device) : (s.setDev d).result = s.result := rfl
@[simp] theorem State.setDev_draws (s : State) (d : Device) : (s.setDev d).draws = s.draws := rfl

/-! ### `advanceDraws` -/

@[simp] theorem State.advanceDraws_cfg (s : State) (n : Nat) : (s.advanceDraws n).cfg = s.cfg := rfl
@[simp] theorem State.advanceDraws_dev (s : State) (n : Nat) : (s.advanceDraws n).dev = s.dev := rfl
@[simp] theorem State.advanceDraws_ready (s : State) (n : Nat) : (s.advanceDraws n).ready = s.ready := rfl
@[simp] theorem State.advanceDraws_pinsOwned (s : State) (n : Nat) : (s.advanceDraws n).pinsOwned = s.pinsOwned := rfl
@[simp] theorem State.advanceDraws_host (s : State) (n : Nat) : (s.advanceDraws n).host = s.host := rfl
@[simp] theorem State.advanceDraws_program (s : State) (n : Nat) : (s.advanceDraws n).program = s.program := rfl
@[simp] theorem State.advanceDraws_inputs (s : State) (n : Nat) : (s.advanceDraws n).inputs = s.inputs := rfl
@[simp] theorem State.advanceDraws_result (s : State) (n : Nat) : (s.advanceDraws n).result = s.result := rfl
@[simp] theorem State.advanceDraws_draws (s : State) (n : Nat) : (s.advanceDraws n).draws = s.draws + n := rfl

/-! ### `takePins` -/

@[simp] theorem State.takePins_cfg (s : State) : (s.takePins).cfg = s.cfg := rfl
@[simp] theorem State.takePins_dev (s : State) : (s.takePins).dev = s.dev := rfl
@[simp] theorem State.takePins_ready (s : State) : (s.takePins).ready = s.ready := rfl
@[simp] theorem State.takePins_pinsOwned (s : State) : (s.takePins).pinsOwned = true := rfl
@[simp] theorem State.takePins_host (s : State) : (s.takePins).host = s.host := rfl
@[simp] theorem State.takePins_program (s : State) : (s.takePins).program = s.program := rfl
@[simp] theorem State.takePins_inputs (s : State) : (s.takePins).inputs = s.inputs := rfl
@[simp] theorem State.takePins_result (s : State) : (s.takePins).result = s.result := rfl
@[simp] theorem State.takePins_draws (s : State) : (s.takePins).draws = s.draws := rfl

/-! ### `setHost` -/

@[simp] theorem State.setHost_cfg (s : State) (h : HostState) : (s.setHost h).cfg = s.cfg := rfl
@[simp] theorem State.setHost_dev (s : State) (h : HostState) : (s.setHost h).dev = s.dev := rfl
@[simp] theorem State.setHost_ready (s : State) (h : HostState) : (s.setHost h).ready = s.ready := rfl
@[simp] theorem State.setHost_pinsOwned (s : State) (h : HostState) : (s.setHost h).pinsOwned = s.pinsOwned := rfl
@[simp] theorem State.setHost_host (s : State) (h : HostState) : (s.setHost h).host = h := rfl
@[simp] theorem State.setHost_program (s : State) (h : HostState) : (s.setHost h).program = s.program := rfl
@[simp] theorem State.setHost_inputs (s : State) (h : HostState) : (s.setHost h).inputs = s.inputs := rfl
@[simp] theorem State.setHost_result (s : State) (h : HostState) : (s.setHost h).result = s.result := rfl
@[simp] theorem State.setHost_draws (s : State) (h : HostState) : (s.setHost h).draws = s.draws := rfl

/-! ### `setAgenda` -/

@[simp] theorem State.setAgenda_cfg (s : State) (c : ContextId) (ops : List HostOp) : (s.setAgenda c ops).cfg = s.cfg := rfl
@[simp] theorem State.setAgenda_dev (s : State) (c : ContextId) (ops : List HostOp) : (s.setAgenda c ops).dev = s.dev := rfl
@[simp] theorem State.setAgenda_ready (s : State) (c : ContextId) (ops : List HostOp) : (s.setAgenda c ops).ready = s.ready := rfl
@[simp] theorem State.setAgenda_pinsOwned (s : State) (c : ContextId) (ops : List HostOp) : (s.setAgenda c ops).pinsOwned = s.pinsOwned := rfl
@[simp] theorem State.setAgenda_host (s : State) (c : ContextId) (ops : List HostOp) : (s.setAgenda c ops).host = s.host.setContext c { s.host.context c with agenda := ops } := rfl
@[simp] theorem State.setAgenda_program (s : State) (c : ContextId) (ops : List HostOp) : (s.setAgenda c ops).program = s.program := rfl
@[simp] theorem State.setAgenda_inputs (s : State) (c : ContextId) (ops : List HostOp) : (s.setAgenda c ops).inputs = s.inputs := rfl
@[simp] theorem State.setAgenda_result (s : State) (c : ContextId) (ops : List HostOp) : (s.setAgenda c ops).result = s.result := rfl
@[simp] theorem State.setAgenda_draws (s : State) (c : ContextId) (ops : List HostOp) : (s.setAgenda c ops).draws = s.draws := rfl

/-! ### `setOutcome` -/

@[simp] theorem State.setOutcome_cfg (s : State) (c : ContextId) (r : ProcResult) : (s.setOutcome c r).cfg = s.cfg := rfl
@[simp] theorem State.setOutcome_dev (s : State) (c : ContextId) (r : ProcResult) : (s.setOutcome c r).dev = s.dev := rfl
@[simp] theorem State.setOutcome_ready (s : State) (c : ContextId) (r : ProcResult) : (s.setOutcome c r).ready = s.ready := rfl
@[simp] theorem State.setOutcome_pinsOwned (s : State) (c : ContextId) (r : ProcResult) : (s.setOutcome c r).pinsOwned = s.pinsOwned := rfl
@[simp] theorem State.setOutcome_host (s : State) (c : ContextId) (r : ProcResult) : (s.setOutcome c r).host = s.host.setContext c { s.host.context c with outcome := some r } := rfl
@[simp] theorem State.setOutcome_program (s : State) (c : ContextId) (r : ProcResult) : (s.setOutcome c r).program = s.program := rfl
@[simp] theorem State.setOutcome_inputs (s : State) (c : ContextId) (r : ProcResult) : (s.setOutcome c r).inputs = s.inputs := rfl
@[simp] theorem State.setOutcome_result (s : State) (c : ContextId) (r : ProcResult) : (s.setOutcome c r).result = s.result := rfl
@[simp] theorem State.setOutcome_draws (s : State) (c : ContextId) (r : ProcResult) : (s.setOutcome c r).draws = s.draws := rfl

/-! ### `setSamples` -/

@[simp] theorem State.setSamples_cfg (s : State) (c : ContextId) (bits : List Bool) : (s.setSamples c bits).cfg = s.cfg := rfl
@[simp] theorem State.setSamples_dev (s : State) (c : ContextId) (bits : List Bool) : (s.setSamples c bits).dev = s.dev := rfl
@[simp] theorem State.setSamples_ready (s : State) (c : ContextId) (bits : List Bool) : (s.setSamples c bits).ready = s.ready := rfl
@[simp] theorem State.setSamples_pinsOwned (s : State) (c : ContextId) (bits : List Bool) : (s.setSamples c bits).pinsOwned = s.pinsOwned := rfl
@[simp] theorem State.setSamples_host (s : State) (c : ContextId) (bits : List Bool) : (s.setSamples c bits).host = s.host.setContext c { s.host.context c with samples := bits } := rfl
@[simp] theorem State.setSamples_program (s : State) (c : ContextId) (bits : List Bool) : (s.setSamples c bits).program = s.program := rfl
@[simp] theorem State.setSamples_inputs (s : State) (c : ContextId) (bits : List Bool) : (s.setSamples c bits).inputs = s.inputs := rfl
@[simp] theorem State.setSamples_result (s : State) (c : ContextId) (bits : List Bool) : (s.setSamples c bits).result = s.result := rfl
@[simp] theorem State.setSamples_draws (s : State) (c : ContextId) (bits : List Bool) : (s.setSamples c bits).draws = s.draws := rfl

/-! ### `push` -/

@[simp] theorem State.push_cfg (s : State) (c : ContextId) (ops : List HostOp) : (s.push c ops).cfg = s.cfg := rfl
@[simp] theorem State.push_dev (s : State) (c : ContextId) (ops : List HostOp) : (s.push c ops).dev = s.dev := rfl
@[simp] theorem State.push_ready (s : State) (c : ContextId) (ops : List HostOp) : (s.push c ops).ready = s.ready := rfl
@[simp] theorem State.push_pinsOwned (s : State) (c : ContextId) (ops : List HostOp) : (s.push c ops).pinsOwned = s.pinsOwned := rfl
@[simp] theorem State.push_host (s : State) (c : ContextId) (ops : List HostOp) : (s.push c ops).host = s.host.setContext c { s.host.context c with agenda := ops ++ s.agenda c } := rfl
@[simp] theorem State.push_program (s : State) (c : ContextId) (ops : List HostOp) : (s.push c ops).program = s.program := rfl
@[simp] theorem State.push_inputs (s : State) (c : ContextId) (ops : List HostOp) : (s.push c ops).inputs = s.inputs := rfl
@[simp] theorem State.push_result (s : State) (c : ContextId) (ops : List HostOp) : (s.push c ops).result = s.result := rfl
@[simp] theorem State.push_draws (s : State) (c : ContextId) (ops : List HostOp) : (s.push c ops).draws = s.draws := rfl

/-! ### `abort` -/

@[simp] theorem State.abort_cfg (s : State) (c : ContextId) (r : ProcResult) : (s.abort c r).cfg = s.cfg := rfl
@[simp] theorem State.abort_dev (s : State) (c : ContextId) (r : ProcResult) : (s.abort c r).dev = s.dev := rfl
@[simp] theorem State.abort_ready (s : State) (c : ContextId) (r : ProcResult) : (s.abort c r).ready = s.ready := rfl
@[simp] theorem State.abort_pinsOwned (s : State) (c : ContextId) (r : ProcResult) : (s.abort c r).pinsOwned = s.pinsOwned := rfl
@[simp] theorem State.abort_program (s : State) (c : ContextId) (r : ProcResult) : (s.abort c r).program = s.program := rfl
@[simp] theorem State.abort_inputs (s : State) (c : ContextId) (r : ProcResult) : (s.abort c r).inputs = s.inputs := rfl
@[simp] theorem State.abort_result (s : State) (c : ContextId) (r : ProcResult) : (s.abort c r).result = s.result := rfl
@[simp] theorem State.abort_draws (s : State) (c : ContextId) (r : ProcResult) : (s.abort c r).draws = s.draws := rfl

/-! ### Contexts -/

@[simp] theorem HostState.context_setContext (h : HostState) (c : ContextId) (x : Context) :
    (h.setContext c x).context c = x := by cases c <;> rfl

theorem HostState.context_setContext_ne (h : HostState) (c c' : ContextId) (x : Context) (hc : c' ≠ c) :
    (h.setContext c x).context c' = h.context c' := by
  cases c <;> cases c' <;> first | rfl | exact absurd rfl hc

@[simp] theorem HostState.setContext_main_irq (h : HostState) (x : Context) : (h.setContext .main x).irq = h.irq := rfl
@[simp] theorem HostState.setContext_main_main (h : HostState) (x : Context) : (h.setContext .main x).main = x := rfl
@[simp] theorem HostState.setContext_irq_main (h : HostState) (x : Context) : (h.setContext .irq x).main = h.main := rfl
@[simp] theorem HostState.setContext_irq_irq (h : HostState) (x : Context) : (h.setContext .irq x).irq = x := rfl

@[simp] theorem HostState.setContext_workaroundApplied (h : HostState) (c : ContextId) (x : Context) :
    (h.setContext c x).workaroundApplied = h.workaroundApplied := by cases c <;> rfl
@[simp] theorem HostState.setContext_resetPending (h : HostState) (c : ContextId) (x : Context) :
    (h.setContext c x).resetPending = h.resetPending := by cases c <;> rfl
@[simp] theorem HostState.setContext_arcResetObserved (h : HostState) (c : ContextId) (x : Context) :
    (h.setContext c x).arcResetObserved = h.arcResetObserved := by cases c <;> rfl
@[simp] theorem HostState.setContext_busCancel (h : HostState) (c : ContextId) (x : Context) :
    (h.setContext c x).busCancel = h.busCancel := by cases c <;> rfl
@[simp] theorem HostState.setContext_lock (h : HostState) (c : ContextId) (x : Context) :
    (h.setContext c x).lock = h.lock := by cases c <;> rfl
@[simp] theorem HostState.setContext_seq (h : HostState) (c : ContextId) (x : Context) :
    (h.setContext c x).seq = h.seq := by cases c <;> rfl
@[simp] theorem HostState.setContext_ranOnce (h : HostState) (c : ContextId) (x : Context) :
    (h.setContext c x).ranOnce = h.ranOnce := by cases c <;> rfl
@[simp] theorem HostState.setContext_triggerPending (h : HostState) (c : ContextId) (x : Context) :
    (h.setContext c x).triggerPending = h.triggerPending := by cases c <;> rfl
@[simp] theorem HostState.setContext_log (h : HostState) (c : ContextId) (x : Context) :
    (h.setContext c x).log = h.log := by cases c <;> rfl
@[simp] theorem HostState.setContext_registerMapOk (h : HostState) (c : ContextId) (x : Context) :
    (h.setContext c x).registerMapOk = h.registerMapOk := by cases c <;> rfl

@[simp] theorem State.agenda_setAgenda (s : State) (c : ContextId) (ops : List HostOp) :
    (s.setAgenda c ops).agenda c = ops := by cases c <;> rfl

@[simp] theorem State.agenda_push (s : State) (c : ContextId) (ops : List HostOp) :
    (s.push c ops).agenda c = ops ++ s.agenda c := by cases c <;> rfl

@[simp] theorem State.agenda_abort (s : State) (c : ContextId) (r : ProcResult) :
    (s.abort c r).agenda c = unwind (s.agenda c) := by cases c <;> rfl

@[simp] theorem State.agenda_returns (s : State) (c : ContextId) (r : Result) :
    (s.returns r).agenda c = s.agenda c := rfl

@[simp] theorem State.agenda_setOutcome (s : State) (c : ContextId) (r : ProcResult) :
    (s.setOutcome c r).agenda c = s.agenda c := by cases c <;> rfl

/-! ### Logical registers -/

@[simp] theorem Device.reg_setReg (d : Device) (r : RegName) (x : ShiftReg) : (d.setReg r x).reg r = x := by
  cases r <;> rfl

theorem Device.reg_setReg_ne (d : Device) (r r' : RegName) (x : ShiftReg) (h : r' ≠ r) :
    (d.setReg r x).reg r' = d.reg r' := by
  cases r <;> cases r' <;> first | rfl | exact absurd rfl h

@[simp] theorem Device.setReg_reg (d : Device) (r : RegName) : d.setReg r (d.reg r) = d := by cases r <;> rfl

@[simp] theorem Device.setReg_setReg (d : Device) (r : RegName) (x y : ShiftReg) :
    (d.setReg r x).setReg r y = d.setReg r y := by cases r <;> rfl

@[simp] theorem Device.setReg_tap (d : Device) (r : RegName) (x : ShiftReg) : (d.setReg r x).tap = d.tap := by
  cases r <;> rfl
@[simp] theorem Device.setReg_sel (d : Device) (r : RegName) (x : ShiftReg) : (d.setReg r x).sel = d.sel := by
  cases r <;> rfl
@[simp] theorem Device.setReg_phase (d : Device) (r : RegName) (x : ShiftReg) : (d.setReg r x).phase = d.phase := by
  cases r <;> rfl
@[simp] theorem Device.setReg_mem (d : Device) (r : RegName) (x : ShiftReg) : (d.setReg r x).mem = d.mem := by
  cases r <;> rfl
@[simp] theorem Device.setReg_tck (d : Device) (r : RegName) (x : ShiftReg) : (d.setReg r x).tck = d.tck := by
  cases r <;> rfl
@[simp] theorem Device.setReg_tms (d : Device) (r : RegName) (x : ShiftReg) : (d.setReg r x).tms = d.tms := by
  cases r <;> rfl
@[simp] theorem Device.setReg_tdi (d : Device) (r : RegName) (x : ShiftReg) : (d.setReg r x).tdi = d.tdi := by
  cases r <;> rfl

end Sys2Proof.Machine
end

