-- ==== Sys2Proof/Laws/Cycles.lean ====
section
/-! SUPPORT. TCK cycles: what one cycle and a sequence of cycles do to the whole state, said once. -/

namespace Sys2Proof.Machine

/-! ### The edge and the latched pins -/

/-- A device with its three pin latches replaced. -/
abbrev Device.latch (d : Device) (tck tms tdi : Bool) : Device :=
  { d with tck := tck, tms := tms, tdi := tdi }

theorem Device.reg_latch (d : Device) (k m b : Bool) (r : RegName) : (d.latch k m b).reg r = d.reg r := by
  cases r <;> rfl

theorem Device.setReg_latch (d : Device) (k m b : Bool) (r : RegName) (x : ShiftReg) :
    (d.latch k m b).setReg r x = (d.setReg r x).latch k m b := by
  cases r <;> rfl

theorem Device.update_latch (c : Config) (d : Device) (k m b : Bool) :
    (d.latch k m b).update c = (d.update c).latch k m b := by
  simp only [Device.update, Device.reg_latch, Device.setReg_latch]
  cases d.sel <;> simp only [irCommitHook, drCommitHook]

/-- An edge neither reads nor writes the pin latches: it is given the levels it samples. -/
theorem edge_latch (c : Config) (d : Device) (k m b m' b' : Bool) :
    edge c (d.latch k m b) m' b' = (edge c d m' b').latch k m b := by
  have hu := Device.update_latch c d k m b
  cases ht : d.tap <;> cases m' <;>
    simp [edge, act, ht, Device.capture, Device.shift, Device.reg_latch, Device.setReg_latch, scanDrTarget, hu]

/-- The first pin write of a TCK cycle with TCK high. -/
theorem pinTck_true (c : Config) (d : Device) : d.pinTck c true = { d with tck := true } := by
  simp [Device.pinTck]

/-- The falling edge of a TCK cycle. -/
theorem pinTck_false_of_high (c : Config) (d : Device) (h : d.tck = true) :
    d.pinTck c false = { edge c d d.tms d.tdi with tck := false } := by
  simp [Device.pinTck, h]

theorem pinTck_false_of_low (c : Config) (d : Device) (h : d.tck = false) :
    d.pinTck c false = { d with tck := false } := by
  simp [Device.pinTck, h]

/-! ### One cycle -/

/-- One TCK cycle is one falling edge with the cycle's levels and one TDO sample (R176). -/
theorem clockCycle_eq (m b : Bool) (s : State) :
    clockCycle m b s = (Config.drawBit s.draws,
      { s with dev := (edge s.cfg s.dev m b).latch false m b, draws := s.draws + 1 }) := by
  simp only [clockCycle, Device.pinTms, Device.pinTdi, State.setDev, State.drawBit, State.advanceDraws, pinTck_true]
  rw [pinTck_false_of_high _ _ rfl]
  have := edge_latch s.cfg s.dev true m b m b
  simp only [Device.latch] at this
  rw [this]

/-! ### A sequence of cycles -/

/-- The TDO samples of `n` cycles. -/
def samplesFrom (draws n : Nat) : List Bool :=
  (List.range n).map fun i => Config.drawBit (draws + i)

@[simp] theorem samplesFrom_length (draws n : Nat) : (samplesFrom draws n).length = n := by simp [samplesFrom]

theorem samplesFrom_succ (draws n : Nat) :
    samplesFrom draws (n + 1) = Config.drawBit draws :: samplesFrom (draws + 1) n := by
  simp only [samplesFrom, List.range_succ_eq_map, List.map_cons, List.map_map, Nat.add_zero, List.cons.injEq, true_and]
  apply List.map_congr_left
  intro i _
  simp only [Function.comp]
  congr 1
  omega

/-- Everything a sequence of cycles does (R176, R177). -/
theorem runCycles_eq (cs : List (Bool × Bool)) (s : State) :
    runCycles cs s = (samplesFrom s.draws cs.length,
      { s with dev := cycleDevice s.cfg cs s.dev, draws := s.draws + cs.length }) := by
  induction cs generalizing s with
  | nil => rfl
  | cons c cs ih =>
    obtain ⟨m, b⟩ := c
    simp only [runCycles, clockCycle_eq, ih, List.length_cons, samplesFrom_succ, cycleDevice, Device.latch]
    congr 2
    omega

theorem edges_latch (c : Config) (cs : List (Bool × Bool)) (d : Device) (k m b : Bool) :
    edges c cs (d.latch k m b) = (edges c cs d).latch k m b := by
  induction cs generalizing d with
  | nil => rfl
  | cons x cs ih =>
    obtain ⟨m', b'⟩ := x
    rw [edges, edge_latch, ih, edges]

/-- Cycles differ from bare edges only in the pin latches. -/
theorem cycleDevice_eq (c : Config) (cs : List (Bool × Bool)) (d : Device) :
    ∃ k m b, cycleDevice c cs d = (edges c cs d).latch k m b := by
  induction cs generalizing d with
  | nil => exact ⟨d.tck, d.tms, d.tdi, rfl⟩
  | cons x cs ih =>
    obtain ⟨m, b⟩ := x
    obtain ⟨k', m', b', h⟩ := ih ((edge c d m b).latch false m b)
    refine ⟨k', m', b', ?_⟩
    rw [cycleDevice]
    rw [show ({ edge c d m b with tck := false, tms := m, tdi := b } : Device) = (edge c d m b).latch false m b from rfl, h, edges]
    rw [edges_latch]

/-- The latches after a sequence of cycles are those of the last one (R176). -/
theorem cycleDevice_append_last (c : Config) (cs : List (Bool × Bool)) (m b : Bool) (d : Device) :
    cycleDevice c (cs ++ [(m, b)]) d = (edges c (cs ++ [(m, b)]) d).latch false m b := by
  induction cs generalizing d with
  | nil => rfl
  | cons x cs ih =>
    obtain ⟨m', b'⟩ := x
    have h := ih ((edge c d m' b').latch false m' b')
    rw [edges_latch] at h
    exact h

theorem edges_append (c : Config) (xs ys : List (Bool × Bool)) (d : Device) :
    edges c (xs ++ ys) d = edges c ys (edges c xs d) := by
  induction xs generalizing d with
  | nil => rfl
  | cons x xs ih => obtain ⟨m, b⟩ := x; exact ih _

/-! ### Operations -/

/-- An operation that cannot fail part-way makes all its cycles. -/
theorem runOperation_whole (cs : List (Bool × Bool)) (finish : List Bool → Result) (s : State)
    (h : mayFailMidway s.cfg = false) :
    runOperation cs finish s =
      { s with
        dev := cycleDevice s.cfg cs s.dev
        draws := s.draws + cs.length
        result := some (finish (samplesFrom s.draws cs.length)) } := by
  simp [runOperation, h, runCycles_eq, State.returns]

/-- Everything an operation can do: some first `k` of its cycles, all of them unless it returns `TransportError`. -/
theorem runOperation_cases (cs : List (Bool × Bool)) (finish : List Bool → Result) (s : State) :
    ∃ k r n, runOperation cs finish s = { s with dev := cycleDevice s.cfg (cs.take k) s.dev, draws := n, result := some r } ∧
      s.draws ≤ n ∧ (k < cs.length ∧ r = .transportError ∧ mayFailMidway s.cfg = true ∨
        k = cs.length ∧ ∃ o, o.length = cs.length ∧ r = finish o) := by
  by_cases h : mayFailMidway s.cfg = true
  · by_cases hk : Config.drawNat s.draws < cs.length
    · refine ⟨Config.drawNat s.draws, .transportError, s.draws + 1 + (cs.take (Config.drawNat s.draws)).length, ?_, by omega,
        Or.inl ⟨hk, rfl, h⟩⟩
      simp [runOperation, h, hk, runCycles_eq, State.returns, State.advanceDraws]
    · refine ⟨cs.length, _, s.draws + 1 + cs.length, ?_, by omega, Or.inr ⟨rfl, samplesFrom (s.draws + 1) cs.length, by simp, rfl⟩⟩
      simp [runOperation, h, hk, runCycles_eq, State.returns, State.advanceDraws]
  · refine ⟨cs.length, _, s.draws + cs.length, ?_, by omega, Or.inr ⟨rfl, samplesFrom s.draws cs.length, by simp, rfl⟩⟩
    rw [runOperation_whole _ _ _ (by simpa using h)]
    simp

/-- A transport call that cannot fail part-way makes all its cycles (R178, R197). -/
theorem runCall_whole (call : TransportCall) (s : State) (h : mayFailMidway s.cfg = false) :
    runCall call s =
      { s with
        dev := cycleDevice s.cfg (callCycles s.cfg call) s.dev
        draws := s.draws + (callCycles s.cfg call).length
        result := some (callResult call (samplesFrom s.draws (callCycles s.cfg call).length)) } :=
  runOperation_whole _ _ _ h

/-- Everything an admission check lets happen. -/
theorem admitted_cases (p : Bool) (s : State) (body : State → State) :
    (s.ready = false ∧ admitted p s body = .next (s.returns .transportError)) ∨
      (s.ready = true ∧ p = true ∧ s.pinsOwned = false ∧ admitted p s body = .refused .pinsReleased) ∨
      (s.ready = true ∧ (p = true → s.pinsOwned = true) ∧ admitted p s body = .next (body s)) := by
  cases hr : s.ready <;> cases hp : s.pinsOwned <;> cases p <;> simp [admitted, checkCall, hr, hp]

/-- Everything a zero-length scan can do (R179). -/
theorem zeroLengthScan_cases (s : State) (r : Result) :
    (s.ready = true ∧ zeroLengthScan s r = s.returns r) ∨
      (s.ready = false ∧ (zeroLengthScan s r = (s.advanceDraws 1).returns r ∨
        zeroLengthScan s r = (s.advanceDraws 1).returns .transportError)) := by
  cases hr : s.ready
  · cases hd : Config.drawBit s.draws <;> simp [zeroLengthScan, hr, hd]
  · simp [zeroLengthScan, hr]

/-- Everything a direct read can do (R166). -/
theorem memRead_cases (s : State) (a : Word) :
    (wordIndex a < s.dev.mem.words ∧ s.memRead a = (s.dev.mem.readWord (wordIndex a), s)) ∨
      (¬ wordIndex a < s.dev.mem.words ∧ ∃ w, s.memRead a = (w, s.advanceDraws 1)) := by
  by_cases h : wordIndex a < s.dev.mem.words
  · exact Or.inl ⟨h, by simp [State.memRead, h]⟩
  · exact Or.inr ⟨h, Config.drawWord s.draws, by simp [State.memRead, h]⟩

end Sys2Proof.Machine
end

