-- ==== Sys2Proof/Laws/Memory.lean ====
section
/-! SUPPORT. The memory: every operation keeps the canonical form, a read after a write, and that equal memories are equal
data. -/

namespace Sys2Proof.Machine

/-! ### Cells -/

theorem cellsWf_cons {lo hi k : Nat} {v : Byte} {rest : List Host.Cell} :
    cellsWf lo hi ((k, v) :: rest) = true ↔
      lo ≤ k ∧ k < hi ∧ v ≠ unlistedByte ∧ cellsWf (k + 1) hi rest = true := by
  simp [cellsWf, and_assoc]

theorem cellsWf_weaken {lo lo' hi : Nat} {cells : List Host.Cell} (h : cellsWf lo hi cells = true) (hl : lo' ≤ lo) :
    cellsWf lo' hi cells = true := by
  cases cells with
  | nil => rfl
  | cons c rest =>
    obtain ⟨k, v⟩ := c
    rw [cellsWf_cons] at h ⊢
    exact ⟨by omega, h.2⟩

theorem lookupCell_below {lo hi a : Nat} {cells : List Host.Cell} (h : cellsWf lo hi cells = true) (ha : a < lo) :
    lookupCell cells a = unlistedByte := by
  induction cells generalizing lo with
  | nil => rfl
  | cons c rest ih =>
    obtain ⟨k, v⟩ := c
    rw [cellsWf_cons] at h
    rw [lookupCell, if_neg (by omega)]
    exact ih h.2.2.2 (by omega)

theorem lookupCell_above {lo hi a : Nat} {cells : List Host.Cell} (h : cellsWf lo hi cells = true) (ha : hi ≤ a) :
    lookupCell cells a = unlistedByte := by
  induction cells generalizing lo with
  | nil => rfl
  | cons c rest ih =>
    obtain ⟨k, v⟩ := c
    rw [cellsWf_cons] at h
    rw [lookupCell, if_neg (by omega)]
    exact ih h.2.2.2

theorem lookupCell_consCell (a b : Nat) (v : Byte) (cells : List Host.Cell) :
    lookupCell (consCell a v cells) b = if b = a ∧ v ≠ unlistedByte then v else lookupCell cells b := by
  unfold consCell
  by_cases hv : v = unlistedByte
  · simp [hv]
  · by_cases hb : b = a
    · subst hb; simp [hv, lookupCell]
    · simp [hv, hb, lookupCell, Ne.symm hb]

theorem consCell_wf {lo hi a : Nat} {v : Byte} {cells : List Host.Cell} (hl : lo ≤ a) (hh : a < hi)
    (h : cellsWf (a + 1) hi cells = true) : cellsWf lo hi (consCell a v cells) = true := by
  unfold consCell
  split
  · exact cellsWf_weaken h (by omega)
  · exact cellsWf_cons.2 ⟨hl, hh, ‹_›, h⟩

theorem setCell_wf {lo hi a : Nat} {v : Byte} {cells : List Host.Cell} (h : cellsWf lo hi cells = true) (hl : lo ≤ a)
    (hh : a < hi) : cellsWf lo hi (setCell cells a v) = true := by
  induction cells generalizing lo with
  | nil => exact consCell_wf hl hh rfl
  | cons c rest ih =>
    obtain ⟨k, w⟩ := c
    have h' := cellsWf_cons.1 h
    rw [setCell]
    split
    · exact consCell_wf hl hh (cellsWf_cons.2 ⟨by omega, h'.2⟩)
    · split
      · subst a; exact consCell_wf hl hh h'.2.2.2
      · exact cellsWf_cons.2 ⟨h'.1, h'.2.1, h'.2.2.1, ih h'.2.2.2 (by omega)⟩

theorem lookupCell_setCell_ne {a b : Nat} (v : Byte) (cells : List Host.Cell) (hb : b ≠ a) :
    lookupCell (setCell cells a v) b = lookupCell cells b := by
  induction cells with
  | nil => simp [setCell, lookupCell_consCell, hb]
  | cons c rest ih =>
    obtain ⟨k, w⟩ := c
    rw [setCell]
    split
    · simp [lookupCell_consCell, hb]
    · split
      · subst a; simp [lookupCell_consCell, hb, lookupCell, Ne.symm hb]
      · simp [lookupCell, ih]

theorem lookupCell_setCell_same {lo hi a : Nat} (v : Byte) {cells : List Host.Cell} (h : cellsWf lo hi cells = true) :
    lookupCell (setCell cells a v) a = v := by
  induction cells generalizing lo with
  | nil =>
    by_cases hv : v = unlistedByte <;> simp [setCell, lookupCell_consCell, lookupCell, hv]
  | cons c rest ih =>
    obtain ⟨k, w⟩ := c
    have h' := cellsWf_cons.1 h
    rw [setCell]
    split
    · by_cases hv : v = unlistedByte
      · rw [lookupCell_consCell, if_neg (by simp [hv]), hv]
        exact lookupCell_below (cellsWf_cons.2 ⟨Nat.le_refl k, h'.2⟩) ‹_›
      · simp [lookupCell_consCell, hv]
    · split
      · by_cases hv : v = unlistedByte
        · rw [lookupCell_consCell, if_neg (by simp [hv]), hv]
          exact lookupCell_below h'.2.2.2 (by omega)
        · simp [lookupCell_consCell, hv]
      · rw [lookupCell, if_neg (by omega)]
        exact ih h'.2.2.2

/-- Canonical cells with the same bytes are the same list. -/
theorem cells_ext {lo hi : Nat} {xs ys : List Host.Cell} (hx : cellsWf lo hi xs = true) (hy : cellsWf lo hi ys = true)
    (h : ∀ a, lookupCell xs a = lookupCell ys a) : xs = ys := by
  induction xs generalizing lo ys with
  | nil =>
    cases ys with
    | nil => rfl
    | cons c rest =>
      obtain ⟨k, v⟩ := c
      have h' := cellsWf_cons.1 hy
      exact absurd (by simpa [lookupCell] using (h k).symm) h'.2.2.1
  | cons c rest ih =>
    obtain ⟨k, v⟩ := c
    have hx' := cellsWf_cons.1 hx
    cases ys with
    | nil => exact absurd (by simpa [lookupCell] using h k) hx'.2.2.1
    | cons c' rest' =>
      obtain ⟨k', v'⟩ := c'
      have hy' := cellsWf_cons.1 hy
      have hk : k = k' := by
        rcases Nat.lt_trichotomy k k' with hlt | heq | hgt
        · have := h k
          rw [lookupCell, if_pos rfl, lookupCell_below (cellsWf_cons.2 ⟨Nat.le_refl k', hy'.2⟩) hlt] at this
          exact absurd this hx'.2.2.1
        · exact heq
        · have := h k'
          rw [lookupCell_below (cellsWf_cons.2 ⟨Nat.le_refl k, hx'.2⟩) hgt, lookupCell, if_pos rfl] at this
          exact absurd this.symm hy'.2.2.1
      subst hk
      have hv : v = v' := by simpa [lookupCell] using h k
      subst hv
      congr 1
      refine ih hx'.2.2.2 hy'.2.2.2 fun a => ?_
      by_cases ha : a = k
      · subst ha
        rw [lookupCell_below hx'.2.2.2 (by omega), lookupCell_below hy'.2.2.2 (by omega)]
      · simpa [lookupCell, Ne.symm ha] using h a

/-! ### Words -/

theorem setWordCells_wf {hi a : Nat} {v : Word} {cells : List Host.Cell} (h : cellsWf 0 hi cells = true) (ha : a + 3 < hi) :
    cellsWf 0 hi (setWordCells cells a v) = true :=
  setCell_wf (setCell_wf (setCell_wf (setCell_wf h (by omega) (by omega)) (by omega) (by omega)) (by omega) (by omega))
    (by omega) ha

theorem lookupCell_setWordCells_ne {a b : Nat} (v : Word) (cells : List Host.Cell) (hb : b < a ∨ a + 4 ≤ b) :
    lookupCell (setWordCells cells a v) b = lookupCell cells b := by
  simp only [setWordCells]
  rw [lookupCell_setCell_ne _ _ (by omega), lookupCell_setCell_ne _ _ (by omega), lookupCell_setCell_ne _ _ (by omega),
    lookupCell_setCell_ne _ _ (by omega)]

theorem wordOfBytes_lanes (v : Word) :
    wordOfBytes (v.extractLsb' 0 8) (v.extractLsb' 8 8) (v.extractLsb' 16 8) (v.extractLsb' 24 8) = v := by
  unfold wordOfBytes
  ext i hi
  simp only [BitVec.getElem_append, BitVec.getElem_extractLsb']
  split
  · simp [BitVec.getLsbD_eq_getElem hi]
  · split
    · rw [← BitVec.getLsbD_eq_getElem]; congr 1; omega
    · split
      · rw [← BitVec.getLsbD_eq_getElem]; congr 1; omega
      · rw [← BitVec.getLsbD_eq_getElem]; congr 1; omega

theorem wordBytes_wordOfBytes (b0 b1 b2 b3 : Byte) : wordBytes (wordOfBytes b0 b1 b2 b3) = [b0, b1, b2, b3] := by
  simp only [wordBytes, wordOfBytes, List.cons.injEq, and_true]
  refine ⟨?_, ?_, ?_, ?_⟩ <;> ext i hi <;>
    simp only [BitVec.getElem_extractLsb', BitVec.getLsbD_append] <;> grind

/-! ### The bounded word write (R162) -/

theorem wordIndex_eq (a : Word) : wordIndex a = a.toNat / 4 := by
  simp [wordIndex, Nat.shiftRight_eq_div_pow]

@[simp] theorem memWrite_words (m : Memory) (a v : Word) : (memWrite m a v).words = m.words := by
  unfold memWrite; split <;> rfl

theorem memWrite_out (m : Memory) (a v : Word) (h : ¬ wordIndex a < m.words) : memWrite m a v = m := if_neg h

theorem memWrite_wf {m : Memory} (a v : Word) (h : m.wf = true) : (memWrite m a v).wf = true := by
  unfold memWrite
  split
  · exact setWordCells_wf h (by simp; omega)
  · exact h

/-- A byte outside the stored word is unchanged. -/
theorem readByte_memWrite_ne (m : Memory) (a v : Word) (b : Nat)
    (hb : b < 4 * wordIndex a ∨ 4 * wordIndex a + 4 ≤ b) : (memWrite m a v).readByte b = m.readByte b := by
  unfold memWrite
  split
  · exact lookupCell_setWordCells_ne v m.cells hb
  · rfl

/-- The word written reads back. -/
theorem readWord_memWrite_same {m : Memory} (a v : Word) (hw : m.wf = true) (h : wordIndex a < m.words) :
    (memWrite m a v).readWord (wordIndex a) = v := by
  have h0 := setCell_wf (v := v.extractLsb' 0 8) hw (Nat.zero_le (4 * wordIndex a)) (by omega)
  have h1 := setCell_wf (v := v.extractLsb' 8 8) h0 (Nat.zero_le (4 * wordIndex a + 1)) (by omega)
  have h2 := setCell_wf (v := v.extractLsb' 16 8) h1 (Nat.zero_le (4 * wordIndex a + 2)) (by omega)
  rw [← wordOfBytes_lanes v]
  simp only [memWrite, if_pos h, Memory.readWord, Memory.readByte, setWordCells]
  congr 1
  · rw [lookupCell_setCell_ne _ _ (by omega), lookupCell_setCell_ne _ _ (by omega), lookupCell_setCell_ne _ _ (by omega),
      lookupCell_setCell_same _ hw, wordOfBytes_lanes]
  · rw [lookupCell_setCell_ne _ _ (by omega), lookupCell_setCell_ne _ _ (by omega), wordOfBytes_lanes, lookupCell_setCell_same _ h0]
  · rw [lookupCell_setCell_ne _ _ (by omega), wordOfBytes_lanes, lookupCell_setCell_same _ h1]
  · rw [wordOfBytes_lanes, lookupCell_setCell_same _ h2]

/-- Every other word is unchanged. -/
theorem readWord_memWrite_ne (m : Memory) (a v : Word) (i : Nat) (hi : i ≠ wordIndex a) :
    (memWrite m a v).readWord i = m.readWord i := by
  unfold Memory.readWord
  rw [readByte_memWrite_ne _ _ _ _ (by omega), readByte_memWrite_ne _ _ _ _ (by omega),
    readByte_memWrite_ne _ _ _ _ (by omega), readByte_memWrite_ne _ _ _ _ (by omega)]

/-! ### Attaching an array (R169) -/

theorem cellsOfWords_wf (a hi : Nat) (ws : List Word) (h : a + 4 * ws.length ≤ hi) :
    cellsWf a hi (cellsOfWords a ws) = true := by
  induction ws generalizing a with
  | nil => rfl
  | cons w ws ih =>
    simp only [List.length_cons] at h
    exact consCell_wf (by omega) (by omega) (consCell_wf (by omega) (by omega) (consCell_wf (by omega) (by omega)
      (consCell_wf (by omega) (by omega) (ih (a + 4) (by omega)))))

theorem attachWords_wf (ws : List Word) : (attachWords ws).wf = true :=
  cellsOfWords_wf 0 _ ws (by simp [attachWords])

@[simp] theorem attachWords_words (ws : List Word) : (attachWords ws).words = ws.length := rfl

theorem lookupCell_cellsOfWords_below (a b : Nat) (ws : List Word) (h : b < a) :
    lookupCell (cellsOfWords a ws) b = unlistedByte :=
  lookupCell_below (cellsOfWords_wf a (a + 4 * ws.length) ws (by omega)) h

theorem readWord_attachWords (ws : List Word) (k : Nat) (hk : k < ws.length) : (attachWords ws).readWord k = ws[k] := by
  have aux : ∀ (ws : List Word) (a k : Nat) (hk : k < ws.length),
      wordOfBytes (lookupCell (cellsOfWords a ws) (a + 4 * k)) (lookupCell (cellsOfWords a ws) (a + 4 * k + 1))
        (lookupCell (cellsOfWords a ws) (a + 4 * k + 2)) (lookupCell (cellsOfWords a ws) (a + 4 * k + 3)) = ws[k] := by
    intro ws
    induction ws with
    | nil => intro a k hk; simp at hk
    | cons w ws ih =>
      intro a k hk
      have hz : ∀ v : Byte, (if v ≠ unlistedByte then v else unlistedByte) = v := by
        intro v; split <;> simp_all
      cases k with
      | zero =>
        have hb : ∀ j, j < 4 → lookupCell (cellsOfWords (a + 4) ws) (a + j) = unlistedByte := fun j hj =>
          lookupCell_cellsOfWords_below _ _ _ (by omega)
        have h0 := hb 0 (by omega)
        have h1 := hb 1 (by omega)
        have h2 := hb 2 (by omega)
        have h3 := hb 3 (by omega)
        simp only [Nat.add_zero] at h0
        simp [cellsOfWords, lookupCell_consCell, h0, h1, h2, h3, wordOfBytes_lanes, hz]
      | succ k =>
        have := ih (a + 4) k (by simpa using hk)
        rw [List.getElem_cons_succ, ← this]
        have hs : ∀ j, lookupCell (cellsOfWords a (w :: ws)) (a + 4 * (k + 1) + j) =
            lookupCell (cellsOfWords (a + 4) ws) (a + 4 + 4 * k + j) := by
          intro j
          simp only [cellsOfWords, lookupCell_consCell]
          rw [if_neg (by omega), if_neg (by omega), if_neg (by omega), if_neg (by omega)]
          congr 1; omega
        have h0 := hs 0
        simp only [Nat.add_zero] at h0
        rw [h0, hs 1, hs 2, hs 3]
  have := aux ws 0 k hk
  simpa [Memory.readWord, Memory.readByte, attachWords] using this

/-- Memories of one length with the same bytes are equal data (log 5). -/
theorem memory_ext {m m' : Memory} (h : m.wf = true) (h' : m'.wf = true) (hw : m.words = m'.words)
    (hb : ∀ a, m.readByte a = m'.readByte a) : m = m' := by
  cases m with
  | mk words cells =>
    cases m' with
    | mk words' cells' =>
      simp only at hw
      subst hw
      exact congrArg (Memory.mk words) (cells_ext h h' hb)

/-- The bytes of one word are equal when the words are. -/
theorem readByte_of_readWord {m m' : Memory} {i : Nat} (h : m.readWord i = m'.readWord i) (a : Nat) (ha : a / 4 = i) :
    m.readByte a = m'.readByte a := by
  have := congrArg wordBytes h
  simp only [Memory.readWord, wordBytes_wordOfBytes, List.cons.injEq, and_true] at this
  obtain ⟨h0, h1, h2, h3⟩ := this
  have : a = 4 * i ∨ a = 4 * i + 1 ∨ a = 4 * i + 2 ∨ a = 4 * i + 3 := by omega
  rcases this with rfl | rfl | rfl | rfl <;> assumption

/-- Memories of one length with the same words are equal data (log 5). -/
theorem memory_ext_words {m m' : Memory} (h : m.wf = true) (h' : m'.wf = true) (hw : m.words = m'.words)
    (hb : ∀ i, i < m.words → m.readWord i = m'.readWord i) : m = m' := by
  refine memory_ext h h' hw fun a => ?_
  by_cases ha : a / 4 < m.words
  · exact readByte_of_readWord (hb _ ha) a rfl
  · rw [Memory.readByte, Memory.readByte, lookupCell_above h (by omega), lookupCell_above h' (by omega)]

/-- A word read after a word write (R78). -/
theorem readWord_memWrite {m : Memory} (a v : Word) (i : Nat) (hw : m.wf = true) :
    (memWrite m a v).readWord i = if i = wordIndex a ∧ i < m.words then v else m.readWord i := by
  by_cases hi : i = wordIndex a
  · subst hi
    by_cases h : wordIndex a < m.words
    · rw [readWord_memWrite_same a v hw h, if_pos ⟨rfl, h⟩]
    · rw [memWrite_out m a v h, if_neg (fun h' => h h'.2)]
  · rw [readWord_memWrite_ne m a v i hi, if_neg (fun h' => hi h'.1)]

end Sys2Proof.Machine
end

