-- ==== Sys2Proof/Laws/Encoding.lean ====
section
/-! SUPPORT. Event records: each operand form read back from the bytes it is written as, and bit strings as numbers. -/

namespace Sys2Proof

/-! ### Bit strings as numbers (R92) -/

theorem testBit_scanValue (bits : List Bool) (i : Nat) : (scanValue bits).testBit i = bits.getD i false := by
  induction bits generalizing i with
  | nil => simp [scanValue]
  | cons b bs ih =>
    rw [scanValue]
    cases i with
    | zero => cases b <;> simp [Nat.testBit_zero, Nat.add_mod]
    | succ i =>
      rw [Nat.testBit_succ]
      have : (b.toNat + 2 * scanValue bs) / 2 = scanValue bs := by cases b <;> simp; omega
      rw [this, ih]
      rfl

theorem scanValue_lt (bits : List Bool) : scanValue bits < 2 ^ bits.length := by
  induction bits with
  | nil => simp [scanValue]
  | cons b bs ih =>
    rw [scanValue, List.length_cons, Nat.pow_succ]
    cases b <;> simp <;> omega

theorem scanValue_append (xs ys : List Bool) : scanValue (xs ++ ys) = scanValue xs + 2 ^ xs.length * scanValue ys := by
  induction xs with
  | nil => simp [scanValue]
  | cons b bs ih =>
    simp only [List.cons_append, scanValue, ih, List.length_cons, Nat.pow_succ]
    ring

@[simp] theorem length_bitsOf (n v : Nat) : (bitsOf n v).length = n := by simp [bitsOf]

theorem getD_bitsOf (n v i : Nat) : (bitsOf n v).getD i false = (decide (i < n) && v.testBit i) := by
  by_cases h : i < n <;> simp [bitsOf, h, List.getD_eq_getElem?_getD]

/-- The value of the scan operand made of `n, v` is `v` on its `n` low bits. -/
theorem scanValue_bitsOf (n v : Nat) : scanValue (bitsOf n v) = v % 2 ^ n := by
  apply Nat.eq_of_testBit_eq
  intro i
  rw [testBit_scanValue, getD_bitsOf, Nat.testBit_mod_two_pow]

theorem bitsOf_scanValue (bits : List Bool) : bitsOf bits.length (scanValue bits) = bits := by
  apply List.ext_getElem (by simp)
  intro i h1 h2
  simp [bitsOf, testBit_scanValue, List.getD_eq_getElem?_getD, h2]

/-! ### Payloads (R66, R92, R93) -/

@[simp] theorem length_packBytes (k : Nat) (bits : List Bool) : (packBytes k bits).length = k := by
  induction k generalizing bits with
  | zero => rfl
  | succ k ih => simp [packBytes, ih]

@[simp] theorem length_packBits (bits : List Bool) : (packBits bits).length = payloadLength bits.length := by
  simp [packBits]

theorem byteBits_take (bits : List Bool) :
    (byteBits (BitVec.ofNat 8 (scanValue (bits.take 8)))).take bits.length = bits.take 8 := by
  have hl : (bits.take 8).length ≤ 8 := by simp
  have hv : scanValue (bits.take 8) < 2 ^ 8 :=
    Nat.lt_of_lt_of_le (scanValue_lt _) (Nat.pow_le_pow_right (by decide) hl)
  apply List.ext_getElem (by simp [byteBits]; omega)
  intro i h1 h2
  have hi : i < bits.length := by simp at h2; omega
  have h8 : i < 8 := by simp at h2; omega
  simp only [byteBits, bitsOf, List.getElem_take, List.getElem_map, List.getElem_range, BitVec.toNat_ofNat]
  rw [Nat.mod_eq_of_lt hv, testBit_scanValue]
  simp [List.getD_eq_getElem?_getD, h8, hi]

theorem unpackBits_packBytes (k : Nat) (bits : List Bool) (h : bits.length ≤ 8 * k) :
    unpackBits bits.length (packBytes k bits) = bits := by
  induction k generalizing bits with
  | zero =>
    have : bits = [] := List.length_eq_zero_iff.1 (by omega)
    subst this
    rfl
  | succ k ih =>
    rw [packBytes, unpackBits, byteBits_take]
    have := ih (bits.drop 8) (by simp; omega)
    rw [List.length_drop] at this
    rw [this, List.take_append_drop]

/-- A packed bit string unpacks to itself. -/
theorem unpackBits_packBits (bits : List Bool) : unpackBits bits.length (packBits bits) = bits :=
  unpackBits_packBytes _ _ (by simp only [payloadLength]; omega)

/-! ### Words (R86, R94) -/

@[simp] theorem length_wordBytes (w : Word) : (wordBytes w).length = 4 := rfl

theorem takeWord_wordBytes (w : Word) (rest : List Byte) : takeWord (wordBytes w ++ rest) = some (w, rest) := by
  simp only [wordBytes, List.cons_append, List.nil_append, takeWord, Machine.wordOfBytes_lanes]

theorem takeWord_cases (bs : List Byte) :
    (bs.length < 4 ∧ takeWord bs = none) ∨ (∃ w rest, bs = wordBytes w ++ rest ∧ takeWord bs = some (w, rest)) := by
  match bs with
  | [] => exact Or.inl ⟨by simp, rfl⟩
  | [_] => exact Or.inl ⟨by simp, rfl⟩
  | [_, _] => exact Or.inl ⟨by simp, rfl⟩
  | [_, _, _] => exact Or.inl ⟨by simp, rfl⟩
  | b0 :: b1 :: b2 :: b3 :: rest =>
    refine Or.inr ⟨wordOfBytes b0 b1 b2 b3, rest, ?_, rfl⟩
    rw [Machine.wordBytes_wordOfBytes]
    rfl

theorem takeWord_short (bs : List Byte) (h : bs.length < 4) : takeWord bs = none := by
  rcases takeWord_cases bs with h' | ⟨w, rest, h', -⟩
  · exact h'.2
  · rw [h'] at h
    simp at h

theorem length_flatMap_wordBytes (ws : List Word) : (ws.flatMap wordBytes).length = 4 * ws.length := by
  induction ws with
  | nil => rfl
  | cons w ws ih => simp [List.flatMap_cons, ih]; omega

theorem takeWords_flatMap (ws : List Word) (rest : List Byte) :
    takeWords ws.length (ws.flatMap wordBytes ++ rest) = some (ws, rest) := by
  induction ws with
  | nil => rfl
  | cons w ws ih => simp [takeWords, List.flatMap_cons, takeWord_wordBytes, ih]

theorem toNat_count {α : Type} {xs : List α} (h : countFits xs = true) : (BitVec.ofNat 32 xs.length).toNat = xs.length := by
  have : xs.length < 2 ^ 32 := by simpa [countFits] using h
  rw [BitVec.toNat_ofNat, Nat.mod_eq_of_lt this]

/-! ### Records (R87) -/

theorem decodeScan_record (make : List Bool → TransportCall) (bits : List Bool) (rest : List Byte)
    (h : countFits bits = true) :
    decodeScan make (wordBytes (BitVec.ofNat 32 bits.length) ++ packBits bits ++ rest) = .ok (make bits) rest := by
  unfold decodeScan
  rw [List.append_assoc, takeWord_wordBytes]
  simp only [toNat_count h]
  have hl : payloadLength bits.length = (packBits bits).length := by simp
  rw [if_neg (by rw [List.length_append]; omega), hl, List.take_left, List.drop_left, unpackBits_packBits]

theorem decodeWordOperand_record {α : Type} (make : Word → α) (w : Word) (rest : List Byte) :
    decodeWordOperand make (wordBytes w ++ rest) = .ok (make w) rest := by
  simp [decodeWordOperand, takeWord_wordBytes]

theorem decodeAttach_record (ws : List Word) (rest : List Byte) (h : countFits ws = true) :
    decodeAttach (wordBytes (BitVec.ofNat 32 ws.length) ++ ws.flatMap wordBytes ++ rest) = .ok (.emuAttach ws) rest := by
  unfold decodeAttach
  rw [List.append_assoc, takeWord_wordBytes]
  simp only [toNat_count h]
  rw [if_neg (by rw [List.length_append, length_flatMap_wordBytes]; omega), takeWords_flatMap]

/-- A scan record cut short is truncated (R98). -/
theorem decodeScan_cut (make : List Bool → TransportCall) (bits : List Bool) (k : Nat) (h : countFits bits = true)
    (hk : k < 4 + payloadLength bits.length) :
    decodeScan make ((wordBytes (BitVec.ofNat 32 bits.length) ++ packBits bits).take k) = .truncated := by
  unfold decodeScan
  by_cases h4 : k < 4
  · rw [takeWord_short _ (by simp; omega)]
  · rw [List.take_append, List.take_of_length_le (by simp; omega), takeWord_wordBytes]
    simp only [toNat_count h]
    rw [if_pos (by simp; omega)]

theorem decodeWordOperand_cut {α : Type} (make : Word → α) (w : Word) (k : Nat) (hk : k < 4) :
    decodeWordOperand make ((wordBytes w).take k) = .truncated := by
  unfold decodeWordOperand
  rw [takeWord_short _ (by simp; omega)]

theorem decodeAttach_cut (ws : List Word) (k : Nat) (h : countFits ws = true) (hk : k < 4 + 4 * ws.length) :
    decodeAttach ((wordBytes (BitVec.ofNat 32 ws.length) ++ ws.flatMap wordBytes).take k) = .truncated := by
  unfold decodeAttach
  by_cases h4 : k < 4
  · rw [takeWord_short _ (by simp; omega)]
  · rw [List.take_append, List.take_of_length_le (by simp; omega), takeWord_wordBytes]
    simp only [toNat_count h]
    rw [if_pos (by rw [List.length_take, length_flatMap_wordBytes]; simp; omega)]

/-! ### Lengths (R89) -/

theorem takeWord_length {bs rest : List Byte} {w : Word} (h : takeWord bs = some (w, rest)) : rest.length + 4 = bs.length := by
  rcases takeWord_cases bs with ⟨-, h'⟩ | ⟨w', rest', h1, h2⟩
  · rw [h'] at h; cases h
  · rw [h2] at h
    cases h
    rw [h1, List.length_append, length_wordBytes, Nat.add_comm]

theorem takeWords_length {m : Nat} {bs rest : List Byte} {ws : List Word} (h : takeWords m bs = some (ws, rest)) :
    rest.length ≤ bs.length := by
  induction m generalizing bs rest ws with
  | zero => cases h; exact Nat.le_refl _
  | succ m ih =>
    rw [takeWords] at h
    split at h
    · cases h
    · rename_i w r hw
      split at h
      · cases h
      · rename_i ws' r' hws
        cases h
        have := takeWord_length hw
        have := ih hws
        omega

theorem decodeScan_length {make : List Bool → TransportCall} {bs rest : List Byte} {c : TransportCall}
    (h : decodeScan make bs = .ok c rest) : rest.length ≤ bs.length := by
  unfold decodeScan at h
  split at h
  · cases h
  · rename_i w r hw
    have := takeWord_length hw
    simp only at h
    split at h
    · cases h
    · cases h
      rw [List.length_drop]
      omega

theorem decodeWordOperand_length {α : Type} {make : Word → α} {bs rest : List Byte} {a : α}
    (h : decodeWordOperand make bs = .ok a rest) : rest.length ≤ bs.length := by
  unfold decodeWordOperand at h
  split at h
  · cases h
  · rename_i w r hw
    have := takeWord_length hw
    cases h
    omega

theorem decodeCall_length {op : Byte} {bs rest : List Byte} {c : TransportCall} (h : decodeCall op bs = .ok c rest) :
    rest.length ≤ bs.length := by
  unfold decodeCall at h
  repeat' split at h
  all_goals first
    | exact decodeScan_length h
    | exact decodeWordOperand_length h
    | (cases h; try exact Nat.le_refl _)

theorem Decoded.map_eq_ok {α β : Type} {f : α → β} {d : Decoded α} {b : β} {rest : List Byte} :
    d.map f = .ok b rest ↔ ∃ a, d = .ok a rest ∧ f a = b := by
  cases d <;> simp [Decoded.map, and_comm]

/-- A decoded record takes at least one byte. -/
theorem decode_length {bs rest : List Byte} {i : Instr} (h : decode bs = .ok i rest) : rest.length < bs.length := by
  cases bs with
  | nil => cases h
  | cons op bs =>
    rw [List.length_cons, Nat.lt_succ_iff]
    unfold decode at h
    simp only at h
    have hpin : ∀ {make : Bool → Instr}, decodePin make bs = .ok i rest → rest.length ≤ bs.length := by
      intro make h
      cases bs with
      | nil => cases h
      | cons b bs =>
        rw [decodePin] at h
        split at h
        · cases h; simp
        · cases h
    have hclock : decodeClock bs = .ok i rest → rest.length ≤ bs.length := by
      intro h
      cases bs with
      | nil => cases h
      | cons b bs =>
        rw [decodeClock] at h
        split at h
        · cases h; simp
        · cases h
    have hnull : decodeNull bs = .ok i rest → rest.length ≤ bs.length := by
      intro h
      cases bs with
      | nil => cases h
      | cons b bs =>
        rw [decodeNull] at h
        obtain ⟨c, hc, -⟩ := Decoded.map_eq_ok.1 h
        have := decodeCall_length hc
        rw [List.length_cons]
        omega
    have hattach : decodeAttach bs = .ok i rest → rest.length ≤ bs.length := by
      intro h
      unfold decodeAttach at h
      split at h
      · cases h
      · rename_i w r hw
        have := takeWord_length hw
        split at h
        · cases h
        · split at h
          · cases h
          · rename_i ws r' hws
            have := takeWords_length hws
            cases h
            omega
    repeat' split at h
    all_goals first
      | exact hpin h
      | exact hclock h
      | exact hnull h
      | exact hattach h
      | exact decodeWordOperand_length h
      | (cases h; exact Nat.le_refl _)
      | (obtain ⟨c, hc, -⟩ := Decoded.map_eq_ok.1 h; exact decodeCall_length hc)

/-- The bound on the number of records does not matter once it is as large as the program. -/
theorem decodeRecords_fuel (n m : Nat) (bs : List Byte) (hn : bs.length ≤ n) (hm : bs.length ≤ m) :
    decodeRecords n bs = decodeRecords m bs := by
  induction n generalizing m bs with
  | zero =>
    have : bs = [] := List.length_eq_zero_iff.1 (by omega)
    subst this
    cases m <;> rfl
  | succ n ih =>
    cases bs with
    | nil => cases m <;> rfl
    | cons b bs =>
      cases m with
      | zero => simp at hm
      | succ m =>
        rw [decodeRecords, decodeRecords]
        cases hd : decode (b :: bs) with
        | ok i rest =>
          have := decode_length hd
          simp only
          rw [ih m rest (by omega) (by omega)]
        | illegal => rfl
        | truncated => rfl

/-- A program that starts with a record decodes to it and to the decoding of the rest (R86). -/
theorem decodeProgram_cons {bs rest : List Byte} {i : Instr} (h : decode bs = .ok i rest) :
    decodeProgram bs = (i :: (decodeProgram rest).1, (decodeProgram rest).2) := by
  have hl := decode_length h
  cases bs with
  | nil => cases h
  | cons b bs =>
    rw [decodeProgram, List.length_cons, decodeRecords, h]
    simp only
    rw [List.length_cons] at hl
    rw [decodeRecords_fuel bs.length rest.length rest (by omega) (Nat.le_refl _)]
    rfl

end Sys2Proof
end

