-- ==== Sys2Proof/Laws/PerInstr.lean ====
section
/-! SUPPORT. Per-instruction laws: for each constructor, the length of its record is the one 30_encoding.md R89 gives. -/

namespace Sys2Proof.Laws.RecordLength

open Sys2Proof Sys2Proof.Machine

/-- The record of `i` has the length R89 gives its format. -/
def Statement (i : Instr) : Prop :=
  (encode i).length = recordLength i

theorem scanRecord_length (op : Byte) (bits : List Bool) :
    (scanRecord op bits).length = 5 + payloadLength bits.length := by
  simp only [scanRecord, List.length_cons, List.length_append, length_packBits, wordBytes, List.length_nil]
  omega

theorem length_encodeCall (call : TransportCall) : (encodeCall call).length = callLength call := by
  cases call <;> first | rfl | exact scanRecord_length _ _

theorem pinTck (level : Bool) : Statement (.pinTck level) := rfl

theorem pinTms (level : Bool) : Statement (.pinTms level) := rfl

theorem pinTdi (level : Bool) : Statement (.pinTdi level) := rfl

theorem pinTdo : Statement .pinTdo := rfl

theorem clock (tms tdi : Bool) : Statement (.clock tms tdi) := rfl

theorem init : Statement .init := rfl

theorem reset : Statement .reset := rfl

theorem readId : Statement .readId := rfl

theorem updateIr (bits : List Bool) : Statement (.updateIr bits) := length_encodeCall (.updateIr bits)

theorem updateDr (bits : List Bool) : Statement (.updateDr bits) := length_encodeCall (.updateDr bits)

theorem tick (n : Word) : Statement (.tick n) := rfl

theorem teardown : Statement .teardown := rfl

theorem null (call : TransportCall) : Statement (.null call) := by
  simp only [Statement, encode, recordLength, List.length_cons, length_encodeCall]
  omega

theorem emuAttach (words : List Word) : Statement (.emuAttach words) := by
  simp only [Statement, encode, recordLength, List.length_cons, List.length_append, length_flatMap_wordBytes, wordBytes, List.length_nil]
  omega

theorem emuRead (addr : Word) : Statement (.emuRead addr) := rfl

end Sys2Proof.Laws.RecordLength
end

