-- ==== Sys2Proof/Laws/Steps.lean ====
section
/-! SUPPORT. What an event, an operation of a procedure and a step can do, said once: the invariants cite these lemmas and
unfold none of the machine. -/

namespace Sys2Proof.Machine

/-! ### The device -/

/-- Everything that can happen to the device: its pin latches are written, it takes falling edges, or an array is bound. -/
inductive DeviceMove (c : Config) : Device → Device → Prop where
  | latch (d : Device) (tck tms tdi : Bool) : DeviceMove c d (d.latch tck tms tdi)
  | edge (d : Device) (m b : Bool) : DeviceMove c d (edge c d m b)
  | attach (d : Device) (ws : List Word) : DeviceMove c d { d with mem := attachWords ws }
  | trans {d d' d'' : Device} : DeviceMove c d d' → DeviceMove c d' d'' → DeviceMove c d d''

theorem DeviceMove.refl (c : Config) (d : Device) : DeviceMove c d d :=
  .latch d d.tck d.tms d.tdi

theorem DeviceMove.edges (c : Config) (cs : List (Bool × Bool)) (d : Device) :
    DeviceMove c d (Machine.edges c cs d) := by
  induction cs generalizing d with
  | nil => exact .refl c d
  | cons x cs ih => obtain ⟨m, b⟩ := x; exact .trans (.edge d m b) (ih _)

theorem DeviceMove.cycles (c : Config) (cs : List (Bool × Bool)) (d : Device) :
    DeviceMove c d (cycleDevice c cs d) := by
  obtain ⟨k, m, b, h⟩ := cycleDevice_eq c cs d
  rw [h]
  exact .trans (.edges c cs d) (.latch _ k m b)

theorem DeviceMove.pinTck (c : Config) (d : Device) (v : Bool) : DeviceMove c d (d.pinTck c v) := by
  cases v with
  | true => rw [pinTck_true]; exact .latch d true d.tms d.tdi
  | false =>
    cases h : d.tck with
    | true => rw [pinTck_false_of_high c d h]; exact .trans (.edge d d.tms d.tdi) (.latch _ false _ _)
    | false => rw [pinTck_false_of_low c d h]; exact .latch d false d.tms d.tdi

/-- A property that edges, latches and binding keep is kept by every move. -/
theorem DeviceMove.keeps {c : Config} {P : Device → Prop} (hl : ∀ d k m b, P d → P (d.latch k m b))
    (he : ∀ d m b, P d → P (Machine.edge c d m b)) (ha : ∀ d ws, P d → P { d with mem := attachWords ws }) {d d' : Device}
    (h : DeviceMove c d d') (hd : P d) : P d' := by
  induction h with
  | latch d k m b => exact hl d k m b hd
  | edge d m b => exact he d m b hd
  | attach d ws => exact ha d ws hd
  | trans _ _ ih1 ih2 => exact ih2 (ih1 hd)

/-! ### Events -/

/-- What an event leaves alone. -/
structure EventFrame (s t : State) : Prop where
  cfg : t.cfg = s.cfg
  host : t.host = s.host
  program : t.program = s.program
  inputs : t.inputs = s.inputs
  move : DeviceMove s.cfg s.dev t.dev
  ready : s.ready = true → t.ready = true

theorem EventFrame.returns (s : State) (r : Result) : EventFrame s (s.returns r) :=
  ⟨rfl, rfl, rfl, rfl, .refl _ _, id⟩

theorem EventFrame.setDev (s : State) (d : Device) (r : Result) (h : DeviceMove s.cfg s.dev d) :
    EventFrame s ((s.setDev d).returns r) :=
  ⟨rfl, rfl, rfl, rfl, h, id⟩

theorem EventFrame.runCall (call : TransportCall) (s : State) : EventFrame s (runCall call s) := by
  obtain ⟨k, r, n, h, -⟩ := runOperation_cases (callCycles s.cfg call) (callResult call) s
  rw [Machine.runCall, h]
  exact ⟨rfl, rfl, rfl, rfl, .cycles _ _ _, id⟩

theorem EventFrame.zeroLength (s : State) (r : Result) : EventFrame s (zeroLengthScan s r) := by
  rcases zeroLengthScan_cases s r with ⟨-, h⟩ | ⟨-, h | h⟩ <;> rw [h] <;> exact ⟨rfl, rfl, rfl, rfl, .refl _ _, id⟩

theorem EventFrame.admitted {p : Bool} {s t : State} {body : State → State} (hb : EventFrame s (body s))
    (h : Machine.admitted p s body = .next t) : EventFrame s t := by
  rcases admitted_cases p s body with ⟨-, h'⟩ | ⟨-, -, -, h'⟩ | ⟨-, -, h'⟩ <;> rw [h'] at h <;> cases h
  · exact .returns s _
  · exact hb

/-- Everything an event can do. -/
theorem exec_frame {i : Instr} {s t : State} (h : exec i s = .next t) : EventFrame s t := by
  cases i with
  | pinTck v => cases h; exact .setDev s _ _ (.pinTck _ _ v)
  | pinTms v => cases h; exact .setDev s _ _ (.latch _ _ v _)
  | pinTdi v => cases h; exact .setDev s _ _ (.latch _ _ _ v)
  | pinTdo => cases h; exact ⟨rfl, rfl, rfl, rfl, .refl _ _, id⟩
  | clock m d =>
    simp only [exec, execClock, clockCycle_eq] at h
    cases h
    exact ⟨rfl, rfl, rfl, rfl, .trans (.edge _ m d) (.latch _ false m d), id⟩
  | init => cases h; exact ⟨rfl, rfl, rfl, rfl, .refl _ _, fun _ => rfl⟩
  | reset =>
    simp only [exec, execReset] at h
    refine EventFrame.admitted ?_ h
    have := EventFrame.runCall .reset s.takePins
    exact ⟨this.cfg, this.host, this.program, this.inputs, this.move, this.ready⟩
  | readId => simp only [exec, execReadId] at h; exact EventFrame.admitted (.runCall _ _) h
  | updateIr bits =>
    simp only [exec, execUpdateIr] at h
    split at h
    · cases h; exact .zeroLength s _
    · exact EventFrame.admitted (.runCall _ _) h
  | updateDr bits =>
    simp only [exec, execUpdateDr] at h
    split at h
    · cases h; exact .zeroLength s _
    · exact EventFrame.admitted (.runCall _ _) h
  | tick n => simp only [exec, execTick] at h; exact EventFrame.admitted (.runCall _ _) h
  | teardown => cases h; exact ⟨rfl, rfl, rfl, rfl, .refl _ _, id⟩
  | null call => cases h; exact .returns s _
  | emuAttach ws =>
    simp only [exec, execEmuAttach] at h
    split at h
    · cases h
    · cases h; exact .setDev s _ _ (.attach _ ws)
  | emuRead a =>
    simp only [exec, execEmuRead] at h
    split at h
    · cases h
    · cases h
      rcases memRead_cases s a with ⟨-, h⟩ | ⟨-, w, h⟩ <;> rw [h] <;> exact ⟨rfl, rfl, rfl, rfl, .refl _ _, id⟩

/-- No event is refused for its configuration: only the step checks that (R252). -/
theorem exec_refused {i : Instr} {s : State} {r : Refusal} (h : exec i s = .refused r) :
    r = .pinsReleased ∨ r = .emulatorOnly := by
  have hadm : ∀ {p : Bool} {body : State → State}, admitted p s body = .refused r → r = .pinsReleased := by
    intro p body h
    rcases admitted_cases p s body with ⟨-, h'⟩ | ⟨-, -, -, h'⟩ | ⟨-, -, h'⟩ <;> rw [h'] at h <;> cases h
    rfl
  cases i <;> simp only [exec] at h
  case reset => exact Or.inl (hadm h)
  case readId => exact Or.inl (hadm h)
  case tick => exact Or.inl (hadm h)
  case updateIr => unfold execUpdateIr at h; split at h; cases h; exact Or.inl (hadm h)
  case updateDr => unfold execUpdateDr at h; split at h; cases h; exact Or.inl (hadm h)
  case emuAttach => unfold execEmuAttach at h; split at h <;> cases h; exact Or.inr rfl
  case emuRead => unfold execEmuRead at h; split at h <;> cases h; exact Or.inr rfl
  all_goals cases h

theorem exec_ne_fault {i : Instr} {s : State} {f : Fault} : exec i s ≠ .fault f := by
  have hadm : ∀ {p : Bool} {body : State → State}, admitted p s body ≠ .fault f := by
    intro p body h
    rcases admitted_cases p s body with ⟨-, h'⟩ | ⟨-, -, -, h'⟩ | ⟨-, -, h'⟩ <;> rw [h'] at h <;> cases h
  intro h
  cases i <;> simp only [exec] at h
  case reset => exact hadm h
  case readId => exact hadm h
  case tick => exact hadm h
  case updateIr => unfold execUpdateIr at h; split at h; cases h; exact hadm h
  case updateDr => unfold execUpdateDr at h; split at h; cases h; exact hadm h
  case emuAttach => unfold execEmuAttach at h; split at h <;> cases h
  case emuRead => unfold execEmuRead at h; split at h <;> cases h
  all_goals cases h

/-! ### Operations of a procedure -/

/-- What one operation of the context `c` leaves alone. -/
structure HostFrame (c : ContextId) (s t : State) : Prop where
  cfg : t.cfg = s.cfg
  program : t.program = s.program
  inputs : t.inputs = s.inputs
  move : DeviceMove s.cfg s.dev t.dev
  ready : s.ready = true → t.ready = true
  applied : s.host.workaroundApplied = true → t.host.workaroundApplied = true
  pending : t.host.triggerPending = s.host.triggerPending
  other : ∀ c', c' ≠ c → t.host.context c' = s.host.context c'

theorem HostFrame.refl (c : ContextId) (s : State) : HostFrame c s s :=
  ⟨rfl, rfl, rfl, .refl _ _, id, id, rfl, fun _ _ => rfl⟩

theorem HostFrame.trans {c : ContextId} {s t u : State} (h1 : HostFrame c s t) (h2 : HostFrame c t u) : HostFrame c s u :=
  ⟨h2.cfg.trans h1.cfg, h2.program.trans h1.program, h2.inputs.trans h1.inputs, .trans h1.move (h1.cfg ▸ h2.move),
    h2.ready ∘ h1.ready, h2.applied ∘ h1.applied, h2.pending.trans h1.pending, fun c' hc => (h2.other c' hc).trans (h1.other c' hc)⟩

theorem EventFrame.host_frame {s t : State} (c : ContextId) (h : EventFrame s t) : HostFrame c s t :=
  ⟨h.cfg, h.program, h.inputs, h.move, h.ready, by rw [h.host]; exact id, by rw [h.host], fun _ _ => by rw [h.host]⟩

theorem HostFrame.setContext (c : ContextId) (s : State) (x : Context) :
    HostFrame c s (s.setHost (s.host.setContext c x)) :=
  ⟨rfl, rfl, rfl, .refl _ _, id, by simp, by simp, fun c' hc => HostState.context_setContext_ne s.host c c' x hc⟩

theorem HostFrame.push (c : ContextId) (s : State) (ops : List HostOp) : HostFrame c s (s.push c ops) :=
  HostFrame.setContext c s _

theorem HostFrame.setOutcome (c : ContextId) (s : State) (r : ProcResult) : HostFrame c s (s.setOutcome c r) :=
  HostFrame.setContext c s _

theorem HostFrame.setSamples (c : ContextId) (s : State) (bits : List Bool) : HostFrame c s (s.setSamples c bits) :=
  HostFrame.setContext c s _

theorem HostFrame.abort (c : ContextId) (s : State) (r : ProcResult) : HostFrame c s (s.abort c r) :=
  (HostFrame.setOutcome c s r).trans (HostFrame.setContext c _ _)

theorem HostFrame.returns (c : ContextId) (s : State) (r : Result) : HostFrame c s (s.returns r) :=
  (EventFrame.returns s r).host_frame c

theorem HostFrame.draws (c : ContextId) (s : State) (n : Nat) : HostFrame c s (s.advanceDraws n) :=
  ⟨rfl, rfl, rfl, .refl _ _, id, id, rfl, fun _ _ => rfl⟩

/-- A write of the host's flags that keeps the contexts and the pending trigger, and does not clear `workaround_applied`. -/
theorem HostFrame.setHost (c : ContextId) (s : State) (h : HostState)
    (ha : s.host.workaroundApplied = true → h.workaroundApplied = true) (hm : h.main = s.host.main)
    (hi : h.irq = s.host.irq) (hp : h.triggerPending = s.host.triggerPending := by rfl) : HostFrame c s (s.setHost h) :=
  ⟨rfl, rfl, rfl, .refl _ _, id, ha, hp, fun c' _ => by cases c' <;> simp [HostState.context, hm, hi]⟩

theorem HostFrame.memRead (c : ContextId) (s : State) (a : Word) : HostFrame c s (s.memRead a).2 := by
  rcases memRead_cases s a with ⟨-, h⟩ | ⟨-, w, h⟩ <;> rw [h]
  · exact .refl c s
  · exact .draws c s 1

theorem HostFrame.withRegister (c : ContextId) (a : Word) (s : State) (body : Word → State → State)
    (hb : ∀ v t, HostFrame c t (body v t)) : HostFrame c s (withRegister c a s body) := by
  unfold Machine.withRegister
  split
  · exact .abort c s _
  · exact ((HostFrame.memRead c s a).trans (.returns c _ _)).trans (hb _ _)

theorem HostFrame.procedureEvent {c : ContextId} {i : Instr} {s t : State} (h : procedureEvent c i s = .next t) :
    HostFrame c s t := by
  unfold Machine.procedureEvent at h
  split at h
  · rename_i u hu
    have hf := (exec_frame hu).host_frame c
    split at h
    · cases h; exact hf.trans (.abort c u _)
    · split at h
      · cases h; exact hf.trans (.abort c u _)
      · cases h; exact hf
  · cases h
  · cases h; exact .abort c s _

theorem HostFrame.beginCall (c : ContextId) (call : TransportCall) (onFail : HostOp) (s : State) :
    HostFrame c s (beginCall c call onFail s) := by
  unfold Machine.beginCall
  split
  · split
    · exact ((HostFrame.draws c s 1).trans (.setSamples c _ _)).trans (.push c _ _)
    · exact ((HostFrame.draws c s 1).trans (.setSamples c _ _)).trans (.push c _ _)
  · exact (HostFrame.setSamples c s _).trans (.push c _ _)

theorem HostFrame.takePins (c : ContextId) (s : State) : HostFrame c s s.takePins :=
  ⟨rfl, rfl, rfl, .refl _ _, id, id, rfl, fun _ _ => rfl⟩

theorem HostFrame.startCall (c : ContextId) (call : TransportCall) (onFail : HostOp) (s : State) :
    HostFrame c s (startCall c call onFail s) := by
  unfold Machine.startCall
  split
  · exact (HostFrame.takePins c s).trans (.beginCall c call onFail _)
  · exact .beginCall c call onFail s

theorem HostFrame.eventByPins {c : ContextId} {call : TransportCall} {s t : State} (h : eventByPins c call s = .next t) :
    HostFrame c s t := by
  unfold Machine.eventByPins at h
  split at h
  · split at h
    · cases h; exact .startCall c call .failCall s
    · cases h; exact (HostFrame.returns c s _).trans (.abort c _ _)
    · cases h; exact .abort c s _
  · exact .procedureEvent h

theorem HostFrame.checkRegisterMap (c : ContextId) (s : State) : HostFrame c s (checkRegisterMap s) := by
  unfold Machine.checkRegisterMap
  split
  · exact .refl c s
  · split
    · exact .setHost c s _ id rfl rfl
    · exact .refl c s

theorem HostFrame.compareWord (c : ContextId) (k : Nat) (w : Word) (rest : List Word) (t x : Word) (s : State) :
    HostFrame c s (compareWord c k w rest t x s) := by
  unfold Machine.compareWord
  split
  · exact .push c s _
  · refine HostFrame.trans ?_ (.push c _ _)
    exact .setHost c s _ (by simp) rfl rfl

/-- Everything one operation of a procedure can do to the rest of the machine. -/
theorem hostStep_frame {c : ContextId} {op : HostOp} {s t : State} (h : hostStep c op s = .next t) : HostFrame c s t := by
  cases op with
  | call p => cases h; exact .push c s _
  | event i => exact .procedureEvent h
  | eventByPins call => exact .eventByPins h
  | sampleTdo => cases h; exact (HostFrame.draws c s 1).trans (.setSamples c _ _)
  | returnCall call => cases h; exact .returns c s _
  | returnResult r => cases h; exact .returns c s r
  | runVerify => cases h; exact .push c s _
  | failCall => cases h; exact (HostFrame.returns c s _).trans (.abort c _ _)
  | modify a set clear => cases h; exact .withRegister c a s _ fun _ t => .push c t _
  | readRegister a => cases h; exact .withRegister c a s _ fun _ t => .setOutcome c t _
  | compareWords k ws t =>
    cases ws with
    | nil => cases h; exact .refl c s
    | cons w rest => cases h; exact .withRegister c _ s _ fun _ u => .compareWord c k w rest t _ u
  | pollPowerGood reads =>
    cases h
    unfold Machine.pollPowerGood
    split
    · exact .abort c s _
    · split
      · exact .draws c s 1
      · exact (HostFrame.draws c s 1).trans (.push c _ _)
  | pollId reads =>
    simp only [hostStep] at h
    unfold Machine.pollId at h
    split at h
    · cases h; exact .abort c s _
    · split at h
      · rename_i u hu
        have hf := (exec_frame hu).host_frame c
        split at h
        · cases h
          split
          · exact hf
          · exact hf.trans (.push c u _)
        · cases h; exact hf.trans (.abort c u _)
      · cases h
      · cases h; exact .abort c s _
  | sequencingLine e => cases h; exact .refl c s
  | setSeq q => cases h; exact .setHost c s _ (by simp) rfl rfl
  | markCoreReset =>
    cases h
    split
    · exact .setHost c s _ (by simp) rfl rfl
    · exact .refl c s
  | markPatched => cases h; exact .setHost c s _ (by simp) rfl rfl
  | checkRegisterMap => cases h; exact .checkRegisterMap c s
  | finish r => cases h; exact .setOutcome c s r
  | fail r => cases h; exact .abort c s r
  | endProcedure b =>
    cases h
    cases b with
    | call => exact .refl c s
    | checkedCall => exact .checkRegisterMap c s
    | verify => exact .refl c s
    | run => exact (HostFrame.checkRegisterMap c s).trans (.setHost c _ _ (by simp) rfl rfl)
  | acquire => cases h; exact .setHost c s _ (by simp) rfl rfl
  | release =>
    cases h
    unfold releaseLock
    split
    · exact .setHost c s _ (by simp) rfl rfl
    · exact .refl c s
  | setBusCancel b => cases h; exact .setHost c s _ (by simp) rfl rfl
  | triggerBody =>
    cases h
    unfold Machine.triggerBody
    split
    · exact .push c s _
    · exact .setHost c s _ (by simp) rfl rfl
  | pickupBody =>
    cases h
    unfold Machine.pickupBody
    split
    · refine HostFrame.trans ?_ (.push c _ _)
      exact .setHost c s _ (by simp) rfl rfl
    · exact .refl c s
  | wasReset => cases h; exact .setOutcome c s _
  | ackReset => cases h; exact .setHost c s _ (by simp) rfl rfl

/-- No operation of a procedure stops the machine: an error or a refusal is its procedure's result (log 8). -/
theorem hostStep_next (c : ContextId) (op : HostOp) (s : State) : ∃ t, hostStep c op s = .next t := by
  have hev : ∀ i, ∃ t, procedureEvent c i s = .next t := by
    intro i
    unfold procedureEvent
    cases h : exec i s with
    | next u =>
      simp only
      split
      · exact ⟨_, rfl⟩
      · split <;> exact ⟨_, rfl⟩
    | fault f => exact absurd h exec_ne_fault
    | refused r => exact ⟨_, rfl⟩
  cases op with
  | event i => exact hev i
  | eventByPins call =>
    simp only [hostStep]
    unfold eventByPins
    split
    · split <;> exact ⟨_, rfl⟩
    · exact hev _
  | compareWords k ws t => cases ws <;> exact ⟨_, rfl⟩
  | pollId reads =>
    simp only [hostStep]
    unfold pollId
    split
    · exact ⟨_, rfl⟩
    · cases h : exec .readId s with
      | next u => simp only; split <;> exact ⟨_, rfl⟩
      | fault f => exact absurd h exec_ne_fault
      | refused r => exact ⟨_, rfl⟩
  | _ => exact ⟨_, rfl⟩

/-! ### Events begun as pin events (R79) -/

theorem splitEvent_frame {c : ContextId} {onFail : HostOp} {i : Instr} {s t : State}
    (h : splitEvent c onFail i s = some t) : HostFrame c s t := by
  cases i <;> simp only [splitEvent, callOf] at h
  case clock => cases h; exact .push c s _
  all_goals first
    | cases h
    | (split at h
       · cases h; exact .startCall c _ onFail s
       · cases h)

/-- Everything the slot `split` can do: deliver a trigger that is due, or begin an event of the context that moves. -/
theorem splitStep_cases (s : State) :
    (triggerDue s = true ∧ splitStep s = deliverTrigger s) ∨
    (triggerDue s = false ∧ ∃ c p, (canMove .irq s = false → c = .main) ∧ HostFrame c { s with program := p } (splitStep s)) := by
  have hctx : ∀ c, HostFrame c s (splitContext c s) := by
    intro c
    unfold splitContext
    split
    · cases h : splitEvent c .failCall _ (s.setAgenda c _) with
      | none => exact .refl c s
      | some t => exact (HostFrame.setContext c s _).trans (splitEvent_frame h)
    · exact .refl c s
  have hprog : ∃ p, HostFrame .main { s with program := p } (splitProgram s) := by
    unfold splitProgram
    split
    · cases h : splitEvent .main (.returnResult .transportError) _ { s with program := _ } with
      | none => exact ⟨s.program, .refl _ _⟩
      | some t => exact ⟨_, splitEvent_frame h⟩
    · exact ⟨s.program, .refl _ _⟩
    · exact ⟨s.program, .refl _ _⟩
  unfold splitStep
  cases hd : triggerDue s with
  | true => exact .inl ⟨rfl, rfl⟩
  | false =>
    refine .inr ⟨rfl, ?_⟩
    cases hi : canMove .irq s with
    | true => exact ⟨.irq, s.program, by simp, hctx .irq⟩
    | false =>
      cases ha : (s.agenda .main).isEmpty with
      | true => obtain ⟨p, hp⟩ := hprog; exact ⟨.main, p, fun _ => rfl, hp⟩
      | false => exact ⟨.main, s.program, fun _ => rfl, hctx .main⟩

/-! ### Steps -/

/-- What a step does, by who moves: an invalid configuration, a trigger's arrival or delivery, an event begun as pin events,
one operation of a context, the program, or nobody. -/
theorem step_cases (s : State) :
    (configValid s.cfg = false ∧ step s = .refused .configInvalid) ∨
    (configValid s.cfg = true ∧
      ((∃ rest, s.inputs = .trigger :: rest ∧ step s = .next (raiseTrigger { s with inputs := rest })) ∨
        (∃ rest, s.inputs = .split :: rest ∧ step s = .next (splitStep { s with inputs := rest })) ∨
        (s.inputs.head? ≠ some .trigger ∧ s.inputs.head? ≠ some .split ∧ ∃ u, u = { s with inputs := s.inputs.tail } ∧
          ((triggerDue u = true ∧ step s = .next (deliverTrigger u)) ∨
            (triggerDue u = false ∧ ∃ c op rest, u.agenda c = op :: rest ∧ canMove c u = true ∧
              (c = .main → canMove .irq u = false) ∧ step s = hostStep c op (u.setAgenda c rest)) ∨
            (triggerDue u = false ∧ canMove .irq u = false ∧ u.agenda .main = [] ∧ step s = fetchStep u) ∨
            (triggerDue u = false ∧ canMove .irq u = false ∧ u.agenda .main ≠ [] ∧ canMove .main u = false ∧
              step s = .fault .stuck))))) := by
  cases hc : configValid s.cfg with
  | false => exact Or.inl ⟨rfl, by simp [step, hc]⟩
  | true =>
    refine Or.inr ⟨rfl, ?_⟩
    have hstep : step s = machineStep s := by simp [step, hc]
    by_cases hin : s.inputs.head? = some .trigger
    · left
      cases hi : s.inputs with
      | nil => simp [hi] at hin
      | cons x rest =>
        simp [hi] at hin
        subst hin
        exact ⟨rest, rfl, by simp [hstep, machineStep, hi]⟩
    by_cases hsp : s.inputs.head? = some .split
    · right; left
      cases hi : s.inputs with
      | nil => simp [hi] at hsp
      | cons x rest =>
        simp [hi] at hsp
        subst hsp
        exact ⟨rest, rfl, by simp [hstep, machineStep, hi]⟩
    · right; right
      refine ⟨hin, hsp, _, rfl, ?_⟩
      have hm : step s = agentStep { s with inputs := s.inputs.tail } := by
        rw [hstep, machineStep]
        cases hi : s.inputs with
        | nil => simp only [List.tail_nil]; rw [← hi]
        | cons x rest =>
          cases x with
          | quiet => rfl
          | trigger => simp [hi] at hin
          | split => simp [hi] at hsp
      rw [hm]
      generalize { s with inputs := s.inputs.tail } = u
      unfold agentStep
      cases hd : triggerDue u with
      | true => left; exact ⟨rfl, rfl⟩
      | false =>
        right
        have hctx : ∀ c, canMove c u = true → ∃ op rest, u.agenda c = op :: rest ∧
            contextStep c u = hostStep c op (u.setAgenda c rest) := by
          intro c h
          cases ha : u.agenda c with
          | nil => simp [canMove, ha] at h
          | cons op rest => exact ⟨op, rest, rfl, by simp [contextStep, ha]⟩
        cases hi : canMove .irq u with
        | true =>
          left
          obtain ⟨op, rest, ha, hx⟩ := hctx .irq hi
          exact ⟨rfl, .irq, op, rest, ha, hi, by simp, by simp [hx]⟩
        | false =>
          cases ha : u.agenda .main with
          | nil => right; left; exact ⟨rfl, rfl, rfl, by simp [mainStep, ha]⟩
          | cons op rest =>
            cases hmv : canMove .main u with
            | true =>
              left
              obtain ⟨op', rest', ha', hx⟩ := hctx .main hmv
              exact ⟨rfl, .main, op', rest', ha', hmv, fun _ => rfl, by simp [mainStep, ha, hmv, hx]⟩
            | false =>
              right; right
              exact ⟨rfl, rfl, by simp, rfl, by simp [mainStep, ha, hmv]⟩

/-- What every step leaves alone. -/
structure StepFrame (s t : State) : Prop where
  cfg : t.cfg = s.cfg
  move : DeviceMove s.cfg s.dev t.dev
  ready : s.ready = true → t.ready = true
  applied : s.host.workaroundApplied = true → t.host.workaroundApplied = true

/-- Everything a step can do to the parameters, the device and the two latches that are never cleared. -/
theorem step_frame {s t : State} (h : step s = .next t) : StepFrame s t := by
  rcases step_cases s with ⟨-, h'⟩ | ⟨-, ⟨rest, -, h'⟩ | ⟨rest, -, h'⟩ | ⟨-, -, u, rfl, h'⟩⟩
  · rw [h'] at h; cases h
  · rw [h'] at h
    cases h
    unfold raiseTrigger
    split <;> exact ⟨rfl, .refl _ _, id, id⟩
  · rw [h'] at h
    cases h
    rcases splitStep_cases { s with inputs := rest } with ⟨-, h'⟩ | ⟨-, c, p, -, hf⟩
    · rw [h']; exact ⟨rfl, .refl _ _, id, by simp [deliverTrigger]⟩
    · exact ⟨hf.cfg, hf.move, hf.ready, hf.applied⟩
  · rcases h' with ⟨-, h'⟩ | ⟨-, c, op, rest, -, -, -, h'⟩ | ⟨-, -, -, h'⟩ | ⟨-, -, -, -, h'⟩ <;> rw [h'] at h
    · cases h
      exact ⟨rfl, .refl _ _, id, by simp [deliverTrigger]⟩
    · have hf := hostStep_frame h
      exact ⟨hf.cfg, hf.move, hf.ready, fun ha => hf.applied (by simpa using ha)⟩
    · unfold fetchStep at h
      split at h
      · cases h; exact ⟨rfl, .refl _ _, id, id⟩
      · split at h
        · have hf := exec_frame h
          exact ⟨hf.cfg, hf.move, hf.ready, by rw [hf.host]; exact id⟩
        · cases h
        · cases h
    · cases h

/-! ### Ending a procedure (R215) -/

/-- What is left when an error ends a procedure is its end and all that follows. -/
theorem unwind_append (ops tail : List HostOp) (b : Boundary) (h : ∀ op ∈ ops, ∀ b, op ≠ .endProcedure b) :
    unwind (ops ++ .endProcedure b :: tail) = .endProcedure b :: tail := by
  induction ops with
  | nil => rfl
  | cons op ops ih =>
    have ho := h op (by simp)
    have := ih fun op' ho' => h op' (by simp [ho'])
    cases op <;> first | exact absurd rfl (ho _) | simpa [unwind] using this

/-- A run's operations are a body without a procedure's end, and the run's end. -/
theorem mainRunOps_body (c : Config) :
    ∃ body, mainRunOps c = body ++ [.endProcedure .run] ∧ ∀ op ∈ body, ∀ b, op ≠ .endProcedure b := by
  refine ⟨powerGoodOps c ++ ([.setSeq .bringingUpTransport] ++ sequencingLineOps ++ [.event .reset] ++
    (if c.emulation then [] else [.pollId 0]) ++ [.setSeq .patching] ++ applyOps c (patchWords c) c.patchTarget.word ++
    [.setSeq .verifying] ++ [.runVerify] ++ [.setSeq .releasing] ++ softResetOps c ++
    [.event .teardown, .markPatched, .finish .ok]), by simp [mainRunOps, bringUpOps], ?_⟩
  intro op h b hb
  subst hb
  simp [powerGoodOps, sequencingLineOps, applyOps, softResetOps, haltPulseOps, gpioAssertOps, postcodeOps, issue] at h

/-- Wherever an error comes in a run outside its `verify`, what is left is the run's end (R215, R229). -/
theorem unwind_run (c : Config) (started ops tail : List HostOp) (hs : ∀ op ∈ started, ∀ b, op ≠ .endProcedure b)
    (hr : ops <:+ mainRunOps c) (hne : ops ≠ []) : unwind (started ++ ops ++ tail) = .endProcedure .run :: tail := by
  obtain ⟨body, hb, hbody⟩ := mainRunOps_body c
  rw [hb] at hr
  rcases List.suffix_concat_iff.mp hr with h | ⟨pre, h, hpre⟩
  · exact absurd h hne
  · subst h
    have := unwind_append (started ++ pre) tail .run fun op ho => by
      rcases List.mem_append.mp ho with ho | ho
      · exact hs op ho
      · exact hbody op (hpre.subset ho)
    simpa using this

/-- An event of a procedure that runs and returns no error goes on with the rest. -/
theorem procedureEvent_ok {c : ContextId} {i : Instr} {s t : State} (h : exec i s = .next t)
    (h1 : t.result ≠ some .transportError) (h2 : t.result ≠ some .invalidArgument) : procedureEvent c i s = .next t := by
  simp [procedureEvent, h, h1, h2]

end Sys2Proof.Machine
end

