-- ==== Sys2Proof/Laws/Runs.lean ====
section
/-! SUPPORT. Sequences of steps of one context: how they compose, what the next step of an undisturbed context is, and what
keeps a context undisturbed. A statement about a procedure is proved one operation at a time through these. -/

namespace Sys2Proof.Machine

theorem reaches.refl (s : State) : reaches s s :=
  ⟨0, rfl⟩

theorem reaches.head {s t u : State} (h : step s = .next t) (h2 : reaches t u) : reaches s u := by
  obtain ⟨k, hk⟩ := h2
  have h' : Sys2Proof.core.step s = .next t := h
  exact ⟨k + 1, by simp only [Host.Core.run]; rw [h']; exact hk⟩

theorem reaches.trans {s t u : State} (h : reaches s t) (h2 : reaches t u) : reaches s u := by
  obtain ⟨k, hk⟩ := h
  induction k generalizing s with
  | zero => cases hk; exact h2
  | succ k ih =>
    simp only [Host.Core.run] at hk
    cases hs : Sys2Proof.core.step s with
    | next v => rw [hs] at hk; exact .head hs (ih hk)
    | fault f => rw [hs] at hk; cases hk
    | refused r => rw [hs] at hk; cases hk

/-- The next step is the next operation of an undisturbed context, if that does not wait for the lock. -/
theorem step_undisturbed {s : State} {c : ContextId} (h : s.undisturbed c) {op : HostOp} {rest : List HostOp}
    (ha : s.agenda c = op :: rest) (hop : op ≠ .acquire) : step s = hostStep c op (s.setAgenda c rest) := by
  obtain ⟨hc, hi, hm⟩ := h
  have hmv : canMove c s = true := by
    cases op <;> first | exact absurd rfl hop | simp [canMove, ha]
  cases c with
  | main =>
    obtain ⟨h1, h2⟩ := hm rfl
    simp [step, hc, machineStep, hi, agentStep, h1, h2, mainStep, ha, hmv, contextStep]
  | irq =>
    have : triggerDue s = false := by simp [triggerDue, ha]
    simp [step, hc, machineStep, hi, agentStep, this, hmv, contextStep, ha]

/-- The next step of an undisturbed context at its `acquire` takes a free lock (R238). -/
theorem step_acquire {s : State} {c : ContextId} (h : s.undisturbed c) {rest : List HostOp}
    (ha : s.agenda c = .acquire :: rest) (hl : s.host.lock = .free) :
    step s = .next (acquireLock c (s.setAgenda c rest)) := by
  obtain ⟨hc, hi, hm⟩ := h
  have hmv : canMove c s = true := by simp [canMove, ha, hl]
  cases c with
  | main =>
    obtain ⟨h1, h2⟩ := hm rfl
    simp [step, hc, machineStep, hi, agentStep, h1, h2, mainStep, ha, hmv, contextStep, hostStep]
  | irq =>
    have : triggerDue s = false := by simp [triggerDue, ha]
    simp [step, hc, machineStep, hi, agentStep, this, hmv, contextStep, ha, hostStep]

/-- What disturbs the context `c` is as before. -/
structure KeepsOthers (c : ContextId) (s t : State) : Prop where
  cfg : t.cfg = s.cfg
  inputs : t.inputs = s.inputs
  pending : t.host.triggerPending = s.host.triggerPending
  lock : t.host.lock = s.host.lock
  other : ∀ c', c' ≠ c → t.host.context c' = s.host.context c'

theorem KeepsOthers.refl (c : ContextId) (s : State) : KeepsOthers c s s :=
  ⟨rfl, rfl, rfl, rfl, fun _ _ => rfl⟩

theorem KeepsOthers.trans {c : ContextId} {s t u : State} (h1 : KeepsOthers c s t) (h2 : KeepsOthers c t u) :
    KeepsOthers c s u :=
  ⟨h2.cfg.trans h1.cfg, h2.inputs.trans h1.inputs, h2.pending.trans h1.pending, h2.lock.trans h1.lock,
    fun c' h => (h2.other c' h).trans (h1.other c' h)⟩

/-- One operation of `c` that leaves the lock alone keeps what disturbs `c`. -/
theorem KeepsOthers.of_frame {c : ContextId} {s t : State} (h : HostFrame c s t) (hl : t.host.lock = s.host.lock) :
    KeepsOthers c s t :=
  ⟨h.cfg, h.inputs, h.pending, hl, h.other⟩

theorem KeepsOthers.setAgenda (c : ContextId) (s : State) (ops : List HostOp) : KeepsOthers c s (s.setAgenda c ops) :=
  .of_frame (.setContext c s _) (by simp)

theorem KeepsOthers.undisturbed {c : ContextId} {s t : State} (h : KeepsOthers c s t) (hu : s.undisturbed c) :
    t.undisturbed c := by
  obtain ⟨a, b, d⟩ := hu
  refine ⟨by rw [h.cfg]; exact a, by rw [h.inputs]; exact b, ?_⟩
  rintro rfl
  obtain ⟨x, y⟩ := d rfl
  have e : t.host.irq = s.host.irq := h.other .irq (by simp)
  exact ⟨by simpa [triggerDue, State.agenda, HostState.context, h.cfg, h.pending, e] using x,
    by simpa [canMove, State.agenda, HostState.context, e, h.lock] using y⟩

end Sys2Proof.Machine
end

