-- ==== Sys2Proof/Laws/Scan.lean ====
section
/-! SUPPORT. Scans: what shifting a bit string does to the active register, what the commit that follows latches, and the
whole path of a scan from its Capture state. -/

namespace Sys2Proof.Machine

/-! ### The accumulator and the count (R139, R142) -/

theorem shiftIn_eq (a : Word) (b : Bool) : shiftIn a b = BitVec.ofNat 32 (2 * a.toNat + b.toNat) := by
  apply BitVec.eq_of_toNat_eq
  have hb : b.toNat < 2 := by cases b <;> decide
  have h1 : b.toNat % 2 ^ 32 = b.toNat := Nat.mod_eq_of_lt (by omega)
  have h2 : a.toNat <<< 1 % 2 ^ 32 = (a.toNat % 2 ^ 31) <<< 1 := by simp only [Nat.shiftLeft_eq]; omega
  simp only [shiftIn, BitVec.toNat_or, BitVec.toNat_shiftLeft, BitVec.toNat_setWidth, BitVec.toNat_ofBool, BitVec.toNat_ofNat]
  rw [h1, h2, ← Nat.shiftLeft_add_eq_or_of_lt (by omega), Nat.shiftLeft_eq]
  omega

/-- The accumulator after a bit string has been shifted in. -/
def accAfter (acc : Word) (bits : List Bool) : Word :=
  BitVec.ofNat 32 (acc.toNat * 2 ^ bits.length + scanValue bits.reverse)

@[simp] theorem accAfter_nil (acc : Word) : accAfter acc [] = acc := by simp [accAfter, scanValue]

theorem accAfter_cons (acc : Word) (b : Bool) (bs : List Bool) : accAfter (shiftIn acc b) bs = accAfter acc (b :: bs) := by
  rw [shiftIn_eq]
  apply BitVec.eq_of_toNat_eq
  simp only [accAfter, BitVec.toNat_ofNat, List.reverse_cons, scanValue_append, List.length_cons, List.length_reverse, scanValue]
  rw [← Nat.mod_add_mod, Nat.mod_mul_mod, Nat.mod_add_mod]
  congr 1
  ring

theorem accAfter_getLsbD (acc : Word) (bits : List Bool) (p : Nat) (h : p < bits.length) (h32 : p < 32) :
    (accAfter acc bits).getLsbD p = bits.getD (bits.length - 1 - p) false := by
  rw [accAfter, BitVec.getLsbD_ofNat, Nat.mul_comm,
    Nat.testBit_two_pow_mul_add _ (by simpa using scanValue_lt bits.reverse), if_pos h, testBit_scanValue]
  have hl : bits.length - 1 - p < bits.length := by omega
  simp [h32, List.getD_eq_getElem?_getD, h, hl]

/-- The bit count after `n` more bits. -/
def countAfter (c : Config) (k : Nat) : Nat → Nat
  | 0 => k
  | n + 1 => countAfter c (countNext c k) n

theorem countAfter_none (c : Config) (k n : Nat) (h : c.countModulus = none) : countAfter c k n = k + n := by
  induction n generalizing k with
  | zero => rfl
  | succ n ih => simp [countAfter, countNext, h, ih]; omega

theorem countAfter_some (c : Config) (k n m : Nat) (h : c.countModulus = some m) :
    countAfter c (k % m) n = (k + n) % m := by
  induction n generalizing k with
  | zero => rfl
  | succ n ih =>
    have : (k % m + 1) % m = (k + 1) % m := Nat.mod_add_mod k m 1
    simp only [countAfter, countNext, h, this, ih]
    congr 1
    omega

theorem countAfter_exact (c : Config) (n : Nat) (h : ∀ m, c.countModulus = some m → n < m) : countAfter c 0 n = n := by
  cases hm : c.countModulus with
  | none => simpa using countAfter_none c 0 n hm
  | some m =>
    have := countAfter_some c 0 n m hm
    rw [Nat.zero_mod] at this
    rw [this, Nat.zero_add, Nat.mod_eq_of_lt (h m hm)]

/-! ### The commit (R143) -/

theorem clampCount_pos (count : Nat) : 1 ≤ clampCount count := by simp only [clampCount]; omega
theorem clampCount_le (count : Nat) : clampCount count ≤ 32 := by simp only [clampCount]; omega

/-- The committed value, bit by bit. -/
theorem commitValue_getLsbD (acc : Word) (count j : Nat) :
    (commitValue acc count).getLsbD j = (decide (j < clampCount count) && acc.getLsbD (clampCount count - 1 - j)) := by
  have h1 := clampCount_pos count
  have h2 := clampCount_le count
  rw [commitValue, BitVec.getLsbD_ushiftRight, rev32, BitVec.getLsbD_reverse, BitVec.getMsbD]
  by_cases hj : j < clampCount count
  · have e : 32 - 1 - (32 - clampCount count + j) = clampCount count - 1 - j := by omega
    simp [hj, e]
    omega
  · simp [hj]
    omega

/-- The value committed after a scan, when its clamped count is no more than the bits shifted (R145, R149). -/
theorem commit_accAfter_getLsbD (acc : Word) (bits : List Bool) (count j : Nat) (h : clampCount count ≤ bits.length) :
    (commitValue (accAfter acc bits) count).getLsbD j =
      (decide (j < clampCount count) && bits.getD (bits.length - clampCount count + j) false) := by
  rw [commitValue_getLsbD]
  by_cases hj : j < clampCount count
  · have := clampCount_le count
    rw [accAfter_getLsbD _ _ _ (by omega) (by omega)]
    congr 2
    omega
  · simp [hj]

/-- The number a scan of at least one bit commits. -/
theorem commit_accAfter (acc : Word) (bits : List Bool) (h : 1 ≤ bits.length) :
    commitValue (accAfter acc bits) bits.length =
      BitVec.ofNat 32 (if bits.length ≤ 32 then scanValue bits else scanValue bits / 2 ^ (bits.length - 32)) := by
  have hc : clampCount bits.length = min bits.length 32 := by simp only [clampCount]; omega
  apply BitVec.eq_of_getLsbD_eq
  intro j hj
  rw [commit_accAfter_getLsbD _ _ _ _ (by omega), hc, BitVec.getLsbD_ofNat]
  by_cases hn : bits.length ≤ 32
  · rw [Nat.min_eq_left hn, if_pos hn, testBit_scanValue]
    by_cases hjl : j < bits.length
    · simp [hj, hjl]
    · simp [hjl, List.getD_eq_getElem?_getD]
  · rw [Nat.min_eq_right (by omega), if_neg hn, Nat.testBit_div_two_pow, testBit_scanValue]
    simp only [hj, decide_true, Bool.true_and]
    congr 1
    omega

/-- A 32-bit word scanned whole is committed as it is (R145). -/
theorem commit_wordBits (acc w : Word) : commitValue (accAfter acc (wordBits w)) 32 = w := by
  have := commit_accAfter acc (wordBits w) (by simp [wordBits])
  have hl : (wordBits w).length = 32 := by simp [wordBits]
  rw [hl, if_pos (Nat.le_refl 32), wordBits, scanValue_bitsOf, Nat.mod_eq_of_lt w.isLt] at this
  rw [wordBits, this]
  simp

/-! ### The device -/

/-- A device with its TAP state replaced. -/
def Device.withTap (d : Device) (t : TapState) : Device :=
  { d with tap := t }

@[simp] theorem Device.withTap_tap (d : Device) (t : TapState) : (d.withTap t).tap = t := rfl
@[simp] theorem Device.withTap_sel (d : Device) (t : TapState) : (d.withTap t).sel = d.sel := rfl
@[simp] theorem Device.withTap_reg (d : Device) (t : TapState) (r : RegName) : (d.withTap t).reg r = d.reg r := by
  cases r <;> rfl
@[simp] theorem Device.withTap_withTap (d : Device) (t t' : TapState) : (d.withTap t).withTap t' = d.withTap t' := rfl
@[simp] theorem Device.withTap_setReg (d : Device) (t : TapState) (r : RegName) (x : ShiftReg) :
    (d.withTap t).setReg r x = (d.setReg r x).withTap t := by
  cases r <;> rfl

theorem Device.withTap_self (d : Device) (t : TapState) (h : d.tap = t) : d.withTap t = d := by
  subst h; rfl

theorem edge_eq (c : Config) (d : Device) (m b : Bool) : edge c d m b = (act c d m b).withTap (nextTap d.tap m) := rfl

/-- A commit neither reads nor writes the TAP state. -/
@[simp] theorem Device.withTap_update (c : Config) (d : Device) (t : TapState) :
    (d.withTap t).update c = (d.update c).withTap t := by
  simp only [Device.update, Device.withTap_reg, Device.withTap_setReg, Device.withTap_sel]
  cases d.sel <;> rfl

@[simp] theorem Device.shift_tap (c : Config) (d : Device) (b : Bool) : (d.shift c b).tap = d.tap := by
  simp [Device.shift]

/-- Shifting a bit string in a Shift state: only the active register changes (R139, R142). -/
theorem edges_dataCycles (c : Config) (bits : List Bool) (d : Device) (h : d.tap = .shiftDr ∨ d.tap = .shiftIr) :
    edges c (dataCycles bits) d =
      d.setReg d.sel { d.reg d.sel with
        acc := accAfter (d.reg d.sel).acc bits
        count := countAfter c (d.reg d.sel).count bits.length } := by
  induction bits generalizing d with
  | nil =>
    simp only [dataCycles, List.map_nil, edges, accAfter_nil, List.length_nil, countAfter]
    exact (Device.setReg_reg d d.sel).symm
  | cons b bs ih =>
    have he : edge c d false b = d.shift c b := by
      rw [edge_eq]
      rcases h with h | h <;> simp only [act, h, nextTap, if_false, Bool.false_eq_true] <;>
        exact Device.withTap_self _ _ (by simp [h])
    have hs := ih (d.shift c b) (by rw [Device.shift_tap]; exact h)
    rw [dataCycles] at hs
    rw [dataCycles, List.map_cons, edges, he, hs]
    simp [Device.shift, accAfter_cons, countAfter]

/-- A scan from its Capture state through Update: the count is cleared, the bits are shifted in, and the register is committed
(R137, R139, R143, R145). -/
theorem edges_scan (c : Config) (bits : List Bool) (d : Device) (x y z w m : Bool)
    (h : d.tap = .captureDr ∨ d.tap = .captureIr) :
    edges c ([(false, x)] ++ dataCycles bits ++ [(true, y), (true, z), (m, w)]) d =
      ((d.setReg d.sel { d.reg d.sel with
            acc := accAfter (d.reg d.sel).acc bits
            count := countAfter c 0 bits.length }).update c).withTap (if m then .scanDr else .idle) := by
  rw [edges_append, edges_append]
  have h1 : edges c [(false, x)] d =
      (d.setReg d.sel { d.reg d.sel with count := 0 }).withTap (nextTap d.tap false) := by
    rcases h with h | h <;> simp [edges, edge_eq, act, h, Device.capture]
  have hsh : (edges c [(false, x)] d).tap = .shiftDr ∨ (edges c [(false, x)] d).tap = .shiftIr := by
    rw [h1]
    rcases h with h | h <;> simp [h, nextTap]
  rw [edges_dataCycles c bits _ hsh, h1]
  rcases h with h | h <;> cases m <;> simp [edges, edge_eq, act, h, nextTap]

/-- A scan that shifts nothing commits with count 0 (R147). -/
theorem edges_emptyScan (c : Config) (d : Device) (x y z m : Bool) (h : d.tap = .captureDr ∨ d.tap = .captureIr) :
    edges c [(true, x), (true, y), (m, z)] d =
      ((d.setReg d.sel { d.reg d.sel with count := 0 }).update c).withTap (if m then .scanDr else .idle) := by
  rcases h with h | h <;> cases m <;> simp [edges, edge_eq, act, h, nextTap, Device.capture]

/-! ### What a commit leaves -/

@[simp] theorem Device.update_sel (c : Config) (d : Device) : (d.update c).sel = d.sel := by
  cases h : d.sel <;> simp [Device.update, h, irCommitHook, drCommitHook]

/-- The committed register holds the commit value, its accumulator and count unchanged (R143, R150). -/
theorem Device.update_reg (c : Config) (d : Device) :
    (d.update c).reg d.sel = { d.reg d.sel with hold := commitValue (d.reg d.sel).acc (d.reg d.sel).count } := by
  cases h : d.sel <;> simp [Device.update, h, irCommitHook, drCommitHook, Device.reg, Device.setReg]

theorem Device.update_reg_ne (c : Config) (d : Device) (r : RegName) (h : r ≠ d.sel) : (d.update c).reg r = d.reg r := by
  cases hs : d.sel <;> cases r <;> simp_all [Device.update, irCommitHook, drCommitHook, Device.reg, Device.setReg]

/-! ### The framings, from `Idle` to `Idle` (R184, R186) -/

/-- The register a scan has shifted into, before its commit. -/
def scanned (c : Config) (r : ShiftReg) (bits : List Bool) : ShiftReg :=
  { r with acc := accAfter r.acc bits, count := countAfter c 0 bits.length }

/-- An IR scan from `Idle` selects IR, shifts, and commits it (R185). -/
theorem cycleDevice_irCycles (c : Config) (bits : List Bool) (d : Device) (h : d.tap = .idle) :
    cycleDevice c (irCycles bits) d =
      (((({ d with sel := .ir } : Device).setReg .ir (scanned c d.ir bits)).update c).withTap .idle).latch
        false false false := by
  have hc : irCycles bits = ([(true, false), (true, false), (false, false)] ++
      ([(false, false)] ++ dataCycles bits ++ [(true, false), (true, false), (false, false)])) := by
    simp [irCycles]
  have hl : irCycles bits = ([(true, false), (true, false), (false, false), (false, false)] ++ dataCycles bits ++
      [(true, false), (true, false)]) ++ [(false, false)] := by
    simp [irCycles]
  have hd : edges c [(true, false), (true, false), (false, false)] d = ({ d with sel := .ir } : Device).withTap .captureIr := by
    simp [edges, edge_eq, act, h, nextTap, Device.withTap, scanDrTarget]
  rw [hl, cycleDevice_append_last, ← hl, hc, edges_append, hd, edges_scan c bits _ _ _ _ _ _ (Or.inr rfl)]
  have hr : ({ d with sel := .ir } : Device).reg .ir = d.ir := rfl
  simp [hr, scanned]

/-- A DR scan from `Idle` selects DR, or BYP (R136), shifts, and commits it (R187). -/
theorem cycleDevice_drCycles (c : Config) (bits : List Bool) (d : Device) (h : d.tap = .idle) :
    cycleDevice c (drCycles bits) d =
      (((({ d with sel := scanDrTarget c d } : Device).setReg (scanDrTarget c d)
          (scanned c (d.reg (scanDrTarget c d)) bits)).update c).withTap .idle).latch false false false := by
  have hc : drCycles bits = ([(true, false), (false, false)] ++
      ([(false, false)] ++ dataCycles bits ++ [(true, false), (true, false), (false, false)])) := by
    simp [drCycles]
  have hl : drCycles bits = ([(true, false), (false, false), (false, false)] ++ dataCycles bits ++
      [(true, false), (true, false)]) ++ [(false, false)] := by
    simp [drCycles]
  have hd : edges c [(true, false), (false, false)] d =
      ({ d with sel := scanDrTarget c d } : Device).withTap .captureDr := by
    simp [edges, edge_eq, act, h, nextTap, Device.withTap, scanDrTarget]
  rw [hl, cycleDevice_append_last, ← hl, hc, edges_append, hd, edges_scan c bits _ _ _ _ _ _ (Or.inl rfl)]
  have hr : ∀ r, ({ d with sel := scanDrTarget c d } : Device).reg r = d.reg r := fun r => by cases r <;> rfl
  simp [hr, scanned]

end Sys2Proof.Machine
end

