-- ==== Sys2Proof/Tests/Slice0.lean ====
section
/-! SUPPORT. The model's own tests. Expected results are the spec's: 95_test_vectors.md (V-…, P…), 30_encoding.md R105 and
the worked traces of 40 to 45. The last part gives, for each obligation with hypotheses, a state that meets them. -/

namespace Sys2Proof.Tests

-- One theorem at a time: `decide +kernel` in many threads at once takes too much stack memory.
set_option Elab.async false

open Sys2Proof Sys2Proof.Machine

/-! ### Small states -/

/-- The next state of an outcome. -/
def after : Host.Outcome State Fault Refusal → Option State
  | .next s => some s
  | .fault _ => none
  | .refused _ => none

/-- The reason of a refusal. -/
def refusal : Host.Outcome State Fault Refusal → Option Refusal
  | .next _ => none
  | .fault _ => none
  | .refused r => some r

theorem next_of_after {o : Host.Outcome State Fault Refusal} {t : State} (h : after o = some t) : o = .next t := by
  cases o with
  | next s => exact congrArg _ (Option.some.inj h)
  | fault f => cases h
  | refused r => cases h

theorem exists_next {o : Host.Outcome State Fault Refusal} (h : (after o).isSome = true) : ∃ t, o = .next t := by
  obtain ⟨t, ht⟩ := Option.isSome_iff_exists.mp h
  exact ⟨t, next_of_after ht⟩

/-- Configuration E, link ready, pins taken, four words of memory. -/
def base : State :=
  { State.reset with ready := true, pinsOwned := true, dev := { Device.powerOn with mem := attachWords [0, 0, 0, 0] } }

/-- `base` with another device. -/
def onDev (d : Device) : State := { base with dev := d }

/-- `base` with TCK high, ready for a falling edge. -/
def high (tap : TapState) (sel : RegName) (phase : Phase) (tms tdi : Bool) (r : ShiftReg) : State :=
  onDev (({ base.dev with tap := tap, sel := sel, phase := phase, tck := true, tms := tms, tdi := tdi } : Device).setReg sel r)

/-- Power-on with the bit-bang backend, link ready, pins taken. -/
def bitBang : State := { base with cfg := { base.cfg with backend := .bitBang } }

/-- The device an event leaves. -/
def devAfter (i : Instr) (s : State) : Option Device := (after (exec i s)).map (·.dev)

/-- The result an event returns. -/
def resultOf (i : Instr) (s : State) : Option Result := (after (exec i s)).bind (·.result)

/-! ### WellFormed refuses each ill-formed term -/

/-- A list of 2^32 entries has no 32-bit count. -/
theorem countFits_too_long {α : Type} (a : α) (n : Nat) (h : n = 2 ^ 32) : countFits (List.replicate n a) = false := by
  subst h
  exact decide_eq_false (by rw [List.length_replicate]; exact Nat.lt_irrefl _)

theorem test_wf_update_ir (n : Nat) (h : n = 2 ^ 32) : (Instr.updateIr (List.replicate n true)).wellFormed = false :=
  countFits_too_long _ _ h

theorem test_wf_update_dr (n : Nat) (h : n = 2 ^ 32) : (Instr.updateDr (List.replicate n false)).wellFormed = false :=
  countFits_too_long _ _ h

theorem test_wf_emu_attach (n : Nat) (h : n = 2 ^ 32) : (Instr.emuAttach (List.replicate n 0#32)).wellFormed = false :=
  countFits_too_long _ _ h

theorem test_wf_null_ir (n : Nat) (h : n = 2 ^ 32) : (Instr.null (.updateIr (List.replicate n true))).wellFormed = false :=
  countFits_too_long _ _ h

theorem test_wf_null_dr (n : Nat) (h : n = 2 ^ 32) : (Instr.null (.updateDr (List.replicate n true))).wellFormed = false :=
  countFits_too_long _ _ h

/-! ### Decoding, one record of each row written out (30_encoding.md R88, R105; 95_test_vectors.md §2.1) -/

theorem test_decode_pin_tck : decode [0x01#8, 0x00#8] = .ok (.pinTck false) [] ∧
    decode [0x01#8, 0x01#8] = .ok (.pinTck true) [] := by decide +kernel

theorem test_decode_pin_tms : decode [0x02#8, 0x01#8] = .ok (.pinTms true) [] := by decide +kernel

theorem test_decode_pin_tdi : decode [0x03#8, 0x01#8] = .ok (.pinTdi true) [] := by decide +kernel

theorem test_decode_pin_tdo : decode [0x04#8] = .ok .pinTdo [] := by decide +kernel

theorem test_decode_clock : decode [0x05#8, 0x02#8] = .ok (.clock true false) [] ∧
    decode [0x05#8, 0x01#8] = .ok (.clock false true) [] ∧
    decode [0x05#8, 0x03#8] = .ok (.clock true true) [] := by decide +kernel

theorem test_decode_init : decode [0x10#8] = .ok .init [] := by decide +kernel

theorem test_decode_reset : decode [0x11#8, 0x06#8] = .ok .reset [0x06#8] := by decide +kernel

theorem test_decode_read_id : decode [0x12#8] = .ok .readId [] := by decide +kernel

/-- Payload bits 7..3 are ignored. -/
theorem test_decode_update_ir :
    decode [0x13#8, 0x05#8, 0#8, 0#8, 0#8, 0x13#8] = .ok (.updateIr [true, true, false, false, true]) [] ∧
    decode [0x13#8, 0x03#8, 0#8, 0#8, 0#8, 0xFD#8] = .ok (.updateIr [true, false, true]) [] := by decide +kernel

theorem test_decode_update_dr :
    decode [0x14#8, 0x0C#8, 0#8, 0#8, 0#8, 0xBC#8, 0x0A#8] =
      .ok (.updateDr [false, false, true, true, true, true, false, true, false, true, false, true]) [] ∧
    decode [0x14#8, 0#8, 0#8, 0#8, 0#8] = .ok (.updateDr []) [] ∧
    decode [0x14#8, 0x21#8, 0#8, 0#8, 0#8, 1#8, 0#8, 0#8, 0#8, 1#8] =
      .ok (.updateDr ([true] ++ List.replicate 31 false ++ [true])) [] := by decide +kernel

theorem test_decode_tick : decode [0x15#8, 0x03#8, 0#8, 0#8, 0#8] = .ok (.tick 3#32) [] := by decide +kernel

theorem test_decode_teardown : decode [0x16#8] = .ok .teardown [] := by decide +kernel

theorem test_decode_null : decode [0x1F#8, 0x11#8] = .ok (.null .reset) [] ∧
    decode [0x1F#8, 0x14#8, 0x04#8, 0#8, 0#8, 0#8, 0x0B#8] = .ok (.null (.updateDr [true, true, false, true])) [] := by
  decide +kernel

theorem test_decode_emu_attach :
    decode [0x20#8, 1#8, 0#8, 0#8, 0#8, 0x78#8, 0x56#8, 0x34#8, 0x12#8] = .ok (.emuAttach [0x12345678#32]) [] ∧
    decode [0x20#8, 0#8, 0#8, 0#8, 0#8] = .ok (.emuAttach []) [] := by decide +kernel

theorem test_decode_emu_read : decode [0x21#8, 0xFC#8, 0xFF#8, 0xFF#8, 0xFF#8] = .ok (.emuRead 0xFFFFFFFC#32) [] := by
  decide +kernel

theorem test_decode_illegal : ∀ bs ∈ [[0x00#8], [0x06#8], [0x0F#8], [0x17#8], [0x1E#8], [0x22#8], [0xFF#8], [0x01#8, 0x02#8],
    [0x05#8, 0x04#8], [0x1F#8, 0x1F#8, 0x11#8], [0x1F#8, 0x10#8], [0x1F#8, 0x20#8, 0#8, 0#8, 0#8, 0#8]],
    decode bs = .illegal := by decide +kernel

theorem test_decode_truncated : ∀ bs ∈ [[0x14#8, 8#8, 0#8, 0#8], [0x14#8, 9#8, 0#8, 0#8, 0#8, 0xFF#8],
    [0x20#8, 2#8, 0#8, 0#8, 0#8, 1#8, 0#8, 0#8, 0#8], [0x1F#8], [0x01#8], [0x05#8]], decode bs = .truncated := by decide +kernel

theorem test_decode_program : decodeProgram [0x11#8, 0x06#8, 0x11#8] = ([.reset], .illegalEvent) := by decide +kernel

/-! ### One or two vectors an event -/

/-- V-T4: the edge moves from `Idle`, and leaves the select alone. -/
theorem test_pin_tck_moves : devAfter (.pinTck false) (high .idle .dr .none true false .powerOn) =
    some { (high .idle .dr .none true false .powerOn).dev with tap := .scanDr, tck := false } := by decide +kernel

/-- V-S3: `Shift-DR`, TDI 1. -/
theorem test_pin_tck_shifts : (devAfter (.pinTck false) (high .shiftDr .dr .none false true ⟨6#32, 3, 0#32⟩)).map
    (fun d => (d.tap, d.dr)) = some (.shiftDr, ⟨0xD#32, 4, 0#32⟩) := by decide +kernel

/-- V-T4: the edge uses the level latched last. -/
theorem test_pin_tms_latest : ((after (exec (.pinTms true) (high .idle .dr .none false false .powerOn))).bind
    (devAfter (.pinTck false))).map (·.tap) = some .scanDr := by decide +kernel

/-- R112: TDI is latched, no action. -/
theorem test_pin_tdi : devAfter (.pinTdi true) base = some { base.dev with tdi := true } := by decide +kernel

/-- V-T4: no state change. -/
theorem test_pin_tdo : devAfter .pinTdo base = some base.dev := by decide +kernel

/-- V-S3: `Pause-DR` stays, nothing shifted. -/
theorem test_clock_pause : (devAfter (.clock false true) (onDev { base.dev with tap := .pauseDr, dr := ⟨6#32, 3, 0#32⟩ })).map
    (fun d => (d.tap, d.dr, d.tck)) = some (.pauseDr, ⟨6#32, 3, 0#32⟩, false) := by decide +kernel

/-- V-S3: the commit of 0b1101, count 4, is 0xB. -/
theorem test_clock_commit : (devAfter (.clock true false) (onDev { base.dev with tap := .updateDr, dr := ⟨0xD#32, 4, 0#32⟩ })).map
    (fun d => (d.tap, d.dr.hold, d.phase)) = some (.scanDr, 0xB#32, .none) := by decide +kernel

/-- P6, event 4. -/
theorem test_init : (after (exec .init State.reset)).map (fun s => (s.ready, s.pinsOwned, s.result)) =
    some (true, false, some .ok) := by decide +kernel

/-- V-X3, row 2: a reset in `Shift-DR` commits and writes `mem[1] = 5`. -/
theorem test_reset_writes : (devAfter .reset
    (onDev { base.dev with tap := .shiftDr, dr := ⟨5#32, 3, 0#32⟩, phase := .addr 4#32 })).map
    (fun d => (d.tap, d.phase, d.dr.hold, d.mem)) = some (.idle, .none, 5#32, attachWords [0, 5, 0, 0]) := by decide +kernel

/-- V-X5, row 1. -/
theorem test_reset_unready : exec .reset State.reset = .next { State.reset with result := some .transportError } :=
  next_of_after (by decide +kernel)

/-- V-X1: `read_id`. -/
theorem test_read_id : (after (exec .readId base)).map (fun s => (s.dev.ir.hold, s.dev.ir.count, s.dev.phase, s.draws)) =
    some (0xFFFFFFFF#32, 32, .none, 39) := by decide +kernel

/-- V-X5: refused while the pins are released. -/
theorem test_read_id_released : refusal (exec .readId { base with pinsOwned := false }) = some .pinsReleased := by
  decide +kernel

/-- V-X1: `update_ir 5, 0x13`, 12 cycles. -/
theorem test_update_ir : (after (exec (.updateIr [true, true, false, false, true]) base)).map
    (fun s => (s.dev.tap, s.dev.ir, s.dev.phase, s.draws)) = some (.idle, ⟨0x19#32, 5, 0x13#32⟩, .armed, 12) := by
  decide +kernel

/-- V-X5: `ready` is checked before `pins_owned`. -/
theorem test_update_ir_unready : resultOf (.updateIr [true, true, false, false, true]) State.reset = some .transportError := by
  decide +kernel

/-- V-S1, row 1. -/
theorem test_update_dr : (devAfter (.updateDr (bitsOf 32 0xDEADBEEF)) base).map (·.dr) =
    some ⟨0xF77DB57B#32, 32, 0xDEADBEEF#32⟩ := by decide +kernel

/-- V-X1: a 33-bit scan keeps the last 32 bits; 39 cycles. -/
theorem test_update_dr_long : (after (exec (.updateDr (bitsOf 33 0x100000002)) base)).map
    (fun s => (s.dev.dr.hold, s.dev.dr.count, s.draws)) = some (0x80000001#32, 33, 39) := by decide +kernel

/-- V-X4, row 4: from `Scan-IR`. -/
theorem test_tick_scan_ir : (devAfter (.tick 3#32) (onDev { base.dev with tap := .scanIr })).map
    (fun d => (d.tap, d.sel, d.ir.count)) = some (.shiftIr, .ir, 1) := by decide +kernel

/-- P4, event 9: the edge in `Update-DR` writes `mem[2] = 0xA5`. -/
theorem test_tick_commits : (devAfter (.tick 1#32)
    (onDev { base.dev with tap := .updateDr, dr := ⟨0xA5#32, 8, 8#32⟩, phase := .addr 8#32 })).map
    (fun d => (d.tap, d.phase, d.mem)) = some (.idle, .none, attachWords [0, 0, 0xA5, 0]) := by decide +kernel

/-- V-X5. -/
theorem test_teardown : (after (exec .teardown base)).map (fun s => (s.pinsOwned, s.ready, s.result)) =
    some (false, true, some .ok) := by decide +kernel

/-- 95_test_vectors.md §2.7: null comes before zero length and before `ready`. -/
theorem test_null : resultOf (.null (.updateDr [])) State.reset = some .invalidArgument := by decide +kernel

/-- 95_test_vectors.md §2.4: an attach leaves `Addr(0xC)`. -/
theorem test_emu_attach : (devAfter (.emuAttach [1#32, 2#32, 3#32, 4#32]) (onDev { base.dev with phase := .addr 0xC#32 })).map
    (fun d => (d.phase, d.mem.words, d.mem.readWord 3)) = some (.addr 0xC#32, 4, 4#32) := by decide +kernel

/-- 95_test_vectors.md §2.4: the low address bits are ignored. -/
theorem test_emu_read : resultOf (.emuRead 0xD#32) (onDev { base.dev with mem := attachWords [0, 0, 0, 0x12345678#32] }) =
    some (.okWord 0x12345678#32) := by decide +kernel

/-- 95_test_vectors.md §2.7. -/
theorem test_emu_read_bit_bang : refusal (exec (.emuRead 0#32) bitBang) = some .emulatorOnly := by decide +kernel

/-! ### Pairing, the step and the host -/

/-- 95_test_vectors.md §2.4: the last word and the first address past the array. -/
theorem test_pair_write : (drCommitHook base.cfg { base.dev with phase := .addr 0xF#32 } 7#32).mem = attachWords [0, 0, 0, 7] ∧
    (drCommitHook base.cfg { base.dev with phase := .addr 0x10#32 } 7#32).mem = base.dev.mem := by decide +kernel

/-- 95_test_vectors.md §2.7: `ADDR_INSTR = 0x20` does not fit `IR_LEN = 5`. -/
theorem test_config_invalid : refusal (step { base with cfg := { base.cfg with addrInstr := 0x20#32 } }) = some .configInvalid ∧
    refusal (step { base with cfg := { base.cfg with irLen := 0 } }) = some .configInvalid := by decide +kernel

/-- P1, event 1, from power-on. -/
theorem test_step_init : (after (step (State.reset.withFetchWord 8 0x10))).map (·.ready) = some true := by decide +kernel

/-- The opcode table's first and last words of the map. -/
theorem test_table_words : decodeTableWord 8 0x10 = some .init ∧ decodeTableWord 16 0x0105 = some (.clock false true) := by
  decide +kernel

/-- V-H1: the first write of `halt_pulse` with 0x35 in the word is 0x3F. -/
theorem test_halt_field : (after (hostStep .main (.modify 0x80#32 (haltMask base.cfg) 0#32)
    (onDev { base.dev with mem := attachWords (List.replicate 32 0#32 ++ [0x35#32]) }))).map (·.agenda .main) =
    some (issue (writeWordEvents base.cfg 0x80#32 0x3F#32)) := by decide +kernel

/-- V-H3. -/
theorem test_postcode_word : postcodeWord base.cfg 0xF2#8 = 0xF2#32 ∧
    postcodeWord { base.cfg with postcodeShift := 8 } 0xF2#8 = 0xF200#32 := by decide +kernel

/-- V-H5: the mismatch at word 1. -/
theorem test_verify_mismatch : (after (hostStep .main (.compareWords 1 [1#32, 2#32] 0#32)
    (onDev { base.dev with mem := attachWords [0, 9, 2] }))).map (fun s => (s.host.log, s.agenda .main)) =
    some ([⟨1, 1#32, 9#32⟩], postcodeOps base.cfg 0x6#8 ++ [.fail (.mismatch 1 1#32 9#32)]) := by decide +kernel

/-- R222: a direct call of `verify` with `VERIFY_ENABLED` clear does nothing (log 28). -/
theorem test_verify_disabled : (after (hostStep .main (.call (.verify [1#32] 0#32))
    { base with cfg := { base.cfg with verifyEnabled := false } })).map (·.agenda .main) = some [] := by decide +kernel

/-- R79: the slot `split` begins the next record as its pin events. -/
theorem test_split : (after (step { base with program := [0x05#8, 0x01#8], inputs := [.split] })).map
    (fun s => (s.program, s.agenda .main)) =
    some ([], [.event (.pinTms false), .event (.pinTdi true), .event (.pinTck true), .sampleTdo, .event (.pinTck false),
      .returnResult .ok]) := by decide +kernel

/-! ### Witnesses: each obligation's hypotheses are met -/

/-- A state whose main context has `ops` to do, with 64 words of memory. -/
def hostState (ops : List HostOp) : State :=
  { base with
    dev := { base.dev with mem := attachWords ((List.replicate 64 0#32).set 32 0x35#32) }
    host := { base.host with main := ⟨ops, none, []⟩ } }

/-- A state whose program is `bs`. -/
def progState (bs : List Byte) : State := { base with program := bs }

theorem prog_runs (bs : List Byte) : (progState bs).runsProgram :=
  ⟨nofun, nofun, rfl, rfl, rfl⟩

theorem base_can_scan : base.canScan := ⟨by decide, by decide, by decide⟩

theorem host_can_scan (ops : List HostOp) : (hostState ops).canScan := ⟨rfl, rfl, rfl⟩

theorem count_exact (n : Nat) : countExact base.cfg n := fun _ h => nomatch h

/-- DecodeOfEncodeIsIdentity: every constructor with a check, and one without. -/
theorem witness_DecodeOfEncodeIsIdentity : ∀ i ∈ [Instr.updateIr [true], .updateDr (bitsOf 12 0xABC), .emuAttach [1#32],
    .null (.updateDr []), .pinTdo], i.wellFormed = true := by decide +kernel

/-- IllegalRecordsAreRefused: each kind of illegal record, at the ends of its range. -/
theorem witness_IllegalRecordsAreRefused :
    (configValid base.cfg = true ∧ ∀ bs, (progState bs).runsProgram) ∧
    illegalRecord 0x00#8 [] ∧ illegalRecord 0x06#8 [] ∧ illegalRecord 0x0F#8 [] ∧ illegalRecord 0x17#8 [] ∧
    illegalRecord 0x1E#8 [] ∧ illegalRecord 0x22#8 [] ∧ illegalRecord 0xFF#8 [] ∧
    illegalRecord 0x01#8 [0x02#8] ∧ illegalRecord 0x03#8 [0x80#8] ∧ illegalRecord 0x05#8 [0x04#8] ∧
    illegalRecord 0x1F#8 [0x10#8] ∧ illegalRecord 0x1F#8 [0x17#8] := by
  refine ⟨⟨by decide, prog_runs⟩, .inl (by decide), .inl (by decide), .inl (by decide), .inl (by decide), .inl (by decide),
    .inl (by decide), .inl (by decide), .inr (.inl ⟨by decide, _, _, rfl, 1, by decide, by decide⟩),
    .inr (.inl ⟨by decide, _, _, rfl, 7, by decide, by decide⟩),
    .inr (.inr (.inl ⟨by decide, _, _, rfl, 2, by decide, by decide⟩)),
    .inr (.inr (.inr ⟨by decide, _, _, rfl, .inl (by decide)⟩)), .inr (.inr (.inr ⟨by decide, _, _, rfl, .inr (by decide)⟩))⟩

/-- TruncatedRecordsAndProgramDecode: a cut record, and a byte string for each case of `decode`, a record with unused payload
bits set among them (R92). -/
theorem witness_TruncatedRecordsAndProgramDecode :
    (configValid base.cfg = true ∧ (progState ((encode (.tick 3#32)).take 4)).runsProgram ∧
      (Instr.tick 3#32).wellFormed = true ∧ 4 < (encode (.tick 3#32)).length) ∧
    decode [0x13#8, 3#8, 0#8, 0#8, 0#8, 0xFD#8] = .ok (.updateIr [true, false, true]) [] ∧
    decode [0x06#8] = .illegal ∧ decode [0x15#8] = .truncated :=
  ⟨⟨by decide, prog_runs _, by decide, by decide⟩, by decide +kernel, by decide, by decide⟩

theorem witness_StepRunsTheDecodedEvent : configValid base.cfg = true ∧ (progState [0x11#8, 0x10#8]).runsProgram ∧
    decode (progState [0x11#8, 0x10#8]).program = .ok .reset [0x10#8] ∧ (progState []).runsProgram ∧
    (progState []).program = [] :=
  ⟨by decide, prog_runs _, by decide, prog_runs _, rfl⟩

theorem witness_InvalidConfigurationIsRejected : configValid base.cfg = true ∧
    configValid { base.cfg with irLen := 33 } = false ∧ configValid { base.cfg with haltShift := 29 } = false ∧
    configValid { base.cfg with softResetShift := 3 } = false ∧ configValid { base.cfg with postcodeShift := 4 } = false := by
  decide

theorem witness_OnlyFallingEdgesAct : base.dev.tck = false := by decide

/-- ScanEdgeSelects, CaptureEdgeClearsTheCount, ShiftEdgeAppendsTdi, EdgesWithoutAction. -/
theorem witness_edges : (∀ tap ∈ [TapState.scanDr, .scanIr, .captureDr, .captureIr, .shiftDr, .shiftIr, .reset, .pauseIr],
    (high tap .dr .none false true .powerOn).dev.tck = true ∧ (high tap .dr .none false true .powerOn).dev.tap = tap ∧
      (high tap .dr .none false true .powerOn).dev.tms = false) ∧
    (high .shiftDr .dr .none true true .powerOn).dev.tms = true ∧ base.cfg.countModulus ≠ some 0 := by decide

/-- IrAndBypassCommitEdge and DrCommitEdge: each active register, each phase, each Update state. -/
theorem witness_commit_edges : ∀ sel ∈ [RegName.ir, .byp, .dr], ∀ phase ∈ [Phase.none, .armed, .addr 8#32],
    ∀ tap ∈ [TapState.updateDr, .updateIr], ∃ s : State, s.dev.tck = true ∧ s.dev.tap = tap ∧ s.dev.sel = sel ∧
      s.dev.phase = phase ∧ 0xB#32 = rev32 (s.dev.reg sel).acc >>> (32 - min (max (s.dev.reg sel).count 1) 32) := by
  intro sel hs phase hp tap ht
  refine ⟨high tap sel phase false false ⟨0xD#32, 4, 0#32⟩, ?_⟩
  revert sel phase tap
  decide +kernel

/-- CommitArithmetic: each clause at the ends of its range, with the values of V-S1 and V-S2. -/
theorem witness_CommitArithmetic : commitValue 5#32 0 = 1#32 ∧ commitValue 6#32 0 = 0#32 ∧ commitValue 1#32 1 = 1#32 ∧
    commitValue 0x3D5#32 12 = 0xABC#32 ∧ commitValue 1#32 31 = 0x40000000#32 ∧ commitValue 0xF77DB57B#32 32 = 0xDEADBEEF#32 ∧
    commitValue 0x1E6A2C48#32 40 = 0x12345678#32 := by decide +kernel

/-- ScanCommitsItsValue, OverLongAndZeroCountCommits (with no modulus, and a scan of 4 bits counted modulo 3),
PausedScanIsUnchanged, OnlyUpdateEdgesCommit. -/
theorem witness_scans : (∀ tap ∈ [TapState.captureDr, .captureIr], ∃ d : Device, d.tap = tap) ∧
    (1 ≤ (bitsOf 1 1).length ∧ (bitsOf 32 0xDEADBEEF).length ≤ 32 ∧ 32 < (bitsOf 33 0x100000002).length) ∧
    (∀ n, countExact base.cfg n) ∧ base.cfg.countModulus ≠ some 0 ∧
    (({ base.cfg with countModulus := some 3 } : Config).countModulus ≠ some 0 ∧ min (max (4 % 3) 1) 32 = 1) ∧
    (∃ d : Device, d.tap = .shiftIr) ∧ ∃ d : Device, d.tap ≠ .updateDr ∧ d.tap ≠ .updateIr := by
  refine ⟨fun tap _ => ⟨{ base.dev with tap := tap }, rfl⟩, by decide +kernel, count_exact, nofun,
    ⟨by decide, rfl⟩, ⟨{ base.dev with tap := .shiftIr }, rfl⟩, base.dev, by decide, by decide⟩

/-- BoundedWordWrite: the last word in range, the first out of range. -/
theorem witness_BoundedWordWrite : base.dev.mem.wf = true ∧ (0xF#32 : Word).toNat / 4 < base.dev.mem.words ∧
    base.dev.mem.words ≤ (0x10#32 : Word).toNat / 4 := by decide +kernel

/-- FallingEdgeMemoryFrame: a commit that writes word 2, seen from its two neighbours. -/
theorem witness_FallingEdgeMemoryFrame : ∃ s t : State, exec (.pinTck false) s = .next t ∧ s.dev.tck = true ∧
    s.dev.tap = .updateDr ∧ s.dev.sel = .dr ∧ s.dev.phase = .addr 8#32 ∧ 7 < 4 * wordIndex 8#32 ∧
    4 * wordIndex 8#32 + 4 ≤ 12 :=
  ⟨high .updateDr .dr (.addr 8#32) false false ⟨5#32, 3, 0#32⟩, _, rfl, by decide, by decide, by decide, by decide, by decide,
    by decide⟩

/-- DirectReadReturnsTheWord and AttachBindsTheWords. -/
theorem witness_DirectRead : base.cfg.backend = .emulator ∧ (0xF#32 : Word).toNat / 4 < base.dev.mem.words ∧
    base.dev.mem.words ≤ (0x10#32 : Word).toNat / 4 := by decide +kernel

theorem witness_PhysicalBackendRefusesReads : bitBang.cfg.backend = .bitBang := by decide

/-- OperationMakesItsCycles: every call, the empty `tick` among them. -/
theorem witness_OperationMakesItsCycles : ∀ call ∈ [TransportCall.reset, .readId, .updateIr [true], .updateDr [true], .tick 0#32],
    madeOfPins call = true ∧ base.ready = true ∧ base.pinsOwned = true ∧ mayFailMidway base.cfg = false := by decide +kernel

/-- ResetEndsInIdle and ResetInShiftCommits, each phase. -/
theorem witness_reset : base.ready = true ∧ mayFailMidway base.cfg = false ∧ base.dev.tap = .idle ∧
    ∀ phase ∈ [Phase.none, .armed, .addr 4#32], ∃ s : State, s.ready = true ∧ mayFailMidway s.cfg = false ∧
      s.dev.tap = .shiftDr ∧ s.dev.sel = .dr ∧ s.dev.phase = phase := by
  refine ⟨by decide, by decide, by decide, fun phase _ => ⟨onDev { base.dev with tap := .shiftDr, phase := phase }, ?_⟩⟩
  exact ⟨rfl, rfl, rfl, rfl, rfl⟩

/-- UpdateIrFromIdle, UpdateDrFromIdle (each phase), ReadIdFromIdle, TickWaitsInIdle. -/
theorem witness_scans_from_idle : base.canScan ∧ base.dev.tap = .idle ∧ 1 ≤ (bitsOf 5 0x13).length ∧
    (∀ n, countExact base.cfg n) ∧ base.dev.ir.hold ∉ base.cfg.bypassSelect ∧
    ∀ phase ∈ [Phase.none, .armed, .addr 4#32], ∃ s : State, s.canScan ∧ s.dev.tap = .idle ∧ s.dev.phase = phase := by
  refine ⟨base_can_scan, by decide, by decide +kernel, count_exact, by decide, fun phase _ =>
    ⟨onDev { base.dev with phase := phase }, ⟨rfl, rfl, rfl⟩, rfl, rfl⟩⟩

theorem witness_UpdateDrThroughBypass : ∃ s : State, s.canScan ∧ s.dev.tap = .idle ∧ countExact s.cfg 4 ∧
    s.dev.ir.hold ∈ s.cfg.bypassSelect :=
  ⟨{ base with cfg := { base.cfg with bypassSelect := [0#32], countModulus := some 33 } }, ⟨by decide, by decide, by decide⟩,
    rfl, fun _ h => by cases h; decide, by decide⟩

/-- ReleasedPinsRefuseScans, UnreadyLinkIsTransportError, ZeroLengthScansDoNothing. -/
theorem witness_admission : (∃ s : State, s.ready = true ∧ s.pinsOwned = false) ∧ State.reset.ready = false ∧
    1 ≤ [true].length :=
  ⟨⟨{ base with pinsOwned := false }, rfl, rfl⟩, rfl, by decide⟩

/-- PartWayFailureKeepsACyclePrefix: a scan with the pins owned, and a `reset` with the pins released. -/
theorem witness_PartWayFailureKeepsACyclePrefix : ∀ x ∈ [(true, TransportCall.updateDr [true]), (false, .reset)], ∃ s : State,
    s.cfg.backend = .bitBang ∧ s.cfg.midopFail = true ∧ s.ready = true ∧ s.pinsOwned = x.1 ∧
      (needsPins x.2 = true → s.pinsOwned = true) ∧ madeOfPins x.2 = true := by
  intro x h
  refine ⟨{ bitBang with cfg := { bitBang.cfg with midopFail := true }, pinsOwned := x.1 }, rfl, rfl, rfl, rfl, ?_⟩
  revert x
  decide +kernel

/-- WriteWordEffect and WriteBlockEffect. -/
theorem witness_writes : configValid base.cfg = true ∧ base.canScan ∧ base.dev.tap = .idle ∧ countExact base.cfg 32 ∧
    base.cfg.addrInstr ∉ base.cfg.bypassSelect ∧ base.dev.mem.wf = true ∧
    ((12#32 : Word).toNat / 4 + 0) % 2 ^ 30 < base.dev.mem.words ∧
    (∀ l, 0 < l → l < [1#32, 2#32].length → (3 + l) % 2 ^ 30 ≠ (3 + 0) % 2 ^ 30) :=
  ⟨by decide, base_can_scan, by decide, count_exact 32, by decide, by decide +kernel, by decide +kernel, fun l h1 h2 => by simp at h2; omega⟩

/-- CallByPinsIsTheCall, every call made of pin events, in each of the three ways. -/
theorem witness_CallByPinsIsTheCall : ∀ call ∈ [TransportCall.reset, .readId, .updateIr [true], .updateDr [true], .tick 0#32],
    madeOfPins call = true ∧
    ∀ s ∈ [hostState [.eventByPins call], { hostState [.event (.ofCall call)] with inputs := [.split] },
        { progState (encode (.ofCall call)) with inputs := [.split] }],
      configValid s.cfg = true ∧ triggerDue s = false ∧ canMove .irq s = false ∧
      (s.inputs = [] ∧ s.agenda .main = [.eventByPins call] ∨
        s.inputs = [.split] ∧ s.agenda .main = [.event (.ofCall call)] ∨
        s.inputs = [.split] ∧ s.agenda .main = [] ∧ decode s.program = .ok (.ofCall call) []) ∧
      s.ready = true ∧ s.pinsOwned = true ∧ mayFailMidway s.cfg = false := by
  decide +kernel

/-- HaltPulseEffect. -/
theorem witness_HaltPulseEffect : ∃ s : State, configValid s.cfg = true ∧ s.cfg.backend = .emulator ∧ s.inputs = [] ∧
    triggerDue s = false ∧ canMove .irq s = false ∧ s.agenda .main = haltPulseOps s.cfg ++ [] ∧ s.canScan ∧
    s.dev.tap = .idle ∧ countExact s.cfg 32 ∧ s.cfg.addrInstr ∉ s.cfg.bypassSelect ∧ s.dev.mem.wf = true ∧
    wordIndex s.cfg.haltCtrlAddr < s.dev.mem.words :=
  ⟨hostState (haltPulseOps base.cfg), by decide, rfl, rfl, by decide, by decide, rfl, host_can_scan _, rfl, count_exact 32,
    by decide, by decide +kernel, by decide +kernel⟩

/-- ApplyTwiceIsApplyOnce: every clause of the final memory, in one state. -/
theorem witness_ApplyTwiceIsApplyOnce : ∃ s : State, configValid s.cfg = true ∧ s.cfg.backend = .emulator ∧ s.inputs = [] ∧
    triggerDue s = false ∧ canMove .irq s = false ∧
    s.agenda .main = applyOps s.cfg [0#32, 1#32, 2#32] 0#32 ++ (applyOps s.cfg [0#32, 1#32, 2#32] 0#32 ++ []) ∧
    s.ready = true ∧ s.dev.tap = .idle ∧ countExact s.cfg 32 ∧ s.cfg.addrInstr ∉ s.cfg.bypassSelect ∧ s.dev.mem.wf = true ∧
    wordIndex s.cfg.haltCtrlAddr = 32 ∧ wordIndex s.cfg.gpioDirAddr = 35 ∧ wordIndex s.cfg.postcodeAddr = 34 ∧
    s.dev.mem.words = 64 ∧ ∀ k, k < 3 → (0 + k) % 2 ^ 30 = k :=
  ⟨hostState (applyOps base.cfg [0#32, 1#32, 2#32] 0#32 ++ (applyOps base.cfg [0#32, 1#32, 2#32] 0#32 ++ [])), by decide, rfl,
    rfl, by decide, by decide, rfl, rfl, rfl, count_exact 32, by decide, by decide +kernel, by decide +kernel,
    by decide +kernel, by decide +kernel, by decide +kernel, fun k h => by omega⟩

/-- VerifyStopsAtTheFirstMismatch: a match and a mismatch. -/
theorem witness_VerifyStopsAtTheFirstMismatch : base.cfg.backend = .emulator ∧
    4#32 = 4#32 * 0#32 + 4#32 * BitVec.ofNat 32 1 ∧ wordIndex 4#32 < base.dev.mem.words ∧
    base.dev.mem.readWord (wordIndex 4#32) = 0#32 ∧ (0#32 : Word) ≠ 1#32 := by decide +kernel

/-- A run of the main context stopped after `n` of its operations, with `started` in hand and the release of the lock after
it. -/
def runState (n : Nat) (started : List HostOp) : State :=
  hostState (started ++ (mainRunOps base.cfg).drop n ++ [.release])

/-- ErrorEndsTheRun: in a run with `VERIFY_ENABLED` set, right after the `reset` of the bring-up (7 operations of a run have
been done), an error of each kind, a refusal, an ID poll whose `read_id` fails and is refused, each register read under the
bit-bang backend, and a call that fails part-way; and each kind of end inside the run's `verify`. -/
theorem witness_ErrorEndsTheRun : base.cfg.verifyEnabled = true ∧ (mainRunOps base.cfg)[6]? = some (.event .reset) ∧
    (mainRunOps base.cfg).drop 7 <:+ mainRunOps base.cfg ∧ (mainRunOps base.cfg).drop 7 ≠ [] ∧
    HostOp.runVerify ∈ (mainRunOps base.cfg).drop 7 ∧
    (∃ s s' : State, s = { runState 7 [] with ready := false } ∧ endsProcedure (.event .reset) s s' .transportError) ∧
    (∃ s s' : State, s = runState 7 [] ∧ endsProcedure (.event (.null .reset)) s s' .invalidArgument) ∧
    (∃ s : State, s = { runState 7 [] with pinsOwned := false } ∧
      endsProcedure (.event (.tick 1#32)) s s (.refused .pinsReleased)) ∧
    (∃ s s' : State, s = { runState 7 [] with ready := false } ∧ endsProcedure (.pollId 0) s s' .transportError) ∧
    (∃ s : State, s = { runState 7 [] with pinsOwned := false } ∧ endsProcedure (.pollId 9) s s (.refused .pinsReleased)) ∧
    (∀ op ∈ [HostOp.modify 0x80#32 1#32 0#32, .readRegister 0#32, .compareWords 1 [1#32] 0#32], ∃ s : State,
      s.cfg.backend = .bitBang ∧ s.agenda .main = [] ++ (mainRunOps s.cfg).drop 9 ++ [.release] ∧
        endsProcedure op s s (.refused .physicalReadRefused)) ∧
    (∃ s : State, s = runState 7 [.event (.pinTdi true)] ∧ endsProcedure .failCall s s .transportError) ∧
    ∃ s : State, s.agenda .main = [.event .init] ++ .endProcedure .verify :: [.setSeq .releasing] ∧
      endsProcedure (.fail (.mismatch 0 1#32 2#32)) s s (.mismatch 0 1#32 2#32) := by
  refine ⟨rfl, by decide +kernel, List.drop_suffix _ _, by decide +kernel, by decide +kernel,
    ⟨_, _, rfl, .inl ⟨_, rfl, rfl, .inl ⟨rfl, rfl⟩⟩⟩, ⟨_, _, rfl, .inl ⟨_, rfl, rfl, .inr ⟨rfl, rfl⟩⟩⟩,
    ⟨_, rfl, .inr (.inl ⟨_, .pinsReleased, rfl, rfl, rfl, rfl⟩)⟩,
    ⟨_, _, rfl, .inr (.inr (.inl ⟨0, rfl, nofun, .inl ⟨rfl, rfl, rfl⟩⟩))⟩,
    ⟨_, rfl, .inr (.inr (.inl ⟨9, rfl, nofun, .inr ⟨.pinsReleased, rfl, rfl, rfl⟩⟩))⟩, fun op h => ?_,
    ⟨_, rfl, .inr (.inr (.inr (.inr (.inl ⟨rfl, rfl, rfl⟩))))⟩,
    hostState [.event .init, .endProcedure .verify, .setSeq .releasing], rfl, .inr (.inr (.inr (.inr (.inr ⟨rfl, rfl⟩))))⟩
  refine ⟨{ hostState ((mainRunOps bitBang.cfg).drop 9 ++ [.release]) with cfg := bitBang.cfg }, rfl, rfl,
    .inr (.inr (.inr (.inl ⟨rfl, rfl, rfl, ?_⟩)))⟩
  simp only [List.mem_cons, List.not_mem_nil, or_false] at h
  rcases h with rfl | rfl | rfl
  · exact .inl ⟨_, _, _, rfl⟩
  · exact .inr (.inl ⟨_, rfl⟩)
  · exact .inr (.inr ⟨_, _, _, _, rfl⟩)

/-- `hostState` with `ops` on the agenda of `c`, and a link that is ready. -/
def contextState (c : ContextId) (ops : List HostOp) : State :=
  (hostState []).setAgenda c ops

/-- TriggerRunsInlineOrDefers: both values of each flag; the last operations of a run in either context, under either backend;
and a whole emulated run in either context, of either entry, with `VERIFY_ENABLED` set. -/
theorem witness_TriggerRunsInlineOrDefers :
    (∀ b, ∃ s : State, s.agenda .irq = [] ∧ s.host.workaroundApplied = b ∧ s.host.resetPending = b) ∧
    (∀ c, (contextState c [.event .teardown, .markPatched, .finish .ok, .endProcedure .run]).undisturbed c ∧
      (contextState c [.event .teardown, .markPatched, .finish .ok, .endProcedure .run]).agenda c =
        [.event .teardown, .markPatched, .finish .ok, .endProcedure .run] ++ []) ∧
    ∀ (c : ContextId) (ops : List HostOp), ops = mainRunOps base.cfg ∨ ops = bringUpOps base.cfg → ∃ s : State,
      s.undisturbed c ∧ s.cfg.backend = .emulator ∧ s.cfg.emulation = true ∧ s.ready = true ∧ s.cfg.verifyEnabled = true ∧
        s.agenda c = ops ++ [] ∧ s.cfg = base.cfg := by
  have hu : ∀ c ops, (contextState c ops).undisturbed c := fun c ops =>
    ⟨rfl, rfl, fun h => by subst h; exact ⟨rfl, rfl⟩⟩
  refine ⟨fun b => ⟨{ base with host := { base.host with workaroundApplied := b, resetPending := b } }, rfl, rfl, rfl⟩,
    fun c => ⟨hu c _, by cases c <;> rfl⟩, fun c ops _ => ⟨contextState c ops, hu c ops, rfl, rfl, rfl, rfl, ?_, rfl⟩⟩
  cases c <;> exact (List.append_nil ops).symm

/-- A handler with an event to do, and another trigger pending. -/
def handlerState (slots : List Input) : State :=
  { base with
    inputs := slots
    host := { base.host with triggerPending := true, irq := ⟨[.event (.clock true true)], none, []⟩ } }

/-- TriggerDelivery, the handler: its five operations to do, the lock free, the patch not applied. -/
theorem witness_TriggerDelivery_handler : ∃ s : State, s.undisturbed .irq ∧
    s.agenda .irq = [.setBusCancel true, .acquire, .triggerBody, .release, .setBusCancel false] ∧ s.host.lock = .free ∧
      s.host.workaroundApplied = false :=
  ⟨contextState .irq [.setBusCancel true, .acquire, .triggerBody, .release, .setBusCancel false], ⟨rfl, rfl, nofun⟩, rfl, rfl,
    rfl⟩

/-- TriggerDelivery: its first three clauses, the third with no slot, a quiet one and a split one; and a step with a running
handler and a trigger pending, and with the option clear and a trigger pending. -/
theorem witness_TriggerDelivery : configValid base.cfg = true ∧
    (∃ s : State, s.inputs = .trigger :: [] ∧ s.cfg.resetOnExternalSignal = true) ∧
    (∃ s : State, s.inputs = .trigger :: [] ∧ s.cfg.resetOnExternalSignal = false) ∧
    (∀ slots ∈ [[], [Input.quiet], [.split, .trigger]], ∃ s : State, s.inputs = slots ∧ s.inputs.head? ≠ some .trigger ∧
      s.cfg.resetOnExternalSignal = true ∧ s.host.triggerPending = true ∧ s.agenda .irq = []) ∧
    (∀ slots ∈ [[], [Input.quiet], [.split], [.trigger]], ∃ s t : State, s.inputs = slots ∧ s.agenda .irq ≠ [] ∧
      s.cfg.resetOnExternalSignal = true ∧ s.host.triggerPending = true ∧ step s = .next t) ∧
    ∃ s t : State, s.cfg.resetOnExternalSignal = false ∧ s.host.triggerPending = true ∧ s.agenda .irq = [] ∧
      step s = .next t := by
  refine ⟨by decide, ⟨{ base with inputs := [.trigger] }, rfl, rfl⟩,
    ⟨{ base with inputs := [.trigger], cfg := { base.cfg with resetOnExternalSignal := false } }, rfl, rfl⟩,
    fun slots h => ⟨{ base with inputs := slots, host := { base.host with triggerPending := true } }, rfl,
      by revert slots; decide, rfl, rfl, rfl⟩, fun slots h => ?_, ?_⟩
  · have hn : (after (step (handlerState slots))).isSome = true := by
      revert slots
      decide +kernel
    obtain ⟨t, ht⟩ := exists_next hn
    exact ⟨handlerState slots, t, rfl, nofun, rfl, rfl, ht⟩
  · exact ⟨{ base with cfg := { base.cfg with resetOnExternalSignal := false }, host := { base.host with triggerPending := true } },
      _, rfl, rfl, rfl, rfl⟩

/-- A handler that waits while `c` holds the lock, and a main context with work of its own. -/
def lockedState (c : ContextId) : State :=
  { hostState [.release] with
    host := { (hostState [.release]).host with lock := .held c, irq := ⟨[.acquire, .triggerBody], none, []⟩ } }

/-- A main context that waits while `c` holds the lock, and a handler with `ops` to do. -/
def waitingState (c : ContextId) (ops : List HostOp) : State :=
  { hostState [.acquire] with
    host := { (hostState [.acquire]).host with lock := .held c, irq := ⟨ops, none, []⟩ } }

/-- BlockedContextsIssueNothing, the lock: taken when free, and released by its holder, by either context. -/
theorem witness_BlockedContextsIssueNothing_lock : ∀ c,
    ((contextState c [.acquire]).undisturbed c ∧ (contextState c [.acquire]).agenda c = .acquire :: [] ∧
      (contextState c [.acquire]).host.lock = .free) ∧
    ∃ s : State, s.undisturbed c ∧ s.agenda c = .release :: [] ∧ s.host.lock = .held c := by
  intro c
  refine ⟨⟨⟨rfl, rfl, by rintro rfl; exact ⟨rfl, rfl⟩⟩, by cases c <;> rfl, by cases c <;> rfl⟩,
    acquireLock c (contextState c [.release]), ⟨rfl, rfl, by rintro rfl; exact ⟨rfl, rfl⟩⟩, by cases c <;> rfl, rfl⟩

/-- BlockedContextsIssueNothing: the waiting handler and the waiting main context, whoever holds the lock; and a main context
that waits for ever, with no handler or with one that is itself stuck. -/
theorem witness_BlockedContextsIssueNothing :
    (∀ c, (lockedState c).agenda .irq = .acquire :: [.triggerBody] ∧ (lockedState c).host.lock = .held c ∧
      ∃ t, step (lockedState c) = .next t) ∧
    (∀ c, (waitingState c [.triggerBody]).agenda .main = .acquire :: [] ∧
      (waitingState c [.triggerBody]).host.lock = .held c ∧ ∃ t, step (waitingState c [.triggerBody]) = .next t) ∧
    (∀ c, ∀ ops ∈ [[], [HostOp.acquire]], configValid (waitingState c ops).cfg = true ∧
      (waitingState c ops).inputs = [] ∧ triggerDue (waitingState c ops) = false ∧
      canMove .irq (waitingState c ops) = false ∧ (waitingState c ops).agenda .main = .acquire :: [] ∧
      (waitingState c ops).host.lock = .held c) := by
  refine ⟨fun c => ⟨rfl, rfl, exists_next (by cases c <;> decide +kernel)⟩,
    fun c => ⟨rfl, rfl, exists_next (by cases c <;> decide +kernel)⟩, fun c => ?_⟩
  cases c <;> decide +kernel

/-- `hostState` whose reset vector is `vec`, under `soft_reset_target`. -/
def softResetState (vec : Word) : State :=
  { hostState (softResetOps { base.cfg with resetVectorAddr := vec }) with cfg := { base.cfg with resetVectorAddr := vec } }

/-- CoreResetFlag, the register-map check: a report of each kind in range, one with the word out of range, and one under the
bit-bang backend. -/
theorem witness_CoreResetFlag_check : ∀ p ∈ [(hostState [], false),
      (onDev { base.dev with mem := attachWords (List.replicate 64 0#32) }, true), (base, true), (bitBang, true)], ∀ s x, p = (s, x) →
    (s.cfg.backend = .emulator → wordIndex s.cfg.haltCtrlAddr < s.dev.mem.words →
      (x = true ↔ s.dev.mem.readWord (wordIndex s.cfg.haltCtrlAddr) &&& (haltMask s.cfg ||| softResetMask s.cfg) = 0#32)) ∧
    (s.cfg.backend = .bitBang ∨ s.dev.mem.words ≤ wordIndex s.cfg.haltCtrlAddr → x = s.host.registerMapOk) := by
  intro p h s x hp
  simp only [List.mem_cons, List.not_mem_nil, or_false] at h
  rcases h with rfl | rfl | rfl | rfl <;> cases hp <;> decide +kernel

/-- CoreResetFlag: the halt-control word and the reset vector apart, both in range; and the same word. -/
theorem witness_CoreResetFlag : ∀ vec ∈ [0x84#32, base.cfg.haltCtrlAddr],
    (configValid (softResetState vec).cfg = true ∧ (softResetState vec).cfg.backend = .emulator ∧
      (softResetState vec).inputs = [] ∧ triggerDue (softResetState vec) = false ∧
      canMove .irq (softResetState vec) = false ∧
      (softResetState vec).agenda .main = softResetOps (softResetState vec).cfg ++ [] ∧
      (softResetState vec).dev.tap = .idle ∧ (softResetState vec).cfg.addrInstr ∉ (softResetState vec).cfg.bypassSelect ∧
      (softResetState vec).dev.mem.wf = true ∧
      wordIndex (softResetState vec).cfg.haltCtrlAddr < (softResetState vec).dev.mem.words ∧
      wordIndex (softResetState vec).cfg.resetVectorAddr < (softResetState vec).dev.mem.words) ∧
    (softResetState vec).canScan ∧ countExact (softResetState vec).cfg 32 := by
  intro vec h
  refine ⟨?_, ⟨rfl, rfl, rfl⟩, fun _ h => nomatch h⟩
  simp only [List.mem_cons, List.not_mem_nil, or_false] at h
  rcases h with rfl | rfl <;> decide +kernel

/-- BoundedPollTimesOut: from the bring-up of a run on, the smallest bound, and another; a poll one read short of its bound and
one with no bound, in a state whose `read_id` returns an id. -/
theorem witness_BoundedPollTimesOut : (∀ b, ∃ s : State, s.cfg.pollBound = some b ∧
      bringUpOps s.cfg <:+ mainRunOps s.cfg ∧ bringUpOps s.cfg ≠ [] ∧ s.agenda .main = bringUpOps s.cfg ++ [.release]) ∧
    ∀ bound ∈ [none, some 1], ∃ s u : State, ∃ id, s.cfg.pollBound = bound ∧
      (∀ b, s.cfg.pollBound = some b → 0 < b) ∧ exec .readId s = .next u ∧ u.result = some (.okId id) := by
  refine ⟨fun b => ⟨{ hostState (bringUpOps { base.cfg with pollBound := some b } ++ [.release]) with
      cfg := { base.cfg with pollBound := some b } }, rfl, List.suffix_append _ _, nofun, rfl⟩, fun bound h => ?_⟩
  refine ⟨{ base with cfg := { base.cfg with pollBound := bound } }, _, _, rfl, fun b hb => ?_, rfl, rfl⟩
  simp only [List.mem_cons, List.not_mem_nil, or_false] at h
  rcases h with rfl | rfl
  · cases hb
  · cases hb; exact Nat.one_pos

/-- EventsLeaveTheHostAlone. -/
theorem witness_EventsLeaveTheHostAlone : ∃ t, exec (.updateDr [true]) base = .next t :=
  exists_next (by decide +kernel)

/-- StepNeverClearsLatches. -/
theorem witness_StepNeverClearsLatches : ∃ s t : State, step s = .next t ∧ s.ready = true ∧ s.host.workaroundApplied = true := by
  refine ⟨{ progState [0x16#8] with host := { base.host with workaroundApplied := true } }, ?_⟩
  obtain ⟨t, h⟩ := exists_next (o := step { progState [0x16#8] with host := { base.host with workaroundApplied := true } })
    (by decide +kernel)
  exact ⟨t, h, rfl, rfl⟩

/-- StepKeepsMemoryCanonical, StepKeepsColumnSelect, BypassKeepsItsValues: a step that shifts, in the DR column. -/
theorem witness_invariants : ∃ s t : State, step s = .next t ∧ s.dev.mem.wf = true ∧ s.dev.columnSelect ∧
    inDrColumn s.dev.tap = true ∧ s.bypassUnused := by
  have h : (after (step { progState [0x05#8, 0x01#8] with dev := { base.dev with tap := .shiftDr } })).isSome = true := by
    decide +kernel
  obtain ⟨t, h⟩ := exists_next h
  exact ⟨_, t, h, by decide +kernel, ⟨by decide, by decide⟩, by decide, rfl, by decide⟩

/-- PowerOnInvariants: the default `BYPASS_SELECT`. -/
theorem witness_PowerOnInvariants : Config.exampleE.bypassSelect = [] := rfl

end Sys2Proof.Tests
end

section
/-! PROOF. The configuration check of R10: what each constraint says of the parameters, and which refusals a step can answer. -/

namespace Sys2Proof.Machine

/-- The check of R10, constraint by constraint; the soft-reset bit lies below or above the halt field. -/
theorem configValid_iff (c : Config) :
    configValid c = true ↔
      1 ≤ c.irLen ∧ c.irLen ≤ 32 ∧ c.addrInstr.toNat < 2 ^ c.irLen ∧ c.haltShift + 4 ≤ 32 ∧
        (c.softResetShift.val < c.haltShift ∨ c.haltShift + 3 < c.softResetShift.val) ∧
        c.postcodeShift % 8 = 0 ∧ c.postcodeShift ≤ 24 := by
  have houtside : ¬ (c.haltShift ≤ c.softResetShift.val ∧ c.softResetShift.val ≤ c.haltShift + 3) ↔
      c.softResetShift.val < c.haltShift ∨ c.haltShift + 3 < c.softResetShift.val := by
    omega
  rw [← houtside]
  simp only [configValid, Bool.and_eq_true, Bool.not_eq_true', ← Bool.not_eq_true, decide_eq_true_eq, and_assoc]

/-- The refusals of the program's next record: a record that does not decode (R97, R98), or the event's own (R172, R199). -/
theorem fetchStep_refused {s : State} {r : Refusal} (h : fetchStep s = .refused r) :
    r = .illegalEvent ∨ r = .truncatedEvent ∨ r = .pinsReleased ∨ r = .emulatorOnly := by
  unfold fetchStep at h
  split at h
  · cases h
  · split at h
    · exact .inr (.inr (exec_refused h))
    · cases h; exact .inl rfl
    · cases h; exact .inr (.inl rfl)

/-- A refused step is the configuration's refusal, or the program's next record was refused: triggers, events begun as pin
events and operations of a procedure always go on. -/
theorem step_refused {s : State} {r : Refusal} (h : step s = .refused r) :
    (configValid s.cfg = false ∧ r = .configInvalid) ∨
      (configValid s.cfg = true ∧ fetchStep { s with inputs := s.inputs.tail } = .refused r) := by
  rcases step_cases s with ⟨hc, hs⟩ | ⟨hc, ⟨rest, -, hs⟩ | ⟨rest, -, hs⟩ | ⟨-, -, u, rfl, hquiet⟩⟩
  · rw [hs] at h; cases h; exact .inl ⟨hc, rfl⟩
  · rw [hs] at h; cases h
  · rw [hs] at h; cases h
  · rcases hquiet with ⟨-, hs⟩ | ⟨-, c, op, rest, -, -, -, hs⟩ | ⟨-, -, -, hs⟩ | ⟨-, -, -, -, hs⟩
    · rw [hs] at h; cases h
    · obtain ⟨t, ht⟩ := hostStep_next c op (({ s with inputs := s.inputs.tail } : State).setAgenda c rest)
      rw [hs, ht] at h; cases h
    · exact .inr ⟨hc, hs ▸ h⟩
    · rw [hs] at h; cases h

/-- `ConfigInvalid` is answered exactly when the check fails (R250, R252). -/
theorem step_configInvalid_iff (s : State) : step s = .refused .configInvalid ↔ configValid s.cfg = false := by
  constructor
  · intro h
    rcases step_refused h with ⟨hc, -⟩ | ⟨-, hfetch⟩
    · exact hc
    · rcases fetchStep_refused hfetch with hr | hr | hr | hr <;> cases hr
  · intro hc
    simp [step, hc]

/-- Settles O6: the check fails exactly when a constraint of R10 is broken, and no other refusal is `ConfigInvalid`. -/
theorem invalidConfigurationIsRejected : Obligations.InvalidConfigurationIsRejected := by
  intro s
  rw [← configValid_iff, step_configInvalid_iff, Bool.not_eq_true]

end Sys2Proof.Machine
end

section
/-! PROOF. The state invariants of 10_state.md: what the action of a TAP state can do to the device, what an event does to the
two transport latches, and what every step keeps. -/

namespace Sys2Proof.Machine

/-! ### The action of a TAP state (R119, R135 to R143) -/

/-- Everything the action of a TAP state can do: nothing, select a register in a Scan state, give the active register another
accumulator and count, or commit it in an Update state. -/
inductive ActMove (c : Config) (d : Device) : Device → Prop where
  | stay : ActMove c d d
  | select (r : RegName) (h : d.tap = .scanDr ∧ r = scanDrTarget c d ∨ d.tap = .scanIr ∧ r = .ir) :
      ActMove c d { d with sel := r }
  | fill (acc : Word) (count : Nat) : ActMove c d (d.setReg d.sel { d.reg d.sel with acc := acc, count := count })
  | commit (h : d.tap = .updateDr ∨ d.tap = .updateIr) : ActMove c d (d.update c)

theorem act_move (c : Config) (d : Device) (m b : Bool) : ActMove c d (act c d m b) := by
  obtain ⟨tap, sel, byp, ir, dr, phase, mem, tck, tms, tdi⟩ := d
  cases tap with
  | scanDr => exact .select _ (.inl ⟨rfl, rfl⟩)
  | scanIr => exact .select _ (.inr ⟨rfl, rfl⟩)
  | captureDr | captureIr => exact .fill _ 0
  | shiftDr | shiftIr =>
    cases m
    · exact .fill _ _
    · exact .stay
  | updateDr => exact .commit (.inl rfl)
  | updateIr => exact .commit (.inr rfl)
  | reset | idle | exit1Dr | exit1Ir | pauseDr | pauseIr | exit2Dr | exit2Ir => exact .stay

theorem Device.reg_select (d : Device) (r r' : RegName) : ({ d with sel := r } : Device).reg r' = d.reg r' := by
  cases r' <;> rfl

/-- A register given another accumulator and count leaves every hold value (R31). -/
theorem Device.hold_setReg_fill (d : Device) (r r' : RegName) (acc : Word) (count : Nat) :
    ((d.setReg r { d.reg r with acc := acc, count := count }).reg r').hold = (d.reg r').hold := by
  by_cases hr : r' = r
  · subst hr; rw [Device.reg_setReg]
  · rw [Device.reg_setReg_ne _ _ _ _ hr]

/-- An action outside the Update states changes no hold value, no pairing phase and no memory. -/
theorem ActMove.keeps_committed {c : Config} {d d' : Device} (h : ActMove c d d') (hdr : d.tap ≠ .updateDr)
    (hir : d.tap ≠ .updateIr) : d'.phase = d.phase ∧ d'.mem = d.mem ∧ ∀ r, (d'.reg r).hold = (d.reg r).hold := by
  cases h with
  | stay => exact ⟨rfl, rfl, fun _ => rfl⟩
  | select r _ => exact ⟨rfl, rfl, fun r' => by rw [Device.reg_select]⟩
  | fill acc count => exact ⟨d.setReg_phase _ _, d.setReg_mem _ _, fun r => d.hold_setReg_fill _ r acc count⟩
  | commit htap => exact (htap.elim hdr hir).elim

/-- An action changes no register but the active one. -/
theorem ActMove.reg_of_ne_sel {c : Config} {d d' : Device} (h : ActMove c d d') {r : RegName} (hr : r ≠ d.sel) :
    d'.reg r = d.reg r := by
  cases h with
  | stay => rfl
  | select r' _ => exact d.reg_select r' r
  | fill _ _ => exact d.reg_setReg_ne _ _ _ hr
  | commit _ => exact d.update_reg_ne c r hr

/-- With no bypass instruction the `Scan-DR` action selects DR (R136). -/
theorem scanDrTarget_of_no_bypass {c : Config} (hc : c.bypassSelect = []) (d : Device) : scanDrTarget c d = .dr := by
  simp [scanDrTarget, hc]

/-- With no bypass instruction no action makes BYP the active register. -/
theorem ActMove.sel_ne_byp {c : Config} {d d' : Device} (h : ActMove c d d') (hc : c.bypassSelect = [])
    (hsel : d.sel ≠ .byp) : d'.sel ≠ .byp := by
  cases h with
  | stay => exact hsel
  | select r hr =>
    rcases hr with ⟨-, rfl⟩ | ⟨-, rfl⟩
    · simp [scanDrTarget_of_no_bypass hc]
    · simp
  | fill _ _ => rwa [Device.setReg_sel]
  | commit _ => rwa [Device.update_sel]

/-- Settles O23: the move to the next TAP state touches none of the three, and the action is no commit. -/
theorem onlyUpdateEdgesCommit : Obligations.OnlyUpdateEdgesCommit := by
  intro c d m b hdr hir
  rw [edge_eq]
  simp only [Device.withTap_reg]
  exact (act_move c d m b).keeps_committed hdr hir

/-! ### The transport latches `ready` and `pins_owned` (R40, R41) -/

/-- What an event leaves of the two latches: `ready` but for `init`, `pins_owned` but for `reset` and `teardown`. -/
structure LatchFrame (i : Instr) (s t : State) : Prop where
  ready : i ≠ .init → t.ready = s.ready
  pinsOwned : i ≠ .reset → i ≠ .teardown → t.pinsOwned = s.pinsOwned

theorem LatchFrame.of_eq {i : Instr} {s t : State} (hr : t.ready = s.ready) (hp : t.pinsOwned = s.pinsOwned) :
    LatchFrame i s t :=
  ⟨fun _ => hr, fun _ _ => hp⟩

@[simp] theorem runCall_ready (call : TransportCall) (s : State) : (runCall call s).ready = s.ready := by
  obtain ⟨_, _, _, h, -⟩ := runOperation_cases (callCycles s.cfg call) (callResult call) s
  rw [runCall, h]

@[simp] theorem runCall_pinsOwned (call : TransportCall) (s : State) : (runCall call s).pinsOwned = s.pinsOwned := by
  obtain ⟨_, _, _, h, -⟩ := runOperation_cases (callCycles s.cfg call) (callResult call) s
  rw [runCall, h]

theorem LatchFrame.runCall (i : Instr) (call : TransportCall) (s : State) : LatchFrame i s (runCall call s) :=
  .of_eq (runCall_ready call s) (runCall_pinsOwned call s)

theorem LatchFrame.zeroLength (i : Instr) (s : State) (r : Result) : LatchFrame i s (zeroLengthScan s r) := by
  rcases zeroLengthScan_cases s r with ⟨-, h⟩ | ⟨-, h | h⟩ <;> rw [h] <;> exact .of_eq rfl rfl

theorem LatchFrame.admitted {i : Instr} {p : Bool} {s t : State} {body : State → State} (hb : LatchFrame i s (body s))
    (h : Machine.admitted p s body = .next t) : LatchFrame i s t := by
  rcases admitted_cases p s body with ⟨-, h'⟩ | ⟨-, -, -, h'⟩ | ⟨-, -, h'⟩ <;> rw [h'] at h <;> cases h
  · exact .of_eq rfl rfl
  · exact hb

/-- A scan is a zero-length scan or goes through the checks (R179). -/
theorem LatchFrame.scan {i : Instr} {s t : State} {bits : List Bool} {r : Result} {call : TransportCall}
    (h : (if bits.isEmpty then .next (zeroLengthScan s r) else Machine.admitted true s (Machine.runCall call)) = .next t) :
    LatchFrame i s t := by
  split at h
  · cases h; exact .zeroLength i s r
  · exact .admitted (.runCall i call s) h

/-- Every event leaves the two latches but for those that write them. -/
theorem exec_latches {i : Instr} {s t : State} (h : exec i s = .next t) : LatchFrame i s t := by
  cases i with
  | pinTck | pinTms | pinTdi | pinTdo | clock | null => cases h; exact .of_eq rfl rfl
  | init => cases h; exact ⟨fun hi => absurd rfl hi, fun _ _ => rfl⟩
  | reset =>
    have hbody : LatchFrame .reset s (runCall .reset s.takePins) :=
      ⟨fun _ => runCall_ready .reset s.takePins, fun hi => absurd rfl hi⟩
    exact .admitted (body := fun s => runCall .reset s.takePins) hbody h
  | readId => exact .admitted (.runCall _ .readId s) h
  | updateIr bits => exact .scan h
  | updateDr bits => exact .scan h
  | tick n => exact .admitted (.runCall _ (.tick n) s) h
  | teardown => cases h; exact ⟨fun _ => rfl, fun _ hi => absurd rfl hi⟩
  | emuAttach ws =>
    simp only [exec, execEmuAttach] at h
    split at h
    · cases h
    · cases h; exact .of_eq rfl rfl
  | emuRead a =>
    simp only [exec, execEmuRead] at h
    split at h
    · cases h
    · cases h
      rcases memRead_cases s a with ⟨-, h⟩ | ⟨-, w, h⟩ <;> rw [h] <;> exact .of_eq rfl rfl

/-- Settles O55: the frame of an event, and what it leaves of the two latches. -/
theorem eventsLeaveTheHostAlone : Obligations.EventsLeaveTheHostAlone := by
  intro i s t h
  have hframe := exec_frame h
  have hlatch := exec_latches h
  exact ⟨hframe.cfg, hframe.host, hframe.program, hframe.inputs, hlatch.ready, hlatch.pinsOwned⟩

/-! ### What every step keeps -/

/-- With no bypass instruction, no move of the device makes BYP active or changes the Bypass register: while BYP is not active
an edge does not write it, and binding an array or writing the pin latches touches no register. -/
theorem DeviceMove.bypass_unused {c : Config} {d d' : Device} (h : DeviceMove c d d') (hc : c.bypassSelect = [])
    (hsel : d.sel ≠ .byp) : d'.sel ≠ .byp ∧ d'.byp = d.byp := by
  refine h.keeps (P := fun x => x.sel ≠ .byp ∧ x.byp = d.byp) (fun _ _ _ _ hx => hx) ?_ (fun _ _ hx => hx) ⟨hsel, rfl⟩
  rintro x m b ⟨hxsel, hxbyp⟩
  have hact := act_move c x m b
  exact ⟨hact.sel_ne_byp hc hxsel, (hact.reg_of_ne_sel hxsel.symm).trans hxbyp⟩

/-- Settles O59: a step keeps the parameters and its device takes moves only, of which none touches BYP. -/
theorem bypassKeepsItsValues : Obligations.BypassKeepsItsValues := by
  rintro s t ⟨hc, hsel⟩ h
  have hframe := step_frame h
  obtain ⟨hsel', hbyp⟩ := hframe.move.bypass_unused hc hsel
  exact ⟨⟨hframe.cfg ▸ hc, hsel'⟩, hbyp⟩

/-- Settles O56: the frame of a step. -/
theorem stepNeverClearsLatches : Obligations.StepNeverClearsLatches := by
  intro s t h
  have hframe := step_frame h
  exact ⟨hframe.cfg, hframe.ready, hframe.applied⟩

/-! ### Power-on (R57) -/

/-- At power-on the TAP is in `Idle`, which is in neither column (R148). -/
theorem Device.powerOn_columnSelect : Device.powerOn.columnSelect :=
  ⟨fun h => absurd h (by decide), fun h => absurd h (by decide)⟩

/-- Settles O60: no word is bound yet, the TAP is in `Idle`, and DR is selected. -/
theorem powerOnInvariants : Obligations.PowerOnInvariants := by
  intro c
  have hsel : Device.powerOn.sel ≠ .byp := by decide
  exact ⟨rfl, Device.powerOn_columnSelect, fun hc => ⟨hc, hsel⟩⟩

end Sys2Proof.Machine
end

section
/-! PROOF. A transport call issued pin event by pin event (20_memory.md R79): the states a main context goes through between two
pin events, what each pin event makes of them, and how such a call begins in each of the three ways. -/

namespace Sys2Proof.Machine

/-! ### Between two pin events of a call -/

/-- `s` while its main context issues a call by pins: the device has come to `d`, `n` free values are drawn, `samples` are the TDO
samples so far, `ops` is left to do, and the last event returned `r`. -/
def State.issuing (s : State) (d : Device) (n : Nat) (samples : List Bool) (ops : List HostOp) (r : Option Result) : State :=
  { s with
    dev := d
    draws := n
    result := r
    host := { s.host with main := { s.host.main with agenda := ops, samples := samples } } }

section
variable {s : State} (hs : s.undisturbed .main) (d : Device) (n : Nat) (samples : List Bool) (ops : List HostOp)
  (r : Option Result)
include hs

theorem State.undisturbed.issuing : (s.issuing d n samples ops r).undisturbed .main :=
  hs

theorem step_issuing (op : HostOp) (hop : op ≠ .acquire) :
    step (s.issuing d n samples (op :: ops) r) = hostStep .main op (s.issuing d n samples ops r) :=
  step_undisturbed (hs.issuing d n samples (op :: ops) r) rfl hop

theorem step_issuing_pinTms (v : Bool) : step (s.issuing d n samples (.event (.pinTms v) :: ops) r) =
    .next (s.issuing (d.pinTms v) n samples ops (some .ok)) :=
  (step_issuing hs d n samples ops r _ (by nofun)).trans rfl

theorem step_issuing_pinTdi (v : Bool) : step (s.issuing d n samples (.event (.pinTdi v) :: ops) r) =
    .next (s.issuing (d.pinTdi v) n samples ops (some .ok)) :=
  (step_issuing hs d n samples ops r _ (by nofun)).trans rfl

theorem step_issuing_pinTck (v : Bool) : step (s.issuing d n samples (.event (.pinTck v) :: ops) r) =
    .next (s.issuing (d.pinTck s.cfg v) n samples ops (some .ok)) :=
  (step_issuing hs d n samples ops r _ (by nofun)).trans rfl

theorem step_issuing_sampleTdo : step (s.issuing d n samples (.sampleTdo :: ops) r) =
    .next (s.issuing d (n + 1) (samples ++ [Config.drawBit n]) ops r) :=
  (step_issuing hs d n samples ops r _ (by nofun)).trans rfl

theorem step_issuing_returnCall (call : TransportCall) : step (s.issuing d n samples (.returnCall call :: ops) r) =
    .next (s.issuing d n samples ops (some (callResult call samples))) :=
  (step_issuing hs d n samples ops r _ (by nofun)).trans rfl

end

/-! ### Cycles by pins -/

/-- The four pin writes of R176 are one falling edge with the levels they latch. -/
theorem pinWrites_eq (c : Config) (d : Device) (m b : Bool) :
    (((d.pinTms m).pinTdi b).pinTck c true).pinTck c false = (edge c d m b).latch false m b := by
  have hhigh : ((d.pinTms m).pinTdi b).pinTck c true = d.latch true m b := by
    rw [pinTck_true]; rfl
  rw [hhigh, pinTck_false_of_high _ _ rfl, edge_latch]

theorem run_step {s t : State} (h : step s = .next t) (k : Nat) :
    Sys2Proof.core.run (k + 1) s = Sys2Proof.core.run k t := by
  have hcore : Sys2Proof.core.step s = .next t := h
  simp only [Host.Core.run, hcore]

/-- Five steps make one TCK cycle and its TDO sample (R176, R177). -/
theorem run_issuing_cycle {s : State} (hs : s.undisturbed .main) (m b : Bool) (cs : List (Bool × Bool)) (d : Device) (n : Nat)
    (samples : List Bool) (ops : List HostOp) (r : Option Result) (k : Nat) :
    Sys2Proof.core.run (k + 5) (s.issuing d n samples (pinOps ((m, b) :: cs) ++ ops) r) =
      Sys2Proof.core.run k (s.issuing ((edge s.cfg d m b).latch false m b) (n + 1) (samples ++ [Config.drawBit n])
        (pinOps cs ++ ops) (some .ok)) := by
  rw [← pinWrites_eq]
  exact (run_step (step_issuing_pinTms hs _ _ _ _ _ m) _).trans <|
    (run_step (step_issuing_pinTdi hs _ _ _ _ _ b) _).trans <|
    (run_step (step_issuing_pinTck hs _ _ _ _ _ true) _).trans <|
    (run_step (step_issuing_sampleTdo hs _ _ _ _ _) _).trans <|
    run_step (step_issuing_pinTck hs _ _ _ _ _ false) _

/-- The pin events of a sequence of cycles make those cycles, and take their TDO samples in order. -/
theorem run_issuing_cycles {s : State} (hs : s.undisturbed .main) (cs : List (Bool × Bool)) (d : Device) (n : Nat)
    (samples : List Bool) (ops : List HostOp) (r : Option Result) (k : Nat) :
    ∃ r', Sys2Proof.core.run (5 * cs.length + k) (s.issuing d n samples (pinOps cs ++ ops) r) =
      Sys2Proof.core.run k (s.issuing (cycleDevice s.cfg cs d) (n + cs.length) (samples ++ samplesFrom n cs.length) ops r') := by
  induction cs generalizing d n samples r with
  | nil => exact ⟨r, by simp [pinOps, cycleDevice, samplesFrom]⟩
  | cons x cs ih =>
    obtain ⟨m, b⟩ := x
    obtain ⟨r', hrest⟩ := ih ((edge s.cfg d m b).latch false m b) (n + 1) (samples ++ [Config.drawBit n]) (some .ok)
    refine ⟨r', ?_⟩
    have hsteps : 5 * ((m, b) :: cs).length + k = 5 * cs.length + k + 5 := by rw [List.length_cons]; omega
    have hdraws : n + ((m, b) :: cs).length = n + 1 + cs.length := by rw [List.length_cons]; omega
    rw [hsteps, run_issuing_cycle hs, hrest, hdraws, List.length_cons, samplesFrom_succ, List.append_assoc]
    rfl

/-- A call being issued by pins ends after all its cycles with the result of their samples (R188, R190). -/
theorem run_issuing_call {s : State} (hs : s.undisturbed .main) (call : TransportCall) (cs : List (Bool × Bool)) (d : Device)
    (n : Nat) (ops : List HostOp) (r : Option Result) :
    Sys2Proof.core.run (5 * cs.length + 1) (s.issuing d n [] (pinOps cs ++ .returnCall call :: ops) r) =
      .next (s.issuing (cycleDevice s.cfg cs d) (n + cs.length) (samplesFrom n cs.length) ops
        (some (callResult call (samplesFrom n cs.length)))) := by
  obtain ⟨r', hcycles⟩ := run_issuing_cycles hs cs d n [] (.returnCall call :: ops) r 1
  rw [hcycles, run_step (step_issuing_returnCall hs _ _ _ _ _ call)]
  rfl

/-! ### An admitted call -/

/-- The state an admitted call starts from: `reset` has taken the pins (R180). -/
def State.ownedFor (s : State) (call : TransportCall) : State :=
  if call = .reset then s.takePins else s

@[simp] theorem State.ownedFor_cfg (s : State) (call : TransportCall) : (s.ownedFor call).cfg = s.cfg := by
  unfold State.ownedFor; split <;> rfl
@[simp] theorem State.ownedFor_dev (s : State) (call : TransportCall) : (s.ownedFor call).dev = s.dev := by
  unfold State.ownedFor; split <;> rfl
@[simp] theorem State.ownedFor_draws (s : State) (call : TransportCall) : (s.ownedFor call).draws = s.draws := by
  unfold State.ownedFor; split <;> rfl

theorem State.ownedFor_pinsOwned (s : State) (call : TransportCall) :
    (s.ownedFor call).pinsOwned = (decide (call = .reset) || s.pinsOwned) := by
  unfold State.ownedFor; split <;> simp [*]

theorem State.undisturbed.ownedFor {s : State} {c : ContextId} (hs : s.undisturbed c) (call : TransportCall) :
    (s.ownedFor call).undisturbed c := by
  unfold State.ownedFor; split <;> exact hs

theorem checkCall_run {ready pinsOwned needsPins : Bool} (hr : ready = true) (hp : needsPins = true → pinsOwned = true) :
    checkCall ready pinsOwned needsPins = .run := by
  cases needsPins with
  | false => simp [checkCall, hr]
  | true => simp [checkCall, hr, hp rfl]

theorem admitted_run {needsPins : Bool} {s : State} (body : State → State) (hr : s.ready = true)
    (hp : needsPins = true → s.pinsOwned = true) : admitted needsPins s body = .next (body s) := by
  rw [admitted, checkCall_run hr hp]

/-- A call made of pin events that passes its checks, issued whole (R178). -/
theorem exec_ofCall {s : State} {call : TransportCall} (hmade : madeOfPins call = true) (hr : s.ready = true)
    (hp : needsPins call = true → s.pinsOwned = true) : exec (.ofCall call) s = .next (runCall call (s.ownedFor call)) := by
  cases call with
  | reset => exact admitted_run (fun s => runCall .reset s.takePins) hr nofun
  | readId => exact admitted_run (runCall .readId) hr hp
  | tick n => exact admitted_run (runCall (.tick n)) hr hp
  | updateIr bits =>
    have hbits : ¬ bits.isEmpty = true := by simpa [madeOfPins] using hmade
    exact (if_neg hbits).trans (admitted_run (runCall (.updateIr bits)) hr hp)
  | updateDr bits =>
    have hbits : ¬ bits.isEmpty = true := by simpa [madeOfPins] using hmade
    exact (if_neg hbits).trans (admitted_run (runCall (.updateDr bits)) hr hp)
  | teardown => cases hmade

/-- A call that cannot fail part-way begins by pins with no sample taken and all its cycles to make (R79, R197). -/
theorem startCall_main {s : State} (call : TransportCall) (onFail : HostOp) (h : mayFailMidway s.cfg = false) :
    startCall .main call onFail s = (s.ownedFor call).issuing s.dev s.draws []
      (pinOps (callCycles s.cfg call) ++ .returnCall call :: s.agenda .main) s.result := by
  have hbegin : ∀ u : State, mayFailMidway u.cfg = false → beginCall .main call onFail u =
      u.issuing u.dev u.draws [] (pinOps (callCycles u.cfg call) ++ .returnCall call :: u.agenda .main) u.result := by
    intro u hu
    simp only [beginCall, hu, Bool.false_eq_true, if_false, State.push, State.setAgenda, State.setSamples, List.append_assoc]
    rfl
  unfold startCall State.ownedFor
  split <;> exact hbegin _ h

/-- The slot `split` can begin every call that is made of pin events and passes its checks. -/
theorem splitEvent_ofCall (c : ContextId) (onFail : HostOp) {s : State} {call : TransportCall}
    (hmade : madeOfPins call = true) (hcheck : checkCall s.ready s.pinsOwned (needsPins call) = .run) :
    splitEvent c onFail (.ofCall call) s = some (startCall c call onFail s) := by
  have hbegins : (madeOfPins call && decide (checkCall s.ready s.pinsOwned (needsPins call) = .run)) = true := by
    simp [hmade, hcheck]
  cases call <;> exact if_pos hbegins

/-! ### How a call by pins begins -/

/-- The state in which a call has been taken off the agenda of `s`, or off its program, which is then `p`. -/
def State.calling (s : State) (p : List Byte) (rest : List HostOp) : State :=
  ({ s with inputs := [], program := p } : State).setAgenda .main rest

theorem State.calling_undisturbed {s : State} (hc : configValid s.cfg = true) (ht : triggerDue s = false)
    (hi : canMove .irq s = false) (p : List Byte) (rest : List HostOp) : (s.calling p rest).undisturbed .main :=
  ⟨hc, rfl, fun _ => ⟨ht, hi⟩⟩

theorem State.calling_self {s : State} (hin : s.inputs = []) (rest : List HostOp) :
    s.calling s.program rest = s.setAgenda .main rest := by
  simp only [State.calling]
  rw [← hin]

theorem step_split {s : State} (hc : configValid s.cfg = true) (hin : s.inputs = [.split]) :
    step s = .next (splitStep { s with inputs := [] }) := by
  simp [step, hc, machineStep, hin]

/-- The first step of a call by pins, issued so by the host itself, or begun so by the environment's slot from an event of a
procedure or from the program's next record (R79, log 9). -/
theorem step_begins_call {s : State} {call : TransportCall} {rest : List HostOp} (hc : configValid s.cfg = true)
    (ht : triggerDue s = false) (hi : canMove .irq s = false) (hmade : madeOfPins call = true)
    (hway : s.inputs = [] ∧ s.agenda .main = .eventByPins call :: rest ∨
      s.inputs = [.split] ∧ s.agenda .main = .event (.ofCall call) :: rest ∨
      s.inputs = [.split] ∧ s.agenda .main = [] ∧ rest = [] ∧ ∃ bs, decode s.program = .ok (.ofCall call) bs)
    (hcheck : checkCall s.ready s.pinsOwned (needsPins call) = .run) :
    ∃ p onFail, step s = .next (startCall .main call onFail (s.calling p rest)) := by
  have hsplit := fun (onFail : HostOp) (p : List Byte) =>
    splitEvent_ofCall .main onFail (s := s.calling p rest) hmade hcheck
  have hdue : triggerDue { s with inputs := [] } = false := ht
  have hirq : canMove .irq { s with inputs := [] } = false := hi
  rcases hway with ⟨hin, ha⟩ | ⟨hin, ha⟩ | ⟨hin, ha, rfl, bs, hdec⟩
  · refine ⟨s.program, .failCall, ?_⟩
    have hu : s.undisturbed .main := ⟨hc, hin, fun _ => ⟨ht, hi⟩⟩
    have hcheck' : checkCall (s.setAgenda .main rest).ready (s.setAgenda .main rest).pinsOwned (needsPins call) = .run := hcheck
    rw [step_undisturbed hu ha nofun, State.calling_self hin]
    simp only [hostStep, eventByPins, hmade, hcheck', if_true]
  · refine ⟨s.program, .failCall, ?_⟩
    have ha' : ({ s with inputs := [] } : State).agenda .main = .event (.ofCall call) :: rest := ha
    have hself : ({ s with inputs := [] } : State).setAgenda .main rest = s.calling s.program rest := rfl
    rw [step_split hc hin]
    simp only [splitStep, hdue, hirq, ha', splitContext, List.isEmpty_cons, Bool.false_eq_true, if_false]
    rw [hself, hsplit]
    rfl
  · refine ⟨bs, .returnResult .transportError, ?_⟩
    have ha' : ({ s with inputs := [] } : State).agenda .main = [] := ha
    have hself : s.calling bs [] = { s with inputs := [], program := bs } := by
      rw [State.calling, ← ha]; rfl
    rw [step_split hc hin]
    simp only [splitStep, hdue, hirq, ha', splitProgram, hdec, List.isEmpty_nil, Bool.false_eq_true, if_false, if_true]
    rw [← hself, hsplit]
    rfl

/-- Settles O45: in each of the three ways the first step begins the call, whose pin events then make the cycles of the call
issued whole, with the same samples, and its last step returns their result. -/
theorem callByPinsIsTheCall : Obligations.CallByPinsIsTheCall := by
  intro s call rest hc ht hi hmade hway hr hp hmid
  obtain ⟨p, onFail, hstep⟩ := step_begins_call hc ht hi hmade hway (checkCall_run hr hp)
  have hs := (State.calling_undisturbed hc ht hi p rest).ownedFor call
  have hstart := startCall_main (s := s.calling p rest) call onFail hmid
  have hrun := run_issuing_call hs call (callCycles s.cfg call) s.dev s.draws rest s.result
  have hpins : ((s.calling p rest).ownedFor call).pinsOwned = (s.ownedFor call).pinsOwned := by
    rw [State.ownedFor_pinsOwned, State.ownedFor_pinsOwned]
    rfl
  rw [State.ownedFor_cfg] at hrun
  refine ⟨_, _, (run_step hstep _).trans (hstart ▸ hrun), exec_ofCall hmade hr hp, ?_⟩
  rw [runCall_whole call _ (by rwa [State.ownedFor_cfg])]
  simp only [State.ownedFor_cfg, State.ownedFor_dev, State.ownedFor_draws]
  exact ⟨rfl, hpins, rfl, rfl, rfl⟩

end Sys2Proof.Machine
end

section
/-! PROOF. Event records (30_encoding.md): each record written by the encoder read back, a record cut short, the records R97
lists as illegal, and what a step makes of the record it fetches. -/

namespace Sys2Proof

/-! ### The record of a transport call (R87, R88) -/

/-- The first byte of a transport call's record (R88). -/
def callOpcode : TransportCall → Byte
  | .reset => 0x11#8
  | .readId => 0x12#8
  | .updateIr _ => 0x13#8
  | .updateDr _ => 0x14#8
  | .tick _ => 0x15#8
  | .teardown => 0x16#8

/-- The bytes of a transport call's record after the first (R87). -/
def callOperands : TransportCall → List Byte
  | .reset => []
  | .readId => []
  | .updateIr bits => wordBytes (BitVec.ofNat 32 bits.length) ++ packBits bits
  | .updateDr bits => wordBytes (BitVec.ofNat 32 bits.length) ++ packBits bits
  | .tick n => wordBytes n
  | .teardown => []

theorem encodeCall_eq_cons (call : TransportCall) : encodeCall call = callOpcode call :: callOperands call := by
  cases call <;> rfl

theorem encode_ofCall (call : TransportCall) : encode (.ofCall call) = encodeCall call := by
  cases call <;> rfl

/-- A record that begins with a transport opcode is that transport record. -/
theorem decode_callOpcode (call : TransportCall) (bs : List Byte) :
    decode (callOpcode call :: bs) = (decodeCall (callOpcode call) bs).map .ofCall := by
  cases call <;> rfl

theorem decodeCall_record (call : TransportCall) (rest : List Byte) (h : call.wellFormed = true) :
    decodeCall (callOpcode call) (callOperands call ++ rest) = .ok call rest := by
  cases call with
  | reset | readId | teardown => rfl
  | updateIr bits => exact decodeScan_record .updateIr bits rest h
  | updateDr bits => exact decodeScan_record .updateDr bits rest h
  | tick n => exact decodeWordOperand_record TransportCall.tick n rest

/-- A transport record cut short after its opcode is truncated (R98). -/
theorem decodeCall_cut (call : TransportCall) (k : Nat) (h : call.wellFormed = true)
    (hk : k < (callOperands call).length) :
    decodeCall (callOpcode call) ((callOperands call).take k) = .truncated := by
  cases call with
  | reset | readId | teardown => cases hk
  | updateIr bits => exact decodeScan_cut .updateIr bits k h (by simpa [callOperands] using hk)
  | updateDr bits => exact decodeScan_cut .updateDr bits k h (by simpa [callOperands] using hk)
  | tick n => exact decodeWordOperand_cut TransportCall.tick n k hk

/-! ### The record of an event read back (R86 to R94) -/

theorem decodePin_levelByte (make : Bool → Instr) (level : Bool) (rest : List Byte) :
    decodePin make (levelByte level :: rest) = .ok (make level) rest := by
  cases level <;> rfl

theorem decodeClock_clockByte (tms tdi : Bool) (rest : List Byte) :
    decodeClock (clockByte tms tdi :: rest) = .ok (.clock tms tdi) rest := by
  cases tms <;> cases tdi <;> rfl

theorem decode_encode_ofCall (call : TransportCall) (rest : List Byte) (h : call.wellFormed = true) :
    decode (encode (.ofCall call) ++ rest) = .ok (.ofCall call) rest := by
  rw [encode_ofCall, encodeCall_eq_cons, List.cons_append, decode_callOpcode, decodeCall_record call rest h]
  rfl

theorem decodeNull_encodeCall (call : TransportCall) (rest : List Byte) (h : call.wellFormed = true) :
    decodeNull (encodeCall call ++ rest) = .ok (.null call) rest := by
  rw [encodeCall_eq_cons, List.cons_append, decodeNull, decodeCall_record call rest h]
  rfl

/-- Settles O1: the opcode selects the format, and each operand form is read back from the bytes it is written as. -/
theorem decodeOfEncodeIsIdentity : Obligations.DecodeOfEncodeIsIdentity := by
  intro i rest h
  cases i with
  | pinTck level => exact decodePin_levelByte .pinTck level rest
  | pinTms level => exact decodePin_levelByte .pinTms level rest
  | pinTdi level => exact decodePin_levelByte .pinTdi level rest
  | pinTdo | init => rfl
  | clock tms tdi => exact decodeClock_clockByte tms tdi rest
  | reset => exact decode_encode_ofCall .reset rest h
  | readId => exact decode_encode_ofCall .readId rest h
  | updateIr bits => exact decode_encode_ofCall (.updateIr bits) rest h
  | updateDr bits => exact decode_encode_ofCall (.updateDr bits) rest h
  | tick n => exact decode_encode_ofCall (.tick n) rest h
  | teardown => exact decode_encode_ofCall .teardown rest h
  | null call => exact decodeNull_encodeCall call rest h
  | emuAttach words => exact decodeAttach_record words rest h
  | emuRead addr => exact decodeWordOperand_record Instr.emuRead addr rest

/-! ### A record cut short (R98) -/

theorem decode_ofCall_cut (call : TransportCall) (k : Nat) (h : call.wellFormed = true)
    (hk : k + 1 < (encode (.ofCall call)).length) :
    decode ((encode (.ofCall call)).take (k + 1)) = .truncated := by
  rw [encode_ofCall, encodeCall_eq_cons] at hk ⊢
  rw [List.take_succ_cons, decode_callOpcode, decodeCall_cut call k h (Nat.lt_of_succ_lt_succ hk)]
  rfl

theorem decodeNull_cut (call : TransportCall) (k : Nat) (h : call.wellFormed = true) (hk : k < (encodeCall call).length) :
    decodeNull ((encodeCall call).take k) = .truncated := by
  cases k with
  | zero => rfl
  | succ k =>
    rw [encodeCall_eq_cons] at hk ⊢
    rw [List.take_succ_cons, decodeNull, decodeCall_cut call k h (Nat.lt_of_succ_lt_succ hk)]
    rfl

/-- A record cut short after at least one byte is truncated. -/
theorem decode_encode_cut (i : Instr) (k : Nat) (h : i.wellFormed = true) (hk : k + 1 < (encode i).length) :
    decode ((encode i).take (k + 1)) = .truncated := by
  have htail : k < (encode i).tail.length := by rw [List.length_tail]; omega
  cases i with
  | pinTck | pinTms | pinTdi | clock =>
    obtain rfl : k = 0 := Nat.lt_one_iff.mp htail
    rfl
  | pinTdo | init => cases htail
  | reset => exact decode_ofCall_cut .reset k h hk
  | readId => exact decode_ofCall_cut .readId k h hk
  | updateIr bits => exact decode_ofCall_cut (.updateIr bits) k h hk
  | updateDr bits => exact decode_ofCall_cut (.updateDr bits) k h hk
  | tick n => exact decode_ofCall_cut (.tick n) k h hk
  | teardown => exact decode_ofCall_cut .teardown k h hk
  | null call => exact decodeNull_cut call k h htail
  | emuAttach words =>
    rw [encode, List.tail_cons, List.length_append, length_flatMap_wordBytes] at htail
    exact decodeAttach_cut words k h htail
  | emuRead addr => exact decodeWordOperand_cut Instr.emuRead addr k htail

/-! ### Illegal records (R97) -/

theorem decodeCall_illegal {op : Byte} (h : op.toNat < 0x11 ∨ 0x16 < op.toNat) (bs : List Byte) :
    decodeCall op bs = .illegal := by
  have hne : ∀ c : Byte, 0x11 ≤ c.toNat ∧ c.toNat ≤ 0x16 → op ≠ c := by
    rintro c hc rfl
    omega
  simp [decodeCall, hne]

theorem decode_reserved {op : Byte} (h : op.toNat = 0x00 ∨ (0x06 ≤ op.toNat ∧ op.toNat ≤ 0x0F) ∨
    (0x17 ≤ op.toNat ∧ op.toNat ≤ 0x1E) ∨ 0x22 ≤ op.toNat) (bs : List Byte) : decode (op :: bs) = .illegal := by
  have hne : ∀ c ∈ [0x01#8, 0x02#8, 0x03#8, 0x04#8, 0x05#8, 0x10#8, 0x1F#8, 0x20#8, 0x21#8], op ≠ c := by
    rintro c hc rfl
    revert h
    fin_cases hc <;> decide
  have hcall : decodeCall op bs = .illegal := decodeCall_illegal (by omega) bs
  simp [decode, hne, hcall, Decoded.map]

/-- A byte with a bit set at or above `n` is no number below `2 ^ n`. -/
theorem two_pow_le_of_getLsbD {b : Byte} {n i : Nat} (hn : n ≤ i) (hb : b.getLsbD i = true) : 2 ^ n ≤ b.toNat :=
  (Nat.pow_le_pow_right (by decide) hn).trans (Nat.ge_two_pow_of_testBit hb)

theorem decodePin_illegal (make : Bool → Instr) {b : Byte} (h : 2 ≤ b.toNat) (rest : List Byte) :
    decodePin make (b :: rest) = .illegal :=
  if_neg (Nat.not_lt.mpr h)

theorem decodeClock_illegal {b : Byte} (h : 4 ≤ b.toNat) (rest : List Byte) : decodeClock (b :: rest) = .illegal :=
  if_neg (Nat.not_lt.mpr h)

theorem decodeNull_illegal {op : Byte} (h : op.toNat < 0x11 ∨ 0x16 < op.toNat) (bs : List Byte) :
    decodeNull (op :: bs) = .illegal := by
  rw [decodeNull, decodeCall_illegal h]
  rfl

/-- The decoder refuses every record of R97's list. -/
theorem decode_illegalRecord {op : Byte} {rest : List Byte} (h : Machine.illegalRecord op rest) :
    decode (op :: rest) = .illegal := by
  rcases h with hop | ⟨hop, b, r, rfl, i, hi, hb⟩ | ⟨rfl, b, r, rfl, i, hi, hb⟩ | ⟨rfl, b, r, rfl, hb⟩
  · exact decode_reserved hop rest
  · have hlevel : 2 ≤ b.toNat := two_pow_le_of_getLsbD hi hb
    rcases hop with rfl | rfl | rfl
    · exact decodePin_illegal .pinTck hlevel r
    · exact decodePin_illegal .pinTms hlevel r
    · exact decodePin_illegal .pinTdi hlevel r
  · exact decodeClock_illegal (two_pow_le_of_getLsbD hi hb) r
  · exact decodeNull_illegal hb r

/-! ### The worked examples (R105) -/

/-- A record the encoder gives decodes to its event, with nothing left. -/
theorem decode_of_encode_eq {i : Instr} {bs : List Byte} (h : i.wellFormed = true) (hbs : encode i = bs) :
    encode i = bs ∧ decode bs = .ok i [] := by
  refine ⟨hbs, ?_⟩
  have hdecode := decodeOfEncodeIsIdentity i [] h
  rwa [List.append_nil, hbs] at hdecode

/-- Settles O2: the bytes of each row, which then decode by the round trip of O1. -/
theorem workedEncodingExamples : Obligations.WorkedEncodingExamples :=
  ⟨decode_of_encode_eq rfl rfl, decode_of_encode_eq rfl rfl, decode_of_encode_eq rfl rfl, decode_of_encode_eq rfl rfl,
    decode_of_encode_eq rfl rfl, decode_of_encode_eq rfl rfl, decode_of_encode_eq rfl rfl, decode_of_encode_eq rfl rfl,
    decode_of_encode_eq rfl rfl, decode_of_encode_eq rfl rfl, decode_of_encode_eq rfl rfl,
    decodePin_illegal .pinTms (b := 0x02#8) (by decide) [],
    decodeNull_illegal (op := 0x1F#8) (.inr (by decide)) [0x11#8],
    decode_encode_cut (.updateDr (bitsOf 9 0xFF)) 5 rfl (by decide)⟩

/-! ### Programs (R86, R98) -/

theorem decodeProgram_illegal {bs : List Byte} (h : decode bs = .illegal) : decodeProgram bs = ([], .illegalEvent) := by
  cases bs with
  | nil => cases h
  | cons b bs => rw [decodeProgram, List.length_cons, decodeRecords, h]

theorem decodeProgram_truncated {bs : List Byte} (hne : bs ≠ []) (h : decode bs = .truncated) :
    decodeProgram bs = ([], .truncatedEvent) := by
  cases bs with
  | nil => exact absurd rfl hne
  | cons b bs => rw [decodeProgram, List.length_cons, decodeRecords, h]

end Sys2Proof

namespace Sys2Proof.Machine

/-! ### The record a step fetches (R86, R97, R98) -/

theorem fetchStep_of_ok {s : State} {i : Instr} {rest : List Byte} (h : decode s.program = .ok i rest) :
    fetchStep s = exec i { s with program := rest } := by
  unfold fetchStep
  split
  · next hp => rw [hp] at h; cases h
  · next hp => rw [← hp, h]

theorem fetchStep_of_illegal {s : State} (h : decode s.program = .illegal) : fetchStep s = .refused .illegalEvent := by
  unfold fetchStep
  split
  · next hp => rw [hp] at h; cases h
  · next hp => rw [← hp, h]

theorem fetchStep_of_truncated {s : State} (hne : s.program ≠ []) (h : decode s.program = .truncated) :
    fetchStep s = .refused .truncatedEvent := by
  unfold fetchStep
  split
  · next hp => exact absurd hp hne
  · next hp => rw [← hp, h]

theorem fetchStep_of_nil {s : State} (h : s.program = []) : fetchStep s = .next s := by
  rw [fetchStep, h]

/-- When the host leaves the step to the program, the step uses the environment's slot and fetches (log 10). -/
theorem step_runsProgram {s : State} (hc : configValid s.cfg = true) (hs : s.runsProgram) :
    step s = fetchStep { s with inputs := s.inputs.tail } := by
  obtain ⟨htrigger, hsplit, hdue, hirq, hmain⟩ := hs
  rcases step_cases s with ⟨hc', -⟩ | ⟨-, ⟨rest, hin, -⟩ | ⟨rest, hin, -⟩ | ⟨-, -, u, rfl, hquiet⟩⟩
  · rw [hc] at hc'; cases hc'
  · rw [hin] at htrigger; exact absurd rfl htrigger
  · rw [hin] at hsplit; exact absurd rfl hsplit
  · rcases hquiet with ⟨hdue', -⟩ | ⟨-, c, op, rest, hagenda, hmove, -, -⟩ | ⟨-, -, -, hstep⟩ | ⟨-, -, hmain', -, -⟩
    · exact absurd (hdue.symm.trans hdue') nofun
    · cases c with
      | main => exact absurd (hmain.symm.trans hagenda) nofun
      | irq => exact absurd (hirq.symm.trans hmove) nofun
    · exact hstep
    · exact absurd hmain hmain'

/-- Settles O3: the decoder refuses the record, and the step answers the decoder's verdict. -/
theorem illegalRecordsAreRefused : Obligations.IllegalRecordsAreRefused := by
  intro s op rest hc hs hp hop
  have hdecode := decode_illegalRecord hop
  refine ⟨hdecode, ?_⟩
  rw [step_runsProgram hc hs]
  exact fetchStep_of_illegal (hp ▸ hdecode)

theorem step_of_cut_record {s : State} {i : Instr} {k : Nat} (hc : configValid s.cfg = true) (hs : s.runsProgram)
    (hi : i.wellFormed = true) (hk : k + 1 < (encode i).length) (hp : s.program = (encode i).take (k + 1)) :
    step s = .refused .truncatedEvent := by
  have hdecode := decode_encode_cut i k hi hk
  have hne : s.program ≠ [] := by
    intro hnil
    have hlen := congrArg List.length hp
    rw [hnil, List.length_take, List.length_nil] at hlen
    omega
  rw [step_runsProgram hc hs]
  exact fetchStep_of_truncated hne (hp ▸ hdecode)

/-- Settles O4: a cut record decodes as truncated, and a program is decoded record by record. -/
theorem truncatedRecordsAndProgramDecode : Obligations.TruncatedRecordsAndProgramDecode := by
  refine ⟨?_, fun bs => ⟨?_, ?_, decodeProgram_illegal, decodeProgram_truncated⟩⟩
  · intro s i k hc hs hi hpos hk hp
    cases k with
    | zero => exact absurd hpos (Nat.lt_irrefl 0)
    | succ k => exact step_of_cut_record hc hs hi hk hp
  · rintro rfl
    rfl
  · intro i rest h
    exact ⟨decode_length h, decodeProgram_cons h⟩

/-- Settles O5: the step fetches, and the record decides what it does. -/
theorem stepRunsTheDecodedEvent : Obligations.StepRunsTheDecodedEvent := by
  intro s hc hs
  rw [step_runsProgram hc hs]
  exact ⟨fun i rest h => fetchStep_of_ok (s := { s with inputs := s.inputs.tail }) h,
    fun h => fetchStep_of_nil (s := { s with inputs := s.inputs.tail }) h⟩

/-! ### `clock` (R104, R176) -/

theorem exec_clock (s : State) (m d : Bool) : exec (.clock m d) s = .next { s with
    dev := (edge s.cfg s.dev m d).latch false m d
    result := some .ok
    draws := s.draws + 1 } := by
  simp only [exec, execClock, clockCycle_eq, State.returns]

/-- The five pin events write the pins in turn and sample TDO once. -/
theorem execEvents_clockPins (s : State) (m d : Bool) :
    execEvents [.pinTms m, .pinTdi d, .pinTck true, .pinTdo, .pinTck false] s = .next { s with
      dev := (((s.dev.pinTms m).pinTdi d).pinTck s.cfg true).pinTck s.cfg false
      result := some .ok
      draws := s.draws + 1 } :=
  rfl

/-- Settles O12: both come to the one falling edge `edge(m, d)` with its levels latched. -/
theorem clockIsFivePinEvents : Obligations.ClockIsFivePinEvents := by
  intro s m d
  refine ⟨_, exec_clock s m d, ?_, rfl⟩
  rw [execEvents_clockPins, pinWrites_eq]

end Sys2Proof.Machine
end

section
/-! PROOF. The TAP state machine (40_tap_fsm.md): the pins, the transition table, and the edges that only move. -/

namespace Sys2Proof.Machine

/-! ### The transition table (R120, R125) -/

/-- Settles O8: each row is the table's entry of its state. -/
theorem transitionTable : Obligations.TransitionTable := by
  unfold Obligations.TransitionTable
  decide

/-- Whatever the edges do on the way, the TAP state after them is the table followed along their TMS levels. -/
theorem edges_tap (c : Config) (cs : List (Bool × Bool)) (d : Device) :
    (edges c cs d).tap = (cs.map Prod.fst).foldl nextTap d.tap := by
  induction cs generalizing d with
  | nil => rfl
  | cons x cs ih =>
    obtain ⟨m, b⟩ := x
    rw [edges, ih, edge_eq]
    rfl

/-- From each of the 16 states the table leads to `Reset` within five high levels, and stays there. -/
theorem foldl_nextTap_five_high (t : TapState) : [true, true, true, true, true].foldl nextTap t = .reset := by
  cases t <;> rfl

/-- Settles O9: only the TMS levels decide the state, and the table reaches `Reset` and then `Idle`. -/
theorem fiveHighEdgesReachReset : Obligations.FiveHighEdgesReachReset := by
  intro c d b1 b2 b3 b4 b5 b6
  have hreset := foldl_nextTap_five_high d.tap
  exact ⟨(edges_tap c _ d).trans hreset, (edges_tap c _ d).trans (congrArg (nextTap · false) hreset)⟩

/-! ### The pins (R111 to R116) -/

theorem exec_pinTms (s : State) (v : Bool) :
    exec (.pinTms v) s = .next { s with dev := { s.dev with tms := v }, result := some .ok } := rfl

theorem exec_pinTdi (s : State) (v : Bool) :
    exec (.pinTdi v) s = .next { s with dev := { s.dev with tdi := v }, result := some .ok } := rfl

theorem exec_pinTdo (s : State) :
    exec .pinTdo s = .next { s with result := some (.okBit (Config.drawBit s.draws)), draws := s.draws + 1 } := rfl

theorem exec_pinTck (s : State) (v : Bool) :
    exec (.pinTck v) s = .next { s with dev := s.dev.pinTck s.cfg v, result := some .ok } := rfl

/-- A write of 0 to TCK while it is 1 is the falling edge with the latched levels (R113, R118). -/
theorem exec_pinTck_falling {s : State} (h : s.dev.tck = true) :
    exec (.pinTck false) s = .next { s with
      dev := { edge s.cfg s.dev s.dev.tms s.dev.tdi with tck := false }
      result := some .ok } := by
  rw [exec_pinTck, pinTck_false_of_high _ _ h]

/-- A write of the level TCK already has is no edge (R116). -/
theorem Device.pinTck_self (c : Config) (d : Device) : d.pinTck c d.tck = d := by
  cases h : d.tck with
  | true => rw [pinTck_true, ← h]
  | false => rw [pinTck_false_of_low c d h, ← h]

/-- Settles O10: the drawn bit is the TDO sample. -/
theorem tmsTdiAndTdoPins : Obligations.TmsTdiAndTdoPins :=
  fun s v => ⟨exec_pinTms s v, exec_pinTdi s v, _, exec_pinTdo s⟩

/-- Settles O11: neither a rising edge nor a repeated level is a falling edge. -/
theorem onlyFallingEdgesAct : Obligations.OnlyFallingEdgesAct := by
  refine ⟨fun s _ => ?_, fun s => ⟨?_, exec_pinTms s s.dev.tms, exec_pinTdi s s.dev.tdi⟩⟩
  · rw [exec_pinTck, pinTck_true]
  · rw [exec_pinTck, Device.pinTck_self]

/-! ### Edges without an action (R119, R121, R122, R140) -/

/-- `Reset`, `Idle` and the Exit and Pause states have no action, and leaving a Shift state shifts nothing. -/
theorem act_eq_self {d : Device} {m : Bool}
    (h : d.tap ∈ [.reset, .idle, .exit1Dr, .exit1Ir, .pauseDr, .pauseIr, .exit2Dr, .exit2Ir] ∨
      (m = true ∧ d.tap ∈ [.shiftDr, .shiftIr])) (c : Config) (b : Bool) : act c d m b = d := by
  simp only [List.mem_cons, List.not_mem_nil, or_false] at h
  rcases h with (h | h | h | h | h | h | h | h) | ⟨rfl, h | h⟩ <;> simp only [act, h, if_true]

/-- Settles O16: the falling edge acts and then moves, and here the action is none. -/
theorem edgesWithoutAction : Obligations.EdgesWithoutAction := by
  intro s htck h
  rw [exec_pinTck_falling htck, edge_eq, act_eq_self h]
  rfl

end Sys2Proof.Machine
end

section
/-! PROOF. The shift registers (41_shift_registers.md): the register each column of the TAP acts on, the actions of the Scan,
Capture and Shift states, the committed value, and whole scans. -/

namespace Sys2Proof.Machine

/-! ### The active register is the column's (R148) -/

/-- Only the Scan states write the select (R27). -/
theorem ActMove.sel_of_not_scan {c : Config} {d d' : Device} (h : ActMove c d d') (hdr : d.tap ≠ .scanDr)
    (hir : d.tap ≠ .scanIr) : d'.sel = d.sel := by
  cases h with
  | stay => rfl
  | select r hr => exact (hr.elim (fun h => hdr h.1) (fun h => hir h.1)).elim
  | fill _ _ => exact Device.setReg_sel _ _ _
  | commit _ => exact Device.update_sel c d

/-- The DR column is entered from `Scan-DR` only (R127). -/
theorem inDrColumn_nextTap {t : TapState} {m : Bool} (h : inDrColumn (nextTap t m) = true) :
    t = .scanDr ∨ inDrColumn t = true ∧ t ≠ .scanDr ∧ t ≠ .scanIr := by
  cases t with
  | scanDr => exact .inl rfl
  | captureDr | shiftDr | exit1Dr | pauseDr | exit2Dr | updateDr => exact .inr ⟨rfl, nofun, nofun⟩
  | reset | idle | scanIr | captureIr | shiftIr | exit1Ir | pauseIr | exit2Ir | updateIr =>
    cases m <;> cases h

/-- The IR column is entered from `Scan-IR` only (R127). -/
theorem inIrColumn_nextTap {t : TapState} {m : Bool} (h : inIrColumn (nextTap t m) = true) :
    t = .scanIr ∨ inIrColumn t = true ∧ t ≠ .scanDr ∧ t ≠ .scanIr := by
  cases t with
  | scanIr => exact .inl rfl
  | captureIr | shiftIr | exit1Ir | pauseIr | exit2Ir | updateIr => exact .inr ⟨rfl, nofun, nofun⟩
  | reset | idle | scanDr | captureDr | shiftDr | exit1Dr | pauseDr | exit2Dr | updateDr =>
    cases m <;> cases h

theorem scanDrTarget_ne_ir (c : Config) (d : Device) : scanDrTarget c d ≠ .ir := by
  unfold scanDrTarget
  split <;> decide

theorem act_of_scanDr {d : Device} (h : d.tap = .scanDr) (c : Config) (m b : Bool) :
    act c d m b = { d with sel := scanDrTarget c d } := by
  simp only [act, h]

theorem act_of_scanIr {d : Device} (h : d.tap = .scanIr) (c : Config) (m b : Bool) :
    act c d m b = { d with sel := .ir } := by
  simp only [act, h]

/-- An edge that enters a column has just selected its register, and an edge inside a column leaves the select alone. -/
theorem Device.columnSelect.edge {d : Device} (h : d.columnSelect) (c : Config) (m b : Bool) :
    (edge c d m b).columnSelect := by
  obtain ⟨hdr, hir⟩ := h
  have hact := act_move c d m b
  rw [edge_eq]
  constructor
  · intro hcol
    rw [Device.withTap_sel]
    rcases inDrColumn_nextTap hcol with ht | ⟨hin, hnd, hni⟩
    · rw [act_of_scanDr ht]
      exact scanDrTarget_ne_ir c d
    · rw [hact.sel_of_not_scan hnd hni]
      exact hdr hin
  · intro hcol
    rw [Device.withTap_sel]
    rcases inIrColumn_nextTap hcol with ht | ⟨hin, hnd, hni⟩
    · rw [act_of_scanIr ht]
    · rw [hact.sel_of_not_scan hnd hni]
      exact hir hin

/-- Settles O58: a step's device takes moves only, and of these only edges touch the TAP state or the select. -/
theorem stepKeepsColumnSelect : Obligations.StepKeepsColumnSelect := by
  intro s t hcol h
  exact (step_frame h).move.keeps (P := Device.columnSelect) (fun _ _ _ _ hd => hd) (fun _ m b hd => hd.edge s.cfg m b)
    (fun _ _ hd => hd) hcol

/-! ### The actions of the Scan, Capture and Shift states (R135 to R139) -/

theorem nextTap_scanDr (m : Bool) : nextTap .scanDr m = if m then .scanIr else .captureDr := by cases m <;> rfl
theorem nextTap_scanIr (m : Bool) : nextTap .scanIr m = if m then .reset else .captureIr := by cases m <;> rfl

/-- Settles O13: the falling edge selects the register of the column, or BYP, and then moves. -/
theorem scanEdgeSelects : Obligations.ScanEdgeSelects := by
  intro s htck
  rw [exec_pinTck_falling htck, edge_eq]
  constructor
  · intro ht
    rw [act_of_scanDr ht, ht, nextTap_scanDr]
    rfl
  · intro ht
    rw [act_of_scanIr ht, ht, nextTap_scanIr]
    rfl

theorem act_of_capture {d : Device} (h : d.tap = .captureDr ∨ d.tap = .captureIr) (c : Config) (m b : Bool) :
    act c d m b = d.capture := by
  rcases h with h | h <;> simp only [act, h]

/-- Settles O14: the falling edge makes the Capture action and then moves. -/
theorem captureEdgeClearsTheCount : Obligations.CaptureEdgeClearsTheCount := by
  intro s htck ht
  rw [exec_pinTck_falling htck, edge_eq, act_of_capture ht]
  rfl

/-- With TMS low an edge in a Shift state shifts and stays there. -/
theorem edge_of_shift {d : Device} (h : d.tap = .shiftDr ∨ d.tap = .shiftIr) (c : Config) (b : Bool) :
    edge c d false b = d.shift c b := by
  have hstays : nextTap d.tap false = (d.shift c b).tap := by
    rw [Device.shift_tap]
    rcases h with h | h <;> rw [h] <;> rfl
  have hact : act c d false b = d.shift c b := by
    rcases h with h | h <;> simp only [act, h] <;> rfl
  rw [edge_eq, hact, Device.withTap_self _ _ hstays.symm]

/-- Settles O15: the falling edge is the Shift action, whose new accumulator is twice the old one and the new bit. -/
theorem shiftEdgeAppendsTdi : Obligations.ShiftEdgeAppendsTdi := by
  intro s _ htck htms ht
  rw [exec_pinTck_falling htck, htms, edge_of_shift ht, Device.shift, shiftIn_eq]
  rfl

/-! ### The committed value (R153) -/

theorem clampCount_zero : clampCount 0 = 1 := rfl

theorem clampCount_of_le {count : Nat} (h1 : 1 ≤ count) (h : count ≤ 32) : clampCount count = count := by
  simp only [clampCount]; omega

theorem clampCount_of_ge {count : Nat} (h : 32 ≤ count) : clampCount count = 32 := by
  simp only [clampCount]; omega

/-- Without a counted bit the commit is the newest bit of the accumulator (R147). -/
theorem commitValue_zero (acc : Word) : commitValue acc 0 = (BitVec.ofBool (acc.getLsbD 0)).setWidth 32 := by
  apply BitVec.eq_of_getLsbD_eq
  intro j hj
  rw [commitValue_getLsbD, clampCount_zero, BitVec.getLsbD_setWidth, BitVec.getLsbD_ofBool]
  cases j with
  | zero => rfl
  | succ j => simp

/-- From 32 bits on the commit is the whole accumulator reversed. -/
theorem commitValue_of_ge {count : Nat} (acc : Word) (h : 32 ≤ count) : commitValue acc count = rev32 acc := by
  rw [commitValue, clampCount_of_ge h]
  exact BitVec.ushiftRight_zero _

/-- Settles O19: the three ranges are those in which the clamp gives 1, the count itself, and 32. -/
theorem commitArithmetic : Obligations.CommitArithmetic := by
  refine fun acc count => ⟨?_, fun h1 h31 => ?_, fun h32 => ?_⟩
  · rintro rfl
    exact ⟨clampCount_zero, commitValue_zero acc⟩
  · have hclamp := clampCount_of_le h1 (h31.trans (by decide))
    exact ⟨hclamp, fun j => by rw [commitValue_getLsbD, hclamp]⟩
  · have hclamp := clampCount_of_ge h32
    exact ⟨hclamp, commitValue_of_ge acc h32, fun j => by rw [commitValue_getLsbD, hclamp]⟩

/-! ### Whole scans (R141, R145, R147, R149) -/

/-- The value a register holds after a commit that follows a new accumulator and count. -/
theorem Device.update_fill_hold (c : Config) (d : Device) (t : TapState) (x : ShiftReg) :
    ((((d.setReg d.sel x).update c).withTap t).reg d.sel).hold = commitValue x.acc x.count := by
  have h := Device.update_reg c (d.setReg d.sel x)
  rw [Device.setReg_sel, Device.reg_setReg] at h
  rw [Device.withTap_reg, h]

/-- What a scan from its Capture state through Update commits: the bits shifted in, by the bits counted. -/
theorem hold_after_scan (c : Config) (bits : List Bool) {d : Device} (x y z w m : Bool)
    (h : d.tap = .captureDr ∨ d.tap = .captureIr) :
    ((edges c ([(false, x)] ++ dataCycles bits ++ [(true, y), (true, z), (m, w)]) d).reg d.sel).hold =
      commitValue (accAfter (d.reg d.sel).acc bits) (countAfter c 0 bits.length) := by
  rw [edges_scan c bits d x y z w m h, Device.update_fill_hold]

/-- Settles O20: a count that does not wrap is the number of bits, and these decide every bit of the commit. -/
theorem scanCommitsItsValue : Obligations.ScanCommitsItsValue := by
  intro c d bits x y z w m ht h1 h32 hexact
  rw [hold_after_scan c bits x y z w m ht, countAfter_exact c _ hexact, commit_accAfter _ bits h1, if_pos h32]

/-- The clamped count of a scan of at least one bit: that of the counter, wrapped if it has a modulus (R30, R143). -/
theorem clampCount_countAfter (c : Config) {n : Nat} (h : 1 ≤ n) :
    clampCount (countAfter c 0 n) = match c.countModulus with
      | none => min n 32
      | some q => min (max (n % q) 1) 32 := by
  cases hc : c.countModulus with
  | none => rw [countAfter_none c 0 n hc, Nat.zero_add, clampCount, Nat.max_eq_left h]
  | some q =>
    have hwrapped := countAfter_some c 0 n q hc
    rw [Nat.zero_mod, Nat.zero_add] at hwrapped
    rw [hwrapped, clampCount]

/-- No more bits are counted than were shifted, but for the one that the clamp counts at least. -/
theorem clampCount_countAfter_le (c : Config) {n : Nat} (h : 1 ≤ n) : clampCount (countAfter c 0 n) ≤ n := by
  rw [clampCount_countAfter c h]
  cases c.countModulus with
  | none => exact Nat.min_le_left n 32
  | some q => exact (Nat.min_le_left _ _).trans (max_le (Nat.mod_le n q) h)

/-- Settles O21: the clamped count is at most the number of bits shifted, so that the commit holds the last of these; with no
bit shifted the count is 0. -/
theorem overLongAndZeroCountCommits : Obligations.OverLongAndZeroCountCommits := by
  intro c d x y z w m ht _
  constructor
  · intro bits k h1 hk j
    have hclamp : clampCount (countAfter c 0 bits.length) = k := (clampCount_countAfter c h1).trans hk.symm
    rw [hold_after_scan c bits x y z w m ht, commit_accAfter_getLsbD _ _ _ _ (clampCount_countAfter_le c h1), hclamp]
  · rw [edges_emptyScan c d x y z m ht, Device.update_fill_hold, commitValue_zero]

/-- An edge in Pause with TMS low changes nothing. -/
theorem edges_pause (c : Config) (k : Nat) (z : Bool) {d : Device} (h : d.tap = .pauseDr ∨ d.tap = .pauseIr) :
    edges c (List.replicate k (false, z)) d = d := by
  induction k with
  | zero => rfl
  | succ k ih =>
    have hstays : edge c d false z = d := by
      rw [edge_eq]
      rcases h with h | h <;> simp only [act, h] <;> exact Device.withTap_self d _ h
    rw [List.replicate_succ, edges, hstays, ih]

/-- Settles O22: the edges from Shift to Pause and back only move, and the edges in Pause do not even move. -/
theorem pausedScanIsUnchanged : Obligations.PausedScanIsUnchanged := by
  intro c d k x y z u v ht
  obtain ⟨p, hp, hleave, hreturn⟩ : ∃ p, (p = .pauseDr ∨ p = .pauseIr) ∧
      edges c [(true, x), (false, y)] d = d.withTap p ∧ edges c [(true, u), (false, v)] (d.withTap p) = d.withTap d.tap := by
    rcases ht with h | h
    · exact ⟨.pauseDr, .inl rfl, by simp [edges, edge_eq, act, h, nextTap], by simp [edges, edge_eq, act, h, nextTap]⟩
    · exact ⟨.pauseIr, .inr rfl, by simp [edges, edge_eq, act, h, nextTap], by simp [edges, edge_eq, act, h, nextTap]⟩
  rw [edges_append, edges_append, hleave, edges_pause c k z hp, hreturn]
  rfl

/-! ### A DR scan through BYP (R136, R186) -/

theorem drCycles_length (bits : List Bool) : (drCycles bits).length = bits.length + 6 := by
  simp only [drCycles, dataCycles, List.length_append, List.length_map, List.length_cons, List.length_nil]
  omega

/-- An `update_dr` of at least one bit that passes its checks and cannot fail part-way makes all its cycles (R178, R197). -/
theorem exec_updateDr_of_canScan {s : State} {bits : List Bool} (hs : s.canScan) (h : 1 ≤ bits.length) :
    exec (.updateDr bits) s = .next { s with
      dev := cycleDevice s.cfg (drCycles bits) s.dev
      draws := s.draws + (drCycles bits).length
      result := some (callResult (.updateDr bits) (samplesFrom s.draws (drCycles bits).length)) } := by
  obtain ⟨hready, howned, hmid⟩ := hs
  have hmade : madeOfPins (.updateDr bits) = true := by
    cases bits with
    | nil => exact absurd h (by decide)
    | cons b bs => rfl
  have hrun := exec_ofCall hmade hready fun _ => howned
  have howner : s.ownedFor (.updateDr bits) = s := if_neg nofun
  rw [howner, runCall_whole _ _ hmid] at hrun
  exact hrun

/-- The bits out of a DR scan are as many as its bits in (R188). -/
theorem callResult_updateDr (bits : List Bool) (draws : Nat) :
    ∃ out, out.length = bits.length ∧
      callResult (.updateDr bits) (samplesFrom draws (drCycles bits).length) = .okBits bits.length (packBits out) := by
  refine ⟨_, ?_, rfl⟩
  rw [List.length_take, List.length_drop, samplesFrom_length, drCycles_length]
  omega

/-- With a bypass instruction committed, a DR scan from `Idle` shifts into BYP and commits it, with no hook (R136). -/
theorem cycleDevice_drCycles_bypass {c : Config} {d : Device} (bits : List Bool) (h : d.tap = .idle)
    (hbyp : d.ir.hold ∈ c.bypassSelect) :
    cycleDevice c (drCycles bits) d = { d with
      sel := .byp
      byp := { acc := accAfter d.byp.acc bits
               count := countAfter c 0 bits.length
               hold := commitValue (accAfter d.byp.acc bits) (countAfter c 0 bits.length) }
      tck := false
      tms := false
      tdi := false } := by
  have htarget : scanDrTarget c d = .byp := if_pos hbyp
  rw [cycleDevice_drCycles c bits d h, htarget, ← h]
  rfl

/-- Settles O36: the scan goes to BYP, and as its count does not wrap, BYP commits the scan's value. -/
theorem updateDrThroughBypass : Obligations.UpdateDrThroughBypass := by
  intro s bits v hs hidle h1 hexact hbyp hv
  obtain ⟨out, hlen, hout⟩ := callResult_updateDr bits s.draws
  refine ⟨out, hlen, ?_⟩
  rw [exec_updateDr_of_canScan hs h1, hout, drCycles_length, cycleDevice_drCycles_bypass bits hidle hbyp,
    countAfter_exact _ _ hexact, commit_accAfter _ bits h1, ← hv]
  rfl

end Sys2Proof.Machine
end

section
/-! PROOF. Pairing and memory (42_tdr_memory.md): what a commit does for each active register and phase, what a falling edge and
a step can do to the memory, and the emulator's control surface. -/

namespace Sys2Proof.Machine

/-! ### The commit of each register (R136, R143, R155 to R159) -/

/-- BYP has no hook (R136). -/
theorem Device.update_of_byp {d : Device} (h : d.sel = .byp) (c : Config) :
    d.update c = { d with byp := { d.byp with hold := commitValue d.byp.acc d.byp.count } } := by
  cases d; cases h; rfl

theorem Device.update_of_ir {d : Device} (h : d.sel = .ir) (c : Config) :
    d.update c = { d with
      ir := { d.ir with hold := commitValue d.ir.acc d.ir.count }
      phase := phaseAfterIr c d.phase (commitValue d.ir.acc d.ir.count) } := by
  cases d; cases h; rfl

/-- The DR hook and the latching of the committed value touch different fields. -/
theorem Device.update_of_dr {d : Device} (h : d.sel = .dr) (c : Config) :
    d.update c = { drCommitHook c d (commitValue d.dr.acc d.dr.count) with
      dr := { d.dr with hold := commitValue d.dr.acc d.dr.count } } := by
  cases d; cases h; rfl

theorem drCommitHook_of_none {d : Device} (h : d.phase = .none) (c : Config) (v : Word) : drCommitHook c d v = d := by
  simp only [drCommitHook, h, phaseAfterDr]
  rw [← h]

theorem drCommitHook_of_armed {d : Device} (h : d.phase = .armed) (c : Config) (v : Word) :
    drCommitHook c d v = { d with phase := .addr v } := by
  simp only [drCommitHook, h, phaseAfterDr]

theorem drCommitHook_of_addr {d : Device} {a : Word} (h : d.phase = .addr a) (c : Config) (v : Word) :
    drCommitHook c d v = { d with
      phase := if c.pRearm then .armed else .none
      mem := memWrite d.mem a v } := by
  simp only [drCommitHook, h, phaseAfterDr]

/-- The falling edge in an Update state commits and then moves to `Scan-DR` or `Idle` (R120, R143). -/
theorem edge_of_update {d : Device} (h : d.tap = .updateDr ∨ d.tap = .updateIr) (c : Config) (m b : Bool) :
    edge c d m b = (d.update c).withTap (if m then .scanDr else .idle) := by
  rcases h with h | h <;> cases m <;> simp only [edge_eq, act, h, nextTap] <;> rfl

/-- Settles O17: with IR or BYP active the commit is `Device.update_of_ir` or `Device.update_of_byp`. -/
theorem irAndBypassCommitEdge : Obligations.IrAndBypassCommitEdge := by
  intro s v htck ht
  rw [exec_pinTck_falling htck, edge_of_update ht]
  constructor
  · rintro hsel rfl
    rw [Device.update_of_ir hsel]
    rfl
  · rintro hsel rfl
    rw [Device.update_of_byp hsel]
    rfl

/-- Settles O18: the phase and the memory are those of the DR hook, which has one equation per phase. -/
theorem drCommitEdge : Obligations.DrCommitEdge := by
  rintro s v htck ht hsel rfl
  rw [exec_pinTck_falling htck, edge_of_update ht, Device.update_of_dr hsel]
  refine ⟨_, _, rfl, fun hp => ?_, fun hp => ?_, fun a hp => ?_⟩
  · rw [drCommitHook_of_none hp]
    exact ⟨hp, rfl⟩
  · rw [drCommitHook_of_armed hp]
    exact ⟨rfl, rfl⟩
  · rw [drCommitHook_of_addr hp]
    exact ⟨rfl, rfl⟩

/-! ### What an edge and a step can do to the memory (R31, R159, R160) -/

/-- An action leaves the memory alone, or it is a DR commit that writes one word at the pending address. -/
theorem ActMove.mem_cases {c : Config} {d d' : Device} (h : ActMove c d d') :
    d'.mem = d.mem ∨ ∃ a v, (d.tap = .updateDr ∨ d.tap = .updateIr) ∧ d.sel = .dr ∧ d.phase = .addr a ∧
      d'.mem = memWrite d.mem a v := by
  cases h with
  | stay | select => exact .inl rfl
  | fill acc count => exact .inl (d.setReg_mem _ _)
  | commit ht =>
    cases hsel : d.sel with
    | byp => rw [Device.update_of_byp hsel]; exact .inl rfl
    | ir => rw [Device.update_of_ir hsel]; exact .inl rfl
    | dr =>
      rw [Device.update_of_dr hsel]
      cases hp : d.phase with
      | none => rw [drCommitHook_of_none hp]; exact .inl rfl
      | armed => rw [drCommitHook_of_armed hp]; exact .inl rfl
      | addr a => rw [drCommitHook_of_addr hp]; exact .inr ⟨a, _, ht, rfl, rfl, rfl⟩

/-- Moving to the next TAP state leaves the memory alone, so an edge does to it what the action does. -/
theorem edge_mem_cases (c : Config) (d : Device) (m b : Bool) :
    (edge c d m b).mem = d.mem ∨ ∃ a v, (d.tap = .updateDr ∨ d.tap = .updateIr) ∧ d.sel = .dr ∧ d.phase = .addr a ∧
      (edge c d m b).mem = memWrite d.mem a v :=
  (act_move c d m b).mem_cases

theorem edge_mem_wf {d : Device} (h : d.mem.wf = true) (c : Config) (m b : Bool) : (edge c d m b).mem.wf = true := by
  rcases edge_mem_cases c d m b with hm | ⟨a, v, -, -, -, hm⟩
  · rwa [hm]
  · rw [hm]
    exact memWrite_wf a v h

/-- Settles O57: a step's device takes moves only; the pin latches are not memory, an edge writes a word or nothing, and an
attached array is canonical. -/
theorem stepKeepsMemoryCanonical : Obligations.StepKeepsMemoryCanonical := by
  intro s t hwf h
  exact (step_frame h).move.keeps (P := fun d => d.mem.wf = true) (fun _ _ _ _ hd => hd)
    (fun _ m b hd => edge_mem_wf hd s.cfg m b) (fun _ ws _ => attachWords_wf ws) hwf

/-- Settles O25: with TCK low there is no edge, and an edge writes no word but the pending one. -/
theorem fallingEdgeMemoryFrame : Obligations.FallingEdgeMemoryFrame := by
  intro s t x h hx
  cases htck : s.dev.tck with
  | false =>
    rw [exec_pinTck, pinTck_false_of_low _ _ htck] at h
    cases h
    exact ⟨rfl, rfl⟩
  | true =>
    rw [exec_pinTck_falling htck] at h
    have hedge : t.dev.mem = (edge s.cfg s.dev s.dev.tms s.dev.tdi).mem := by cases h; rfl
    rcases edge_mem_cases s.cfg s.dev s.dev.tms s.dev.tdi with hm | ⟨a, v, ht, hsel, hp, hm⟩
    · rw [hedge, hm]
      exact ⟨rfl, rfl⟩
    · rw [hedge, hm]
      exact ⟨readByte_memWrite_ne _ a v x (hx a htck ht hsel hp), memWrite_words _ a v⟩

/-! ### The bounded word write (R162, R74) -/

/-- Of two writes to one address the later wins. -/
theorem memWrite_memWrite {m : Memory} (a v w : Word) (h : m.wf = true) :
    memWrite (memWrite m a v) a w = memWrite m a w := by
  have hv := memWrite_wf a v h
  refine memory_ext_words (memWrite_wf a w hv) (memWrite_wf a w h) (by simp only [memWrite_words]) fun i _ => ?_
  rw [readWord_memWrite a w i hv, readWord_memWrite a w i h, readWord_memWrite a v i h, memWrite_words]
  split_ifs <;> rfl

/-- Settles O24: the laws of the word write, at the word index `a / 4`. -/
theorem boundedWordWrite : Obligations.BoundedWordWrite := by
  intro m a v hwf
  rw [← wordIndex_eq]
  exact ⟨fun hin => ⟨readWord_memWrite_same a v hwf hin, memWrite_words m a v, readWord_memWrite_ne m a v⟩,
    fun hout => memWrite_out m a v hout.not_gt, memWrite_memWrite a v v hwf⟩

/-! ### The emulator's control surface (R166 to R172) -/

theorem exec_emuRead {s : State} (h : s.cfg.backend = .emulator) (a : Word) :
    exec (.emuRead a) s = .next ((s.memRead a).2.returns (.okWord (s.memRead a).1)) := by
  simp only [exec, execEmuRead, h]

theorem exec_emuAttach {s : State} (h : s.cfg.backend = .emulator) (ws : List Word) :
    exec (.emuAttach ws) s = .next { s with dev := { s.dev with mem := attachWords ws }, result := some .ok } := by
  simp only [exec, execEmuAttach, h]
  rfl

theorem exec_emuRead_bitBang {s : State} (h : s.cfg.backend = .bitBang) (a : Word) :
    exec (.emuRead a) s = .refused .emulatorOnly := by
  simp only [exec, execEmuRead, h]

theorem exec_emuAttach_bitBang {s : State} (h : s.cfg.backend = .bitBang) (ws : List Word) :
    exec (.emuAttach ws) s = .refused .emulatorOnly := by
  simp only [exec, execEmuAttach, h]

/-- Settles O26: in range the direct read answers the word, out of range it draws one. -/
theorem directReadReturnsTheWord : Obligations.DirectReadReturnsTheWord := by
  intro s a h
  rw [exec_emuRead h, ← wordIndex_eq]
  rcases memRead_cases s a with ⟨hin, hread⟩ | ⟨hout, w, hread⟩
  · rw [hread]
    exact ⟨fun _ => rfl, fun hout => absurd hin hout.not_gt⟩
  · rw [hread]
    exact ⟨fun hin => absurd hin hout, fun _ => ⟨w, rfl⟩⟩

/-- Settles O27: the array bound is `attachWords`. -/
theorem attachBindsTheWords : Obligations.AttachBindsTheWords := by
  intro s ws h
  exact ⟨attachWords ws, exec_emuAttach h ws, attachWords_words ws, attachWords_wf ws, readWord_attachWords ws⟩

/-- Under the bit-bang backend a register read ends its procedure, whatever was to be done with the word (R206, log 8). -/
theorem withRegister_bitBang {s : State} (h : s.cfg.backend = .bitBang) (c : ContextId) (a : Word)
    (body : Word → State → State) : withRegister c a s body = s.abort c (.refused .physicalReadRefused) := by
  simp only [withRegister, h]

/-- Settles O28: each of the three operations is one register read and a use of its word. -/
theorem physicalBackendRefusesReads : Obligations.PhysicalBackendRefusesReads := by
  intro s ws a b d w k c h
  refine ⟨exec_emuAttach_bitBang h ws, exec_emuRead_bitBang h a, fun op hop => ?_⟩
  simp only [List.mem_cons, List.not_mem_nil, or_false] at hop
  rcases hop with rfl | rfl | rfl <;> exact congrArg Host.Outcome.next (withRegister_bitBang h c _ _)

end Sys2Proof.Machine
end

section
/-! PROOF. Transport calls (43_transport.md): their checks and results, the cycles they make, and where `reset` and `tick`
leave the device. -/

namespace Sys2Proof.Machine

/-! ### Latches and results (R198 to R201, R251) -/

/-- Settles O29: neither event makes a check or a pin event. -/
theorem initAndTeardown : Obligations.InitAndTeardown :=
  fun _ => ⟨rfl, rfl⟩

/-- The two error codes are not the code of `Ok`, and differ (R251, D18). -/
theorem ErrorCodes.codes_distinct (e : ErrorCodes) :
    e.transport ≠ 0#32 ∧ e.inval ≠ 0#32 ∧ e.transport ≠ e.inval := by
  have h := e.distinct
  simp only [Bool.and_eq_true, bne_iff_ne] at h
  obtain ⟨⟨htransport, hinval⟩, hdiffer⟩ := h
  exact ⟨htransport, hinval, hdiffer⟩

/-- Settles O31: the null check comes first, and the codes of the two errors are those the parameters keep apart. -/
theorem nullHandleIsInvalidArgument : Obligations.NullHandleIsInvalidArgument := by
  refine ⟨fun _ _ => rfl, fun g r => ?_⟩
  obtain ⟨htransport, hinval, hdiffer⟩ := ErrorCodes.codes_distinct g.errorCodes
  refine ⟨?_, hdiffer.symm⟩
  cases r with
  | ok | okBit | okBits | okId | okWord => exact iff_of_true rfl rfl
  | transportError => exact iff_of_false htransport nofun
  | invalidArgument => exact iff_of_false hinval nofun

/-! ### The checks of a call (R178, R179) -/

theorem isEmpty_of_one_le_length {bits : List Bool} (h : 1 ≤ bits.length) : bits.isEmpty = false :=
  List.isEmpty_eq_false_iff.2 (List.length_pos_iff.1 h)

theorem madeOfPins_updateIr {bits : List Bool} (h : 1 ≤ bits.length) : madeOfPins (.updateIr bits) = true := by
  rw [madeOfPins, isEmpty_of_one_le_length h, Bool.not_false]

/-- A scan of at least one bit goes through the checks of R178. -/
theorem exec_updateIr_of_one_le_length {bits : List Bool} (h : 1 ≤ bits.length) (s : State) :
    exec (.updateIr bits) s = admitted true s (runCall (.updateIr bits)) := by
  simp [exec, execUpdateIr, isEmpty_of_one_le_length h]

theorem exec_updateDr_of_one_le_length {bits : List Bool} (h : 1 ≤ bits.length) (s : State) :
    exec (.updateDr bits) s = admitted true s (runCall (.updateDr bits)) := by
  simp [exec, execUpdateDr, isEmpty_of_one_le_length h]

/-- Check 3 of R178. -/
theorem admitted_of_not_ready {s : State} (h : s.ready = false) (p : Bool) (body : State → State) :
    admitted p s body = .next (s.returns .transportError) := by
  simp [admitted, checkCall, h]

/-- Check 4 of R178. -/
theorem admitted_of_released {s : State} (hr : s.ready = true) (hp : s.pinsOwned = false) (body : State → State) :
    admitted true s body = .refused .pinsReleased := by
  simp [admitted, checkCall, hr, hp]

/-- Settles O39: each of the four goes through check 4. -/
theorem releasedPinsRefuseScans : Obligations.ReleasedPinsRefuseScans := by
  intro s bits n hr hp h1
  have hrefused := admitted_of_released hr hp
  refine ⟨hrefused (runCall .readId), ?_, ?_, hrefused (runCall (.tick n))⟩
  · rw [exec_updateIr_of_one_le_length h1, hrefused]
  · rw [exec_updateDr_of_one_le_length h1, hrefused]

/-- Settles O40: each of the five goes through check 3, before `reset` takes the pins. -/
theorem unreadyLinkIsTransportError : Obligations.UnreadyLinkIsTransportError := by
  intro s bits n hr h1 i hi
  have herror := admitted_of_not_ready hr
  simp only [List.mem_cons, List.not_mem_nil, or_false] at hi
  rcases hi with rfl | rfl | rfl | rfl | rfl
  · exact herror false fun s => runCall .reset s.takePins
  · exact herror true (runCall .readId)
  · rw [exec_updateIr_of_one_le_length h1, herror]; rfl
  · rw [exec_updateDr_of_one_le_length h1, herror]; rfl
  · exact herror true (runCall (.tick n))

/-- With the link ready a zero-length scan returns what it would, else that or `TransportError` (R179). -/
theorem zeroLengthScan_results (s : State) (r₀ : Result) :
    (s.ready = true → zeroLengthScan s r₀ = { s with result := some r₀ }) ∧
      (s.ready = false → ∃ r, (r = r₀ ∨ r = .transportError) ∧
        zeroLengthScan s r₀ = { s with result := some r, draws := s.draws + 1 }) := by
  rcases zeroLengthScan_cases s r₀ with ⟨hr, h⟩ | ⟨hr, h | h⟩
  · exact ⟨fun _ => h, fun hr' => absurd (hr.symm.trans hr') nofun⟩
  · exact ⟨fun hr' => absurd (hr.symm.trans hr') nofun, fun _ => ⟨r₀, .inl rfl, h⟩⟩
  · exact ⟨fun hr' => absurd (hr.symm.trans hr') nofun, fun _ => ⟨_, .inr rfl, h⟩⟩

/-- Settles O41: both zero-length scans are `zeroLengthScan`, which makes no cycle. -/
theorem zeroLengthScansDoNothing : Obligations.ZeroLengthScansDoNothing := by
  intro s
  obtain ⟨hir, hir'⟩ := zeroLengthScan_results s .ok
  obtain ⟨hdr, hdr'⟩ := zeroLengthScan_results s (.okBits 0 [])
  refine ⟨fun hr => ⟨congrArg _ (hir hr), congrArg _ (hdr hr)⟩, fun hr => ⟨?_, ?_⟩⟩
  · obtain ⟨r, hres, h⟩ := hir' hr
    exact ⟨r, hres, congrArg _ h⟩
  · obtain ⟨r, hres, h⟩ := hdr' hr
    exact ⟨r, hres, congrArg _ h⟩

/-! ### An admitted call makes its cycles (R176, R180, R184, R186, R190, R193, R197) -/

/-- After its checks a call has the pins: `reset` takes them, and every other call had them. -/
theorem State.ownedFor_of_admitted {s : State} {call : TransportCall} (hmade : madeOfPins call = true)
    (hp : needsPins call = true → s.pinsOwned = true) : s.ownedFor call = { s with pinsOwned := true } := by
  cases call with
  | reset => rfl
  | teardown => cases hmade
  | readId | updateIr | updateDr | tick => rw [← hp rfl]; rfl

theorem irCycles_length (bits : List Bool) : (irCycles bits).length = bits.length + 7 := by
  simp only [irCycles, dataCycles, List.length_append, List.length_map, List.length_cons, List.length_nil]
  omega

theorem wordBits_length (w : Word) : (wordBits w).length = 32 := length_bitsOf 32 _

theorem isError_callResult (call : TransportCall) (samples : List Bool) :
    isError (some (callResult call samples)) = false := by
  cases call <;> rfl

/-- A call that passes its checks and cannot fail part-way, from wherever the TAP is. -/
theorem exec_ofCall_whole {s : State} {call : TransportCall} (hmade : madeOfPins call = true) (hr : s.ready = true)
    (hp : needsPins call = true → s.pinsOwned = true) (hmid : mayFailMidway s.cfg = false) :
    exec (.ofCall call) s = .next { s with
      dev := cycleDevice s.cfg (callCycles s.cfg call) s.dev
      pinsOwned := true
      result := some (callResult call (samplesFrom s.draws (callCycles s.cfg call).length))
      draws := s.draws + (callCycles s.cfg call).length } := by
  rw [exec_ofCall hmade hr hp, State.ownedFor_of_admitted hmade hp, runCall_whole call { s with pinsOwned := true } hmid]

/-- With the pins already taken the call leaves `pins_owned` alone. -/
theorem exec_ofCall_of_canScan {s : State} {call : TransportCall} (hs : s.canScan) (hmade : madeOfPins call = true) :
    exec (.ofCall call) s = .next { s with
      dev := cycleDevice s.cfg (callCycles s.cfg call) s.dev
      result := some (callResult call (samplesFrom s.draws (callCycles s.cfg call).length))
      draws := s.draws + (callCycles s.cfg call).length } := by
  obtain ⟨hready, howned, hmid⟩ := hs
  rw [exec_ofCall_whole hmade hready (fun _ => howned) hmid, ← howned]

/-- Settles O30: the call makes the cycles of its framing, which are the data bits and a fixed number of others. -/
theorem operationMakesItsCycles : Obligations.OperationMakesItsCycles := by
  intro s call hmade hr hp hmid
  refine ⟨_, _, exec_ofCall_whole hmade hr hp hmid, isError_callResult _ _, rfl, ?_⟩
  cases call with
  | reset | teardown => rfl
  | readId => exact (irCycles_length _).trans (congrArg (· + 7) (wordBits_length _))
  | updateIr bits => exact irCycles_length bits
  | updateDr bits => exact drCycles_length bits
  | tick n => exact List.length_replicate

/-- Settles O42: an operation makes some first `k` of its cycles, and only one that makes them all returns its own
result, which is no error. -/
theorem partWayFailureKeepsACyclePrefix : Obligations.PartWayFailureKeepsACyclePrefix := by
  intro s call _ _ hr hp hmade
  have hexec := exec_ofCall hmade hr hp
  rw [State.ownedFor_of_admitted hmade hp] at hexec
  obtain ⟨k, r, n, hrun, -, hcase⟩ :=
    runOperation_cases (callCycles s.cfg call) (callResult call) { s with pinsOwned := true }
  refine ⟨_, k, hexec.trans (congrArg _ hrun), ?_, rfl, ?_, hr, rfl, rfl⟩
  · rcases hcase with ⟨hk, -, -⟩ | ⟨hk, -⟩ <;> omega
  · rcases hcase with ⟨hk, rfl, -⟩ | ⟨rfl, o, -, rfl⟩
    · exact iff_of_true rfl hk
    · refine iff_of_false (fun herror => ?_) (Nat.lt_irrefl _)
      exact absurd ((congrArg isError herror).symm.trans (isError_callResult call o)) (by decide)

/-! ### `reset` (R180 to R182) -/

theorem exec_reset {s : State} (hr : s.ready = true) (hmid : mayFailMidway s.cfg = false) :
    exec .reset s = .next { s with
      dev := cycleDevice s.cfg resetCycles s.dev
      pinsOwned := true
      result := some .ok
      draws := s.draws + 6 } :=
  exec_ofCall_whole (call := .reset) rfl hr nofun hmid

theorem cycleDevice_resetCycles (c : Config) (d : Device) :
    cycleDevice c resetCycles d = (edges c resetCycles d).latch false false false :=
  cycleDevice_append_last c (List.replicate 5 (true, false)) false false d

/-- Five cycles with TMS high reach `Reset` from every state, and one with TMS low leaves it for `Idle`. -/
theorem cycleDevice_resetCycles_tap (c : Config) (d : Device) : (cycleDevice c resetCycles d).tap = .idle := by
  rw [cycleDevice_resetCycles]
  exact (edges_tap c resetCycles d).trans (congrArg (nextTap · false) (foldl_nextTap_five_high d.tap))

/-- From `Idle` the way to `Reset` goes through both Scan states and no other state that acts. -/
theorem edges_resetCycles_of_idle {d : Device} (h : d.tap = .idle) (c : Config) :
    edges c resetCycles d = ({ d with sel := .ir } : Device).withTap .idle := by
  simp [resetCycles, List.replicate, edges, edge_eq, act, h, nextTap, Device.withTap]

/-- From `Shift-DR` it goes through `Update-DR` first. -/
theorem edges_resetCycles_of_shiftDr {d : Device} (h : d.tap = .shiftDr) (c : Config) :
    edges c resetCycles d = ({ d.update c with sel := .ir } : Device).withTap .idle := by
  have hcycles : resetCycles = [(true, false), (true, false)] ++
      (true, false) :: [(true, false), (true, false), (false, false)] := rfl
  have hexit : edges c [(true, false), (true, false)] d = d.withTap .updateDr := by
    simp [edges, edge_eq, act, h, nextTap]
  rw [hcycles, edges_append, hexit, edges, edge_of_update (.inl rfl), Device.withTap_update]
  rfl

/-- Settles O32: the end state by the table alone; from `Idle` the only action on the way is that of the Scan states. -/
theorem resetEndsInIdle : Obligations.ResetEndsInIdle := by
  intro s hr hmid
  refine ⟨_, exec_reset hr hmid, cycleDevice_resetCycles_tap _ _, fun hidle => ?_⟩
  rw [cycleDevice_resetCycles, edges_resetCycles_of_idle hidle, ← hidle]
  rfl

/-- The phase and the memory after a DR commit of `v`, in each pairing phase (R157 to R159). -/
theorem drCommitHook_phases (c : Config) (d : Device) (v : Word) :
    (d.phase = .none → (drCommitHook c d v).phase = .none ∧ (drCommitHook c d v).mem = d.mem) ∧
      (d.phase = .armed → (drCommitHook c d v).phase = .addr v ∧ (drCommitHook c d v).mem = d.mem) ∧
      ∀ a, d.phase = .addr a →
        (drCommitHook c d v).phase = (if c.pRearm then .armed else .none) ∧
          (drCommitHook c d v).mem = memWrite d.mem a v := by
  refine ⟨fun hp => ?_, fun hp => ?_, fun a hp => ?_⟩
  · rw [drCommitHook_of_none hp]
    exact ⟨hp, rfl⟩
  · rw [drCommitHook_of_armed hp]
    exact ⟨rfl, rfl⟩
  · rw [drCommitHook_of_addr hp]
    exact ⟨rfl, rfl⟩

/-- Settles O33: the commit on the way is `Device.update_of_dr`; after it only the select and the TAP state change. -/
theorem resetInShiftCommits : Obligations.ResetInShiftCommits := by
  intro s hr hmid ht hsel
  refine ⟨_, exec_reset hr hmid, cycleDevice_resetCycles_tap _ _, ?_⟩
  rw [cycleDevice_resetCycles, edges_resetCycles_of_shiftDr ht, Device.update_of_dr hsel]
  exact ⟨rfl, drCommitHook_phases s.cfg s.dev (commitValue s.dev.dr.acc s.dev.dr.count)⟩

/-! ### `tick` (R193, R194) -/

/-- An edge in `Idle` with TMS low changes nothing. -/
theorem edges_idle {d : Device} (h : d.tap = .idle) (c : Config) (n : Nat) :
    edges c (List.replicate n (false, false)) d = d := by
  induction n with
  | zero => rfl
  | succ n ih =>
    have hstays : edge c d false false = d := by
      simp only [edge_eq, act, h, nextTap]
      exact Device.withTap_self d _ h
    rw [List.replicate_succ, edges, hstays, ih]

theorem cycleDevice_idle {d : Device} (h : d.tap = .idle) (c : Config) (n : Nat) :
    cycleDevice c (List.replicate (n + 1) (false, false)) d = d.latch false false false := by
  rw [List.replicate_succ', cycleDevice_append_last, ← List.replicate_succ', edges_idle h]

/-- Settles O38: the cycles of `tick` in `Idle` only drive the pins low, and with `n = 0` there is none. -/
theorem tickWaitsInIdle : Obligations.TickWaitsInIdle := by
  intro s n hs
  have hexec := exec_ofCall_of_canScan (call := .tick n) hs rfl
  have hlen : (callCycles s.cfg (.tick n)).length = n.toNat := List.length_replicate
  rw [hlen] at hexec
  refine ⟨_, hexec, rfl, fun hidle => ?_⟩
  by_cases hn : n = 0
  · subst hn
    rfl
  · rw [if_neg hn]
    obtain ⟨k, hk⟩ : ∃ k, n.toNat = k + 1 :=
      Nat.exists_eq_succ_of_ne_zero fun hzero => hn (BitVec.eq_of_toNat_eq hzero)
    simp only [callCycles, tickCycles, hk]
    exact cycleDevice_idle hidle s.cfg k

end Sys2Proof.Machine
end

section
/-! PROOF. Scans from `Idle` (43_transport.md R184 to R191): the device an IR or DR scan leaves, and what the call returns. -/

namespace Sys2Proof.Machine

/-! ### IR scans (R185, R191) -/

/-- An IR scan from `Idle` shifts into IR, commits it, and runs the IR hook. -/
theorem cycleDevice_irCycles_committed {c : Config} {d : Device} (bits : List Bool) (h : d.tap = .idle) :
    cycleDevice c (irCycles bits) d = { d with
      sel := .ir
      ir := { acc := accAfter d.ir.acc bits
              count := countAfter c 0 bits.length
              hold := commitValue (accAfter d.ir.acc bits) (countAfter c 0 bits.length) }
      phase := phaseAfterIr c d.phase (commitValue (accAfter d.ir.acc bits) (countAfter c 0 bits.length))
      tck := false
      tms := false
      tdi := false } := by
  rw [cycleDevice_irCycles c bits d h, ← h]
  rfl

/-- Settles O34: as the count does not wrap, IR commits the scan's value. -/
theorem updateIrFromIdle : Obligations.UpdateIrFromIdle := by
  intro s bits v hs hidle h1 hexact hv
  have hexec := exec_ofCall_of_canScan hs (madeOfPins_updateIr h1)
  simp only [callCycles] at hexec
  rw [irCycles_length, cycleDevice_irCycles_committed bits hidle, countAfter_exact _ _ hexact,
    commit_accAfter _ bits h1, ← hv] at hexec
  exact hexec

theorem rev32_rev32 (x : Word) : rev32 (rev32 x) = x := by
  simp only [rev32, BitVec.reverse_reverse_eq]

/-- A word shifted in whole leaves its reversal in the accumulator (R29, R142). -/
theorem accAfter_wordBits (acc w : Word) : accAfter acc (wordBits w) = rev32 w := by
  have hcommit := commit_wordBits acc w
  rw [commitValue_of_ge _ (Nat.le_refl 32)] at hcommit
  exact (rev32_rev32 _).symm.trans (congrArg rev32 hcommit)

/-- Settles O37: an IR scan of the 32 bits of `ID_TDI_FILL`, whose samples make the id. -/
theorem readIdFromIdle : Obligations.ReadIdFromIdle := by
  intro s hs hidle hexact
  have hexec := exec_ofCall_of_canScan (call := .readId) hs rfl
  simp only [callCycles] at hexec
  rw [irCycles_length, cycleDevice_irCycles_committed _ hidle, wordBits_length, countAfter_exact _ _ hexact,
    commit_wordBits, accAfter_wordBits] at hexec
  exact ⟨_, hexec⟩

/-! ### DR scans (R187) -/

/-- With no bypass instruction committed, a DR scan from `Idle` shifts into DR, commits it, and runs the DR hook. -/
theorem cycleDevice_drCycles_committed {c : Config} {d : Device} (bits : List Bool) (h : d.tap = .idle)
    (hbyp : d.ir.hold ∉ c.bypassSelect) :
    cycleDevice c (drCycles bits) d =
      { drCommitHook c d (commitValue (accAfter d.dr.acc bits) (countAfter c 0 bits.length)) with
        sel := .dr
        dr := { acc := accAfter d.dr.acc bits
                count := countAfter c 0 bits.length
                hold := commitValue (accAfter d.dr.acc bits) (countAfter c 0 bits.length) }
        tck := false
        tms := false
        tdi := false } := by
  have htarget : scanDrTarget c d = .dr := if_neg hbyp
  rw [cycleDevice_drCycles c bits d h, htarget]
  simp only [drCommitHook, ← h]
  rfl

/-- Settles O35: as the count does not wrap, DR commits the scan's value; the phase and the memory are those of the DR hook. -/
theorem updateDrFromIdle : Obligations.UpdateDrFromIdle := by
  intro s bits v hs hidle h1 hexact hbyp hv
  obtain ⟨out, hlen, hout⟩ := callResult_updateDr bits s.draws
  refine ⟨(drCommitHook s.cfg s.dev v).phase, (drCommitHook s.cfg s.dev v).mem, out, hlen, ?_,
    drCommitHook_phases s.cfg s.dev v⟩
  rw [exec_updateDr_of_canScan hs h1, hout, drCycles_length, cycleDevice_drCycles_committed bits hidle hbyp,
    countAfter_exact _ _ hexact, commit_accAfter _ bits h1, ← hv]
  rfl

end Sys2Proof.Machine
end

section
/-! PROOF. The word and block writes (43_transport.md R203 to R205): sequences of events, the three scans of a word write, and
the memory after a block. -/

namespace Sys2Proof.Machine

/-! ### Sequences of events (R203) -/

/-- A sequence goes on after events that returned no error. -/
theorem execEvents_cons_ok {i : Instr} {s t : State} (h : exec i s = .next t) (hok : isError t.result = false)
    (is : List Instr) : execEvents (i :: is) s = execEvents is t := by
  simp [execEvents, h, hok]

theorem execEvents_append {is js : List Instr} {s t : State} (h : execEvents is s = .next t)
    (hok : isError t.result = false) : execEvents (is ++ js) s = execEvents js t := by
  induction is generalizing s with
  | nil => cases h; rfl
  | cons i is ih =>
    cases hexec : exec i s with
    | next u =>
      cases hu : isError u.result with
      | false =>
        rw [execEvents_cons_ok hexec hu] at h
        rw [List.cons_append, execEvents_cons_ok hexec hu, ih h]
      | true =>
        simp only [execEvents, hexec, hu, if_true] at h
        cases h
        exact absurd (hu.symm.trans hok) nofun
    | fault f => simp [execEvents, hexec] at h
    | refused r => simp [execEvents, hexec] at h

/-! ### The scans of a word write (R204) -/

/-- What `n` cycles of scans from `Idle` to `Idle` keep: the next scan starts as the first did. -/
structure ScanFrame (n : Nat) (s t : State) : Prop where
  cfg : t.cfg = s.cfg
  ready : t.ready = s.ready
  pinsOwned : t.pinsOwned = s.pinsOwned
  host : t.host = s.host
  idle : t.dev.tap = .idle
  byp : t.dev.byp = s.dev.byp
  noError : isError t.result = false
  draws : t.draws = s.draws + n

theorem ScanFrame.trans {m n : Nat} {s t u : State} (h : ScanFrame m s t) (h' : ScanFrame n t u) :
    ScanFrame (m + n) s u where
  cfg := h'.cfg.trans h.cfg
  ready := h'.ready.trans h.ready
  pinsOwned := h'.pinsOwned.trans h.pinsOwned
  host := h'.host.trans h.host
  idle := h'.idle
  byp := h'.byp.trans h.byp
  noError := h'.noError
  draws := by rw [h'.draws, h.draws, Nat.add_assoc]

theorem ScanFrame.canScan {n : Nat} {s t : State} (h : ScanFrame n s t) (hs : s.canScan) : t.canScan := by
  obtain ⟨hready, howned, hmid⟩ := hs
  exact ⟨h.ready.trans hready, h.pinsOwned.trans howned, h.cfg ▸ hmid⟩

theorem countExact_of_le {c : Config} {m n : Nat} (h : countExact c n) (hmn : m ≤ n) : countExact c m :=
  fun q hq => Nat.lt_of_le_of_lt hmn (h q hq)

/-- `ADDR_INSTR` fits in the `IR_LEN` bits it is scanned as (R10). -/
theorem addrInstr_fits {c : Config} (h : configValid c = true) :
    1 ≤ c.irLen ∧ c.irLen ≤ 32 ∧ c.addrInstr.toNat < 2 ^ c.irLen := by
  simp only [configValid, Bool.and_eq_true, decide_eq_true_eq] at h
  obtain ⟨⟨⟨⟨⟨⟨h1, h32⟩, hfits⟩, -⟩, -⟩, -⟩, -⟩ := h
  exact ⟨h1, h32, hfits⟩

/-- A word scanned as its `n` low bits, with no bit set above them, is the number scanned. -/
theorem word_of_scanned_bits {n : Nat} {w : Word} (hn : n ≤ 32) (hw : w.toNat < 2 ^ n) :
    w = BitVec.ofNat 32 (if (bitsOf n w.toNat).length ≤ 32 then scanValue (bitsOf n w.toNat)
      else scanValue (bitsOf n w.toNat) / 2 ^ ((bitsOf n w.toNat).length - 32)) := by
  rw [length_bitsOf, if_pos hn, scanValue_bitsOf, Nat.mod_eq_of_lt hw, BitVec.ofNat_toNat, BitVec.setWidth_eq]

/-- The IR scan of a word write arms the pairing, whatever its phase was. -/
theorem exec_scan_addrInstr {s : State} (hc : configValid s.cfg = true) (hs : s.canScan) (hidle : s.dev.tap = .idle)
    (hexact : countExact s.cfg 32) : ∃ t,
      exec (.updateIr (bitsOf s.cfg.irLen s.cfg.addrInstr.toNat)) s = .next t ∧ ScanFrame (s.cfg.irLen + 7) s t ∧
        t.dev.phase = .armed ∧ t.dev.mem = s.dev.mem ∧ t.dev.ir.hold = s.cfg.addrInstr := by
  obtain ⟨h1, h32, hfits⟩ := addrInstr_fits hc
  have hlen : (bitsOf s.cfg.irLen s.cfg.addrInstr.toNat).length = s.cfg.irLen := length_bitsOf _ _
  have hexec := updateIrFromIdle s _ _ hs hidle (hlen.symm ▸ h1) (hlen.symm ▸ countExact_of_le hexact h32)
    (word_of_scanned_bits h32 hfits)
  rw [hlen, if_pos rfl] at hexec
  exact ⟨_, hexec, ⟨rfl, rfl, rfl, rfl, hidle, rfl, rfl, rfl⟩, rfl, rfl, rfl⟩

/-- A DR scan of a word: it becomes the pending address, or is written to it. -/
theorem exec_scan_word {s : State} (w : Word) (hs : s.canScan) (hidle : s.dev.tap = .idle) (hexact : countExact s.cfg 32)
    (hbyp : s.dev.ir.hold ∉ s.cfg.bypassSelect) : ∃ t,
      exec (.updateDr (wordBits w)) s = .next t ∧ ScanFrame 38 s t ∧ t.dev.ir = s.dev.ir ∧ t.dev.dr.hold = w ∧
        (s.dev.phase = .armed → t.dev.phase = .addr w ∧ t.dev.mem = s.dev.mem) ∧
        (∀ a, s.dev.phase = .addr a →
          t.dev.phase = (if s.cfg.pRearm then .armed else .none) ∧ t.dev.mem = memWrite s.dev.mem a w) := by
  have hlen := wordBits_length w
  obtain ⟨p, m, out, -, hexec, -, harmed, haddr⟩ := updateDrFromIdle s (wordBits w) w hs hidle (by rw [hlen]; decide)
    (hlen.symm ▸ hexact) hbyp (word_of_scanned_bits (Nat.le_refl 32) w.isLt)
  rw [hlen] at hexec
  exact ⟨_, hexec, ⟨rfl, rfl, rfl, rfl, hidle, rfl, rfl, rfl⟩, rfl, rfl, harmed, haddr⟩

/-- Settles O43: the first scan arms the pairing, the second makes `a` the pending address, the third writes `d` to it. -/
theorem writeWordEffect : Obligations.WriteWordEffect := by
  intro s a d hc hs hidle hexact hbyp
  obtain ⟨s1, hexec1, hf1, hphase1, hmem1, hir1⟩ := exec_scan_addrInstr hc hs hidle hexact
  obtain ⟨s2, hexec2, hf2, hir2, -, harmed, -⟩ := exec_scan_word a (hf1.canScan hs) hf1.idle (by rwa [hf1.cfg])
    (by rwa [hir1, hf1.cfg])
  obtain ⟨hphase2, hmem2⟩ := harmed hphase1
  have hf := hf1.trans hf2
  obtain ⟨s3, hexec3, hf3, hir3, hdr3, -, haddr⟩ := exec_scan_word d (hf.canScan hs) hf2.idle (by rwa [hf.cfg])
    (by rwa [hir2, hir1, hf.cfg])
  obtain ⟨hphase3, hmem3⟩ := haddr a hphase2
  have hall := hf.trans hf3
  obtain ⟨hready, howned, -⟩ := hall.canScan hs
  have hrun : execEvents (writeWordEvents s.cfg a d) s = .next s3 := by
    rw [writeWordEvents, execEvents_cons_ok hexec1 hf1.noError, execEvents_cons_ok hexec2 hf2.noError,
      execEvents_cons_ok hexec3 hf3.noError, execEvents]
  refine ⟨s3, hrun, hall.idle, ?_, ?_, ?_, hdr3, hall.byp, hall.cfg, hready, howned, hall.host, hall.noError, hall.draws⟩
  · rw [hmem3, hmem2, hmem1]
  · rw [hphase3, hf.cfg]
  · rw [hir3, hir2, hir1]

/-! ### The memory after a block (R102, R205) -/

/-- Write `w0, w1, …` at `a, a + 4, …`, in order: the memory after a block write. -/
def Memory.writeWords : Memory → Word → List Word → Memory
  | m, _, [] => m
  | m, a, w :: ws => Memory.writeWords (memWrite m a w) (a + 4#32) ws

/-- The word that word `k` of a block at `a` is written to, modulo the address space. -/
def blockIndex (a : Word) (k : Nat) : Nat :=
  (a.toNat / 4 + k) % 2 ^ 30

theorem blockIndex_zero (a : Word) : blockIndex a 0 = wordIndex a := by
  have := a.isLt
  rw [blockIndex, wordIndex_eq, Nat.add_zero]
  omega

theorem blockIndex_succ (a : Word) (k : Nat) : blockIndex a (k + 1) = blockIndex (a + 4#32) k := by
  have := a.isLt
  simp only [blockIndex, BitVec.toNat_add, BitVec.toNat_ofNat]
  omega

@[simp] theorem Memory.writeWords_words (m : Memory) (a : Word) (ws : List Word) : (m.writeWords a ws).words = m.words := by
  induction ws generalizing m a with
  | nil => rfl
  | cons w ws ih => rw [Memory.writeWords, ih, memWrite_words]

/-- A word that no word of the block is written to is unchanged. -/
theorem Memory.readWord_writeWords_ne (m : Memory) (a : Word) (ws : List Word) (i : Nat)
    (h : ∀ k, k < ws.length → i ≠ blockIndex a k) : (m.writeWords a ws).readWord i = m.readWord i := by
  induction ws generalizing m a with
  | nil => rfl
  | cons w ws ih =>
    have hhead : i ≠ wordIndex a := blockIndex_zero a ▸ h 0 (Nat.zero_lt_succ _)
    rw [Memory.writeWords, ih _ _ fun k hk => blockIndex_succ a k ▸ h (k + 1) (Nat.succ_lt_succ hk),
      readWord_memWrite_ne _ _ _ _ hhead]

/-- The last word of the block that is written to a word in range stands there. -/
theorem Memory.readWord_writeWords {m : Memory} (hm : m.wf = true) (a : Word) (ws : List Word) (k : Nat) (hk : k < ws.length)
    (hin : blockIndex a k < m.words) (hlast : ∀ l, k < l → l < ws.length → blockIndex a l ≠ blockIndex a k) :
    (m.writeWords a ws).readWord (blockIndex a k) = ws[k] := by
  induction ws generalizing m a k with
  | nil => cases hk
  | cons w ws ih =>
    rw [Memory.writeWords]
    cases k with
    | zero =>
      have hrest : ∀ l, l < ws.length → blockIndex a 0 ≠ blockIndex (a + 4#32) l := fun l hl =>
        blockIndex_succ a l ▸ (hlast (l + 1) (Nat.zero_lt_succ l) (Nat.succ_lt_succ hl)).symm
      rw [Memory.readWord_writeWords_ne _ _ _ _ hrest]
      rw [blockIndex_zero] at hin ⊢
      exact readWord_memWrite_same a w hm hin
    | succ k =>
      rw [blockIndex_succ] at hin ⊢
      refine ih (memWrite_wf a w hm) _ k _ (by rwa [memWrite_words]) fun l hkl hl => ?_
      rw [← blockIndex_succ, ← blockIndex_succ]
      exact hlast (l + 1) (Nat.succ_lt_succ hkl) (Nat.succ_lt_succ hl)

/-- A block write is its word writes, one after the other. -/
theorem execEvents_writeBlock {s : State} (a : Word) (ws : List Word) (hc : configValid s.cfg = true) (hs : s.canScan)
    (hidle : s.dev.tap = .idle) (hexact : countExact s.cfg 32) (hbyp : s.cfg.addrInstr ∉ s.cfg.bypassSelect) : ∃ t,
      execEvents (writeBlockEvents s.cfg a ws) s = .next t ∧ t.dev.tap = .idle ∧ t.dev.mem = s.dev.mem.writeWords a ws ∧
        t.draws = s.draws + ws.length * (s.cfg.irLen + 83) := by
  induction ws generalizing s a with
  | nil => exact ⟨s, rfl, hidle, rfl, by simp⟩
  | cons w ws ih =>
    obtain ⟨u, hrun, hidle', hmem, -, -, -, -, hcfg, hready, howned, -, hok, hdraws⟩ :=
      writeWordEffect s a w hc hs hidle hexact hbyp
    obtain ⟨-, -, hmid⟩ := hs
    rw [← hcfg] at hc hmid hexact hbyp
    obtain ⟨t, hrest, ht, hmem', hdraws'⟩ := ih (a + 4#32) hc ⟨hready, howned, hmid⟩ hidle' hexact hbyp
    refine ⟨t, ?_, ht, ?_, ?_⟩
    · rw [writeBlockEvents, execEvents_append hrun hok, ← hcfg, hrest]
    · rw [hmem', hmem, Memory.writeWords]
    · rw [hdraws', hdraws, hcfg, List.length_cons]
      ring

/-- Settles O44: the memory is that of the block's words written in order. -/
theorem writeBlockEffect : Obligations.WriteBlockEffect := by
  intro s a ws hc hs hidle hexact hbyp hwf
  obtain ⟨t, hrun, ht, hmem, hdraws⟩ := execEvents_writeBlock a ws hc hs hidle hexact hbyp
  have hwords : t.dev.mem.words = s.dev.mem.words := by rw [hmem, Memory.writeWords_words]
  refine ⟨t, hrun, ht, hwords, ?_, ?_, hdraws⟩ <;> rw [hmem]
  · exact Memory.readWord_writeWords hwf a ws
  · exact Memory.readWord_writeWords_ne _ a ws

end Sys2Proof.Machine
end

section
/-! PROOF. What a context's operations do outside the block (45_host_protocol.md): the lock, the register reads of `verify`, the
end of a run, and the two polls. -/

namespace Sys2Proof.Machine

/-! ### A context that waits for the lock (R238, R257, R266) -/

theorem canMove_of_waiting {s : State} {c x : ContextId} {rest : List HostOp} (ha : s.agenda c = .acquire :: rest)
    (hl : s.host.lock = .held x) : canMove c s = false := by
  simp [canMove, ha, hl]

theorem splitContext_frame (c : ContextId) (s : State) : HostFrame c s (splitContext c s) := by
  unfold splitContext
  split
  · next i rest _ =>
    cases h : splitEvent c .failCall i (s.setAgenda c rest) with
    | none => exact .refl c s
    | some t => exact (HostFrame.setContext c s _).trans (splitEvent_frame h)
  · exact .refl c s

theorem splitContext_of_acquire {s : State} {c : ContextId} {rest : List HostOp} (ha : s.agenda c = .acquire :: rest) :
    splitContext c s = s := by
  simp [splitContext, ha]

theorem splitProgram_other (s : State) {c : ContextId} (hc : c ≠ .main) :
    (splitProgram s).host.context c = s.host.context c := by
  unfold splitProgram
  split
  · next i rest _ =>
    cases h : splitEvent .main (.returnResult .transportError) i { s with program := rest } with
    | none => rfl
    | some t => exact (splitEvent_frame h).other c hc
  · rfl
  · rfl

theorem fetchStep_host {s t : State} (h : fetchStep s = .next t) : t.host = s.host := by
  unfold fetchStep at h
  split at h
  · cases h; rfl
  · split at h
    · exact (exec_frame h).host
    · cases h
    · cases h

/-- A trigger is delivered only with no handler running, and touches the irq context only (R256). -/
theorem deliverTrigger_waiting {s : State} {c : ContextId} {op : HostOp} {rest : List HostOp} (ha : s.agenda c = op :: rest)
    (hd : triggerDue s = true) : (deliverTrigger s).host.context c = s.host.context c := by
  cases c with
  | main => rfl
  | irq => simp [triggerDue, ha] at hd

/-- The slot `split` begins no event of a waiting context: its next operation is none. -/
theorem splitStep_waiting {s : State} {c : ContextId} {rest : List HostOp} (ha : s.agenda c = .acquire :: rest) :
    (splitStep s).host.context c = s.host.context c := by
  have hctx : ∀ c', (splitContext c' s).host.context c = s.host.context c := by
    intro c'
    by_cases hc : c = c'
    · rw [← hc, splitContext_of_acquire ha]
    · exact (splitContext_frame c' s).other c hc
  unfold splitStep
  split
  · next hd => exact deliverTrigger_waiting ha hd
  · split
    · exact hctx .irq
    · split
      · next hmain => exact splitProgram_other s fun hc => by simp [← hc, ha] at hmain
      · exact hctx .main

/-- Whatever the step, a context waiting at its `acquire` while the lock is held is as before. -/
theorem step_waiting {s t : State} {c x : ContextId} {rest : List HostOp} (ha : s.agenda c = .acquire :: rest)
    (hl : s.host.lock = .held x) (h : step s = .next t) : t.host.context c = s.host.context c := by
  rcases step_cases s with ⟨-, hs⟩ | ⟨-, ⟨slots, -, hs⟩ | ⟨slots, -, hs⟩ | ⟨-, -, u, rfl, hquiet⟩⟩
  · rw [hs] at h; cases h
  · rw [hs] at h
    cases h
    unfold raiseTrigger
    split <;> cases c <;> rfl
  · rw [hs] at h
    cases h
    exact splitStep_waiting (s := { s with inputs := slots }) ha
  · rcases hquiet with ⟨hd, hs⟩ | ⟨-, c', op, ops, -, hmove, -, hs⟩ | ⟨-, -, -, hs⟩ | ⟨-, -, -, -, hs⟩ <;> rw [hs] at h
    · cases h
      exact deliverTrigger_waiting (s := { s with inputs := s.inputs.tail }) ha hd
    · have hwait : canMove c { s with inputs := s.inputs.tail } = false := canMove_of_waiting ha hl
      have hc : c ≠ c' := fun hc => by rw [← hc, hwait] at hmove; cases hmove
      rw [(hostStep_frame h).other c hc, State.setAgenda_host, HostState.context_setContext_ne _ _ _ _ hc]
    · rw [fetchStep_host h]
    · cases h

/-- A main context that waits while nothing else can move is stuck (R266, log 19). -/
theorem step_stuck {s : State} {x : ContextId} {rest : List HostOp} (hc : configValid s.cfg = true)
    (hin : s.inputs = [] ∨ s.inputs = [.quiet]) (ht : triggerDue s = false) (hi : canMove .irq s = false)
    (ha : s.agenda .main = .acquire :: rest) (hl : s.host.lock = .held x) : step s = .fault .stuck := by
  have hagent : ∀ u : State, triggerDue u = false → canMove .irq u = false → u.agenda .main = .acquire :: rest →
      u.host.lock = .held x → agentStep u = .fault .stuck := by
    intro u ht hi ha hl
    simp [agentStep, ht, hi, mainStep, ha, canMove_of_waiting ha hl]
  rcases hin with hin | hin
  · simp only [step, hc, if_true, machineStep, hin]
    exact hagent s ht hi ha hl
  · simp only [step, hc, if_true, machineStep, hin]
    exact hagent { s with inputs := [] } ht hi ha hl

/-- Settles O52: the lock's operations are the next step of a context that can move; a waiting context cannot. -/
theorem blockedContextsIssueNothing : Obligations.BlockedContextsIssueNothing := by
  refine ⟨fun s c rest hs => ⟨fun ha hl => ?_, fun ha hl => ?_⟩, fun s t c rest ha hl h => step_waiting (c := .irq) ha hl h,
    fun s t c rest ha hl h => step_waiting (c := .main) ha hl h,
    fun s c rest hc hin ht hi ha hl => step_stuck hc hin ht hi ha hl⟩
  · rw [step_acquire hs ha hl]
    cases c <;> rfl
  · have hheld : (s.setAgenda c rest).host.lock = .held c := by simp [hl]
    rw [step_undisturbed hs ha nofun]
    simp only [hostStep, releaseLock, hheld, if_true]
    cases c <;> rfl

/-! ### Register reads (R206, R216) -/

/-- Under the emulator a register read returns the word that the direct read gives, which the procedure then uses. -/
theorem withRegister_emulator {s : State} (h : s.cfg.backend = .emulator) (c : ContextId) (a : Word)
    (body : Word → State → State) :
    withRegister c a s body = body (s.memRead a).1 ((s.memRead a).2.returns (.okWord (s.memRead a).1)) := by
  simp [withRegister, h]

theorem memRead_of_in_range {s : State} {a : Word} (h : wordIndex a < s.dev.mem.words) :
    s.memRead a = (s.dev.mem.readWord (wordIndex a), s) :=
  if_pos h

/-- A word that differs leaves the postcode and the failure to do, before what else there is (R222). -/
theorem agenda_compareWord_of_ne {x w : Word} (h : x ≠ w) (s : State) (c : ContextId) (k : Nat) (rest : List Word) (t : Word) :
    (compareWord c k w rest t x s).agenda c = postcodeOps s.cfg 0x6#8 ++ .fail (.mismatch k w x) :: s.agenda c := by
  rw [compareWord, if_neg h, State.agenda_push, List.append_assoc]
  cases c <;> rfl

/-- Settles O48: the word read is compared once, and both outcomes only push what is next. -/
theorem verifyStopsAtTheFirstMismatch : Obligations.VerifyStopsAtTheFirstMismatch := by
  intro s c k w t rest a hback ha hin x hx
  have hread : hostStep c (.compareWords k (w :: rest) t) s =
      .next (compareWord c k w rest t x (s.returns (.okWord x))) := by
    simp only [hostStep]
    rw [← ha, withRegister_emulator hback, memRead_of_in_range hin, ← hx]
  refine ⟨_, hread, ?_⟩
  by_cases hmatch : x = w
  · rw [compareWord, if_pos hmatch]
    exact ⟨rfl, rfl, fun _ => ⟨by simp, by simp⟩, fun hne => absurd hmatch hne⟩
  · have hagenda := agenda_compareWord_of_ne hmatch (s.returns (.okWord x)) c k rest t
    rw [compareWord, if_neg hmatch] at hagenda ⊢
    exact ⟨rfl, rfl, fun heq => absurd heq hmatch, fun _ => ⟨hagenda, by simp⟩⟩

/-! ### The register-map check (R49, R226) -/

/-- The check writes its report and nothing else: whether the halt and soft-reset bits are clear, where it can read them. -/
theorem checkRegisterMap_reports (s : State) : ∃ ok, checkRegisterMap s = s.setHost { s.host with registerMapOk := ok } ∧
    (s.cfg.backend = .emulator → wordIndex s.cfg.haltCtrlAddr < s.dev.mem.words → (ok = true ↔
      s.dev.mem.readWord (wordIndex s.cfg.haltCtrlAddr) &&& (haltMask s.cfg ||| softResetMask s.cfg) = 0#32)) := by
  unfold checkRegisterMap
  split
  · next hback => exact ⟨s.host.registerMapOk, rfl, fun h => absurd (hback.symm.trans h) nofun⟩
  · split
    · exact ⟨_, rfl, fun _ _ => decide_eq_true_iff⟩
    · next hout => exact ⟨s.host.registerMapOk, rfl, fun _ hin => absurd hin hout⟩

/-- What the check reports, when it reads the word and when it does not. -/
theorem checkRegisterMap_eq {s : State} {ok : Bool}
    (hread : s.cfg.backend = .emulator → wordIndex s.cfg.haltCtrlAddr < s.dev.mem.words → (ok = true ↔
      s.dev.mem.readWord (wordIndex s.cfg.haltCtrlAddr) &&& (haltMask s.cfg ||| softResetMask s.cfg) = 0#32))
    (hnone : s.cfg.backend = .bitBang ∨ s.dev.mem.words ≤ wordIndex s.cfg.haltCtrlAddr → ok = s.host.registerMapOk) :
    checkRegisterMap s = s.setHost { s.host with registerMapOk := ok } := by
  unfold checkRegisterMap
  cases hback : s.cfg.backend with
  | bitBang => rw [hnone (.inl hback)]; rfl
  | emulator =>
    by_cases hin : wordIndex s.cfg.haltCtrlAddr < s.dev.mem.words
    · have hok : ok = decide (s.dev.mem.readWord (wordIndex s.cfg.haltCtrlAddr) &&&
          (haltMask s.cfg ||| softResetMask s.cfg) = 0#32) := by
        rw [Bool.eq_iff_iff, decide_eq_true_iff]
        exact hread hback hin
      simp only [hin, if_true, hok]
    · simp only [hin, if_false]
      rw [hnone (.inr (Nat.le_of_not_lt hin))]
      rfl

/-! ### The end of a run (R215, R229, R232, R239) -/

theorem pollExhausted_of_lt {g : Config} {reads : Nat} (h : ∀ b, g.pollBound = some b → reads < b) :
    pollExhausted g reads = false := by
  unfold pollExhausted
  split
  · rfl
  · next b hb => exact decide_eq_false (Nat.not_le.2 (h b hb))

/-- The end of a run puts the sequencer in `Idle`, and checks the register map. -/
theorem endProcedure_run (s : State) : ∃ u, endProcedure .run s = u ∧ u.host.seq = .idle ∧
    (∀ c, u.host.context c = s.host.context c) ∧ u.host.workaroundApplied = s.host.workaroundApplied ∧
    u.host.arcResetObserved = s.host.arcResetObserved ∧ u.dev = s.dev ∧ u.pinsOwned = s.pinsOwned := by
  obtain ⟨ok, hcheck, -⟩ := checkRegisterMap_reports s
  refine ⟨_, rfl, rfl, ?_⟩
  rw [endProcedure, hcheck]
  exact ⟨fun c => by cases c <;> rfl, rfl, rfl, rfl, rfl⟩

/-- What is left of a run after an error is its end: it puts the sequencer in `Idle` and keeps the error as the run's result. -/
theorem abort_in_run {s v : State} {c : ContextId} {started ops tail : List HostOp} (r : ProcResult)
    (hs : ∀ op ∈ started, ∀ b, op ≠ .endProcedure b) (hr : ops <:+ mainRunOps s.cfg) (hne : ops ≠ [])
    (ha : s.agenda c = started ++ ops ++ tail) (hv : v.host = s.host) :
    ∃ u, (v.abort c r).agenda c = .endProcedure .run :: tail ∧ ((v.abort c r).host.context c).outcome = some r ∧
      (v.abort c r).host.workaroundApplied = s.host.workaroundApplied ∧
      hostStep c (.endProcedure .run) ((v.abort c r).setAgenda c tail) = .next u ∧ u.host.seq = .idle ∧
      (u.host.context c).outcome = some r ∧ u.host.workaroundApplied = s.host.workaroundApplied ∧ u.dev = v.dev ∧
      u.agenda c = tail := by
  have hagenda : v.agenda c = started ++ ops ++ tail := by rw [State.agenda, hv]; exact ha
  obtain ⟨u, hend, hidle, hcontext, happlied, -, hdev, -⟩ := endProcedure_run ((v.abort c r).setAgenda c tail)
  refine ⟨u, by rw [State.agenda_abort, hagenda, unwind_run s.cfg started ops tail hs hr hne], ?_, ?_, congrArg _ hend,
    hidle, ?_, ?_, hdev, ?_⟩
  · simp [State.abort]
  · simp [State.abort, hv]
  · simp [hcontext, State.abort]
  · simp [happlied, State.abort, hv]
  · simp [State.agenda, hcontext]

/-- Each of the operations that end a procedure ends it at once, with the device of the event that failed (R215). -/
theorem hostStep_of_endsProcedure {op : HostOp} {s s' : State} {r : ProcResult} (h : endsProcedure op s s' r)
    (c : ContextId) : ∃ v : State, hostStep c op s = .next (v.abort c r) ∧ v.dev = s'.dev ∧ v.host = s.host := by
  rcases h with ⟨i, rfl, hexec, hresult⟩ | ⟨i, q, rfl, hexec, rfl, rfl⟩ | ⟨k, rfl, hreads, hpoll⟩ |
    ⟨hback, rfl, rfl, hop⟩ | ⟨rfl, rfl, rfl⟩ | ⟨rfl, rfl⟩
  · refine ⟨s', ?_, rfl, (exec_frame hexec).host⟩
    rcases hresult with ⟨hresult, rfl⟩ | ⟨hresult, rfl⟩ <;> simp [hostStep, procedureEvent, hexec, hresult]
  · exact ⟨s', by simp [hostStep, procedureEvent, hexec], rfl, rfl⟩
  · have hgoes : pollExhausted s.cfg k = false := pollExhausted_of_lt hreads
    rcases hpoll with ⟨hexec, hresult, rfl⟩ | ⟨q, hexec, rfl, rfl⟩
    · exact ⟨s', by simp [hostStep, pollId, hgoes, hexec, hresult], rfl, (exec_frame hexec).host⟩
    · exact ⟨s', by simp [hostStep, pollId, hgoes, hexec], rfl, rfl⟩
  · refine ⟨s', ?_, rfl, rfl⟩
    rcases hop with ⟨a, set, clear, rfl⟩ | ⟨a, rfl⟩ | ⟨k, w, ws, t, rfl⟩ <;>
      exact congrArg _ (withRegister_bitBang hback c _ _)
  · exact ⟨s'.returns .transportError, rfl, rfl, rfl⟩
  · exact ⟨s', rfl, rfl, rfl⟩

/-- Settles O49: the operation aborts, and the nearest boundary ahead is the end of the run, but inside the run's `verify`. -/
theorem errorEndsTheRun : Obligations.ErrorEndsTheRun := by
  refine ⟨?_, fun s c => ⟨_, rfl, rfl, ?_⟩, ?_⟩
  · intro s s' c op r started ops tail hstarted hr hne ha hends
    obtain ⟨v, hstep, hdev, hhost⟩ := hostStep_of_endsProcedure hends c
    obtain ⟨u, hagenda, houtcome, happlied, hend, hidle, houtcome', happlied', hdev', hagenda'⟩ :=
      abort_in_run r hstarted hr hne ha hhost
    exact ⟨_, u, hstep, hagenda, houtcome, hdev, happlied, hend, hidle, houtcome', happlied', hdev'.trans hdev, hagenda'⟩
  · rw [State.agenda_push, runVerifyOps]
    split <;> rfl
  · intro s s' c op r started rest hstarted ha hends
    obtain ⟨v, hstep, hdev, hhost⟩ := hostStep_of_endsProcedure hends c
    have hagenda : v.agenda c = s.agenda c := by rw [State.agenda, hhost]; rfl
    refine ⟨_, hstep, ?_, rfl, ?_, hdev⟩
    · rw [State.agenda_abort, hagenda, ha, unwind_append started rest .verify hstarted]
    · cases c <;> rfl

/-! ### Polls (R192, R239) -/

theorem pollExhausted_of_bound {g : Config} {b : Nat} (h : g.pollBound = some b) : pollExhausted g b = true := by
  simp [pollExhausted, h]

/-- A poll that has made its bound of reads gives up, whichever of the two it is. -/
theorem hostStep_exhausted_poll {s : State} {b : Nat} (h : s.cfg.pollBound = some b) (c : ContextId) {op : HostOp}
    (hop : op ∈ [.pollPowerGood b, .pollId b]) : hostStep c op s = .next (s.abort c .pollTimeout) := by
  have hexhausted := pollExhausted_of_bound h
  simp only [List.mem_cons, List.not_mem_nil, or_false] at hop
  rcases hop with rfl | rfl
  · simp [hostStep, pollPowerGood, hexhausted]
  · simp [hostStep, pollId, hexhausted]

/-- Settles O54: an exhausted poll aborts; any other makes one read, and goes on or is pushed again. -/
theorem boundedPollTimesOut : Obligations.BoundedPollTimesOut := by
  refine ⟨?_, fun s c reads rest hreads ha => ⟨?_, ?_⟩⟩
  · intro s c b ops tail hbound hr hne ha op hop
    obtain ⟨u, hagenda, houtcome, -, hend, hidle, houtcome', happlied, -, hagenda'⟩ :=
      abort_in_run (v := s) (started := []) .pollTimeout (by simp) hr hne ha rfl
    exact ⟨_, u, hostStep_exhausted_poll hbound c hop, hagenda, houtcome, rfl, rfl, hend, hidle, houtcome', happlied,
      hagenda'⟩
  · refine ⟨_, rfl, ?_⟩
    have hagenda : s.drawBit.2.agenda c = rest := ha
    rw [pollPowerGood, pollExhausted_of_lt hreads, if_neg nofun]
    cases hdraw : s.drawBit.1 with
    | true => exact ⟨rfl, rfl, fun _ => hagenda, fun hd => absurd (hdraw.symm.trans hd) nofun⟩
    | false =>
      refine ⟨rfl, rfl, fun hd => absurd (hdraw.symm.trans hd) nofun, fun _ => ?_⟩
      rw [if_neg nofun, State.agenda_push, hagenda]
      rfl
  · intro u id hexec hresult
    have hframe := exec_frame hexec
    have hagenda : u.agenda c = rest := by rw [State.agenda, hframe.host]; exact ha
    refine ⟨if id = u.cfg.expectedId then u else u.push c [.pollId (reads + 1)], ?_, ?_⟩
    · simp only [hostStep, pollId, pollExhausted_of_lt hreads, Bool.false_eq_true, if_false, hexec, hresult]
    · rw [hframe.cfg]
      split
      · next hid => exact ⟨rfl, rfl, hresult, fun _ => hagenda, fun hne => absurd hid hne⟩
      · next hne =>
        refine ⟨rfl, rfl, hresult, fun hid => absurd hid hne, fun _ => ?_⟩
        rw [State.agenda_push, hagenda]
        rfl

end Sys2Proof.Machine
end

section
/-! PROOF. The host's procedures under the emulator (45_host_protocol.md R217 to R224): what a context's register operations and
scans leave of the host, what they write from `Idle`, and the memory after `halt_pulse` and `soft_reset_target`. -/

namespace Sys2Proof.Machine

/-! ### Sequences of operations of one context -/

theorem run_add {n : Nat} {s t : State} (h : Sys2Proof.core.run n s = .next t) (m : Nat) :
    Sys2Proof.core.run (n + m) s = Sys2Proof.core.run m t := by
  induction n generalizing s with
  | zero => cases h; rw [Nat.zero_add]
  | succ n ih =>
    cases hs : step s with
    | next u =>
      rw [run_step hs] at h
      rw [Nat.add_right_comm, run_step hs, ih h]
    | fault f =>
      have hcore : Sys2Proof.core.step s = .fault f := hs
      simp only [Host.Core.run, hcore] at h
      cases h
    | refused r =>
      have hcore : Sys2Proof.core.step s = .refused r := hs
      simp only [Host.Core.run, hcore] at h
      cases h

theorem State.undisturbed.configValid {s : State} {c : ContextId} (h : s.undisturbed c) : configValid s.cfg = true :=
  h.1

theorem run_one {s t : State} (h : step s = .next t) : Sys2Proof.core.run 1 s = .next t :=
  run_step h 0

/-- An operation that leaves the lock alone keeps what disturbs its context. -/
theorem keepsOthers_of_hostStep {s t : State} {c : ContextId} {op : HostOp} {rest : List HostOp}
    (h : hostStep c op (s.setAgenda c rest) = .next t) (hlock : t.host.lock = s.host.lock) : KeepsOthers c s t :=
  (KeepsOthers.setAgenda c s rest).trans (.of_frame (hostStep_frame h) (by simp [hlock]))

/-- In `n` steps the context `c` goes from `s` to `t`, with `rest` left to do; of the host only its agenda changes. -/
structure Ran (c : ContextId) (n : Nat) (rest : List HostOp) (s t : State) : Prop where
  run : Sys2Proof.core.run n s = .next t
  cfg : t.cfg = s.cfg
  inputs : t.inputs = s.inputs
  ready : s.ready = true → t.ready = true
  pinsOwned : s.pinsOwned = true → t.pinsOwned = true
  host : t.host = (s.setAgenda c rest).host

section
variable {c : ContextId} {n m : Nat} {rest rest' : List HostOp} {s t u : State}

theorem Ran.agenda (h : Ran c n rest s t) : t.agenda c = rest := by
  rw [State.agenda, h.host]
  exact State.agenda_setAgenda s c rest

theorem Ran.keepsOthers (h : Ran c n rest s t) : KeepsOthers c s t :=
  ⟨h.cfg, h.inputs, by rw [h.host]; simp, by rw [h.host]; simp,
    fun c' hc => by rw [h.host]; exact HostState.context_setContext_ne _ _ _ _ hc⟩

theorem Ran.trans (h : Ran c n rest s t) (h' : Ran c m rest' t u) : Ran c (n + m) rest' s u where
  run := by rw [run_add h.run, h'.run]
  cfg := h'.cfg.trans h.cfg
  inputs := h'.inputs.trans h.inputs
  ready hr := h'.ready (h.ready hr)
  pinsOwned hp := h'.pinsOwned (h.pinsOwned hp)
  host := by
    rw [h'.host, State.setAgenda_host, h.host]
    cases c <;> rfl

/-- One operation of `c` that leaves the host but its agenda alone. -/
theorem Ran.of_hostStep {op : HostOp} {ops : List HostOp} (hs : s.undisturbed c) (ha : s.agenda c = op :: rest)
    (hop : op ≠ .acquire) (h : hostStep c op (s.setAgenda c rest) = .next t) (hpins : s.pinsOwned = true → t.pinsOwned = true)
    (hhost : t.host = (s.setAgenda c ops).host) : Ran c 1 ops s t := by
  have hframe := hostStep_frame h
  exact ⟨run_one ((step_undisturbed hs ha hop).trans h), hframe.cfg, hframe.inputs, hframe.ready, hpins, hhost⟩

end

/-! ### Scans and register operations, from wherever the TAP is -/

/-- Under the emulator, with the link ready and the pins taken, `c` goes on undisturbed: none of its scans and register reads
fails. -/
structure Linked (c : ContextId) (s : State) : Prop where
  undisturbed : s.undisturbed c
  emulator : s.cfg.backend = .emulator
  ready : s.ready = true
  pinsOwned : s.pinsOwned = true

theorem mayFailMidway_of_emulator {g : Config} (h : g.backend = .emulator) : mayFailMidway g = false := by
  simp [mayFailMidway, h]

theorem Linked.canScan {c : ContextId} {s : State} (h : Linked c s) : s.canScan :=
  ⟨h.ready, h.pinsOwned, mayFailMidway_of_emulator h.emulator⟩

theorem Linked.of_ran {c : ContextId} {n : Nat} {rest : List HostOp} {s t : State} (h : Linked c s) (hran : Ran c n rest s t) :
    Linked c t :=
  ⟨hran.keepsOthers.undisturbed h.undisturbed, hran.cfg ▸ h.emulator, hran.ready h.ready, hran.pinsOwned h.pinsOwned⟩

theorem not_error_of_isError {r : Option Result} (h : isError r = false) :
    r ≠ some .transportError ∧ r ≠ some .invalidArgument := by
  constructor <;> (rintro rfl; cases h)

/-- An admitted call of a procedure makes its cycles and takes the pins if it is a `reset`. -/
theorem ran_call {c : ContextId} {s : State} {call : TransportCall} {rest : List HostOp} (hs : s.undisturbed c)
    (ha : s.agenda c = .event (.ofCall call) :: rest) (hmade : madeOfPins call = true) (hr : s.ready = true)
    (hp : needsPins call = true → s.pinsOwned = true) (hmid : mayFailMidway s.cfg = false) :
    ∃ t, Ran c 1 rest s t ∧ t.pinsOwned = true ∧ t.dev = cycleDevice s.cfg (callCycles s.cfg call) s.dev := by
  have hexec := exec_ofCall_whole (s := s.setAgenda c rest) hmade hr hp hmid
  obtain ⟨h1, h2⟩ := not_error_of_isError
    (isError_callResult call (samplesFrom s.draws (callCycles s.cfg call).length))
  exact ⟨_, .of_hostStep hs ha nofun (procedureEvent_ok hexec h1 h2) (fun _ => rfl) rfl, rfl, rfl⟩

/-- `reset` needs no pins and leaves the TAP in `Idle` (R180). -/
theorem ran_reset {c : ContextId} {s : State} {rest : List HostOp} (hs : s.undisturbed c)
    (hback : s.cfg.backend = .emulator) (hr : s.ready = true) (ha : s.agenda c = .event .reset :: rest) :
    ∃ t, Ran c 1 rest s t ∧ t.pinsOwned = true ∧ t.dev = cycleDevice s.cfg resetCycles s.dev :=
  ran_call (call := .reset) hs ha rfl hr nofun (mayFailMidway_of_emulator hback)

/-- The cycles of transport calls made one after the other. -/
def callsCycles (g : Config) (calls : List TransportCall) : List (Bool × Bool) :=
  calls.flatMap (callCycles g)

theorem cycleDevice_append (g : Config) (xs ys : List (Bool × Bool)) (d : Device) :
    cycleDevice g (xs ++ ys) d = cycleDevice g ys (cycleDevice g xs d) := by
  induction xs generalizing d with
  | nil => rfl
  | cons x xs ih => exact ih _

/-- A procedure's calls make their cycles, and none of them ends it. -/
theorem ran_calls {c : ContextId} {calls : List TransportCall} (hmade : ∀ call ∈ calls, madeOfPins call = true) {s : State}
    {rest : List HostOp} (hs : Linked c s) (ha : s.agenda c = issue (calls.map .ofCall) ++ rest) :
    ∃ t, Ran c calls.length rest s t ∧ t.dev = cycleDevice s.cfg (callsCycles s.cfg calls) s.dev := by
  induction calls generalizing s with
  | nil =>
    have hself : s.setAgenda c rest = s := by
      rw [← show s.agenda c = rest from ha]
      cases c <;> rfl
    exact ⟨s, ⟨rfl, rfl, rfl, id, id, (congrArg State.host hself).symm⟩, rfl⟩
  | cons call calls ih =>
    obtain ⟨t, hran, -, hdev⟩ := ran_call hs.undisturbed ha (hmade call List.mem_cons_self) hs.ready (fun _ => hs.pinsOwned)
      (mayFailMidway_of_emulator hs.emulator)
    obtain ⟨u, hran', hdev'⟩ := ih (fun x hx => hmade x (List.mem_cons_of_mem _ hx)) (hs.of_ran hran) hran.agenda
    refine ⟨u, ?_, ?_⟩
    · rw [List.length_cons, Nat.add_comm]
      exact hran.trans hran'
    · rw [hdev', hdev, hran.cfg, ← cycleDevice_append]
      rfl

/-- The same calls as events: the device goes through the same cycles. -/
theorem execEvents_calls {calls : List TransportCall} (hmade : ∀ call ∈ calls, madeOfPins call = true) {s : State}
    (hs : s.canScan) : ∃ t, execEvents (calls.map .ofCall) s = .next t ∧
      t.dev = cycleDevice s.cfg (callsCycles s.cfg calls) s.dev := by
  induction calls generalizing s with
  | nil => exact ⟨s, rfl, rfl⟩
  | cons call calls ih =>
    have hexec := exec_ofCall_of_canScan hs (hmade call List.mem_cons_self)
    obtain ⟨t, hrun, hdev⟩ := ih (s := { s with
      dev := cycleDevice s.cfg (callCycles s.cfg call) s.dev
      result := some (callResult call (samplesFrom s.draws (callCycles s.cfg call).length))
      draws := s.draws + (callCycles s.cfg call).length }) (fun x hx => hmade x (List.mem_cons_of_mem _ hx)) hs
    refine ⟨t, ?_, ?_⟩
    · rw [List.map_cons, execEvents_cons_ok hexec (isError_callResult _ _), hrun]
    · rw [hdev, ← cycleDevice_append]
      rfl

/-- The calls of `write_word` (R101). -/
def writeWordCalls (g : Config) (a d : Word) : List TransportCall :=
  [.updateIr (bitsOf g.irLen g.addrInstr.toNat), .updateDr (wordBits a), .updateDr (wordBits d)]

/-- The calls of `write_block` (R102). -/
def writeBlockCalls (g : Config) : Word → List Word → List TransportCall
  | _, [] => []
  | a, w :: ws => writeWordCalls g a w ++ writeBlockCalls g (a + 4#32) ws

theorem writeWordEvents_eq (g : Config) (a d : Word) : writeWordEvents g a d = (writeWordCalls g a d).map .ofCall := rfl

theorem writeBlockEvents_eq (g : Config) (a : Word) (ws : List Word) :
    writeBlockEvents g a ws = (writeBlockCalls g a ws).map .ofCall := by
  induction ws generalizing a with
  | nil => rfl
  | cons w ws ih => rw [writeBlockEvents, ih, writeBlockCalls, List.map_append, writeWordEvents_eq]

theorem length_writeBlockCalls (g : Config) (a : Word) (ws : List Word) :
    (writeBlockCalls g a ws).length = 3 * ws.length := by
  induction ws generalizing a with
  | nil => rfl
  | cons w ws ih =>
    have hhead : (writeWordCalls g a w).length = 3 := rfl
    rw [writeBlockCalls, List.length_append, ih, hhead, List.length_cons]
    omega

theorem madeOfPins_writeWordCalls {g : Config} (hc : configValid g = true) (a d : Word) :
    ∀ call ∈ writeWordCalls g a d, madeOfPins call = true := by
  obtain ⟨h1, -, -⟩ := addrInstr_fits hc
  have hir : madeOfPins (.updateIr (bitsOf g.irLen g.addrInstr.toNat)) = true :=
    madeOfPins_updateIr (by rwa [length_bitsOf])
  intro call h
  simp only [writeWordCalls, List.mem_cons, List.not_mem_nil, or_false] at h
  rcases h with rfl | rfl | rfl
  · exact hir
  · rfl
  · rfl

theorem madeOfPins_writeBlockCalls {g : Config} (hc : configValid g = true) (a : Word) (ws : List Word) :
    ∀ call ∈ writeBlockCalls g a ws, madeOfPins call = true := by
  induction ws generalizing a with
  | nil => nofun
  | cons w ws ih =>
    intro call h
    rcases List.mem_append.1 h with h | h
    · exact madeOfPins_writeWordCalls hc a w call h
    · exact ih (a + 4#32) call h

theorem hostStep_modify {s : State} (h : s.cfg.backend = .emulator) (c : ContextId) (a set clear : Word) :
    hostStep c (.modify a set clear) s = .next (((s.memRead a).2.returns (.okWord (s.memRead a).1)).push c
      (issue (writeWordEvents (s.memRead a).2.cfg a (((s.memRead a).1 ||| set) &&& ~~~clear)))) := by
  simp only [hostStep, withRegister_emulator h]
  rfl

/-- `modify` reads its word in one step, and then has to write it (R217). -/
theorem ran_modify {c : ContextId} {s : State} {a set clear : Word} {rest : List HostOp} (hs : s.undisturbed c)
    (hback : s.cfg.backend = .emulator) (ha : s.agenda c = .modify a set clear :: rest) : ∃ v t,
      Ran c 1 (issue (writeWordEvents s.cfg a ((v ||| set) &&& ~~~clear)) ++ rest) s t ∧ t.dev = s.dev ∧
        (wordIndex a < s.dev.mem.words → v = s.dev.mem.readWord (wordIndex a)) := by
  have hstep := hostStep_modify (s := s.setAgenda c rest) hback c a set clear
  rcases memRead_cases (s.setAgenda c rest) a with ⟨-, hread⟩ | ⟨hout, w, hread⟩ <;> rw [hread] at hstep
  · exact ⟨s.dev.mem.readWord (wordIndex a), _, .of_hostStep hs ha nofun hstep id (by cases c <;> rfl), rfl, fun _ => rfl⟩
  · exact ⟨w, _, .of_hostStep hs ha nofun hstep id (by cases c <;> rfl), rfl, fun hin => absurd hin hout⟩

/-! ### Writes from `Idle` (R204, R205, R217) -/

/-- `Linked`, but for the pins, and in `Idle`, where a write stores its word. -/
structure CanApply (c : ContextId) (s : State) : Prop where
  undisturbed : s.undisturbed c
  emulator : s.cfg.backend = .emulator
  ready : s.ready = true
  idle : s.dev.tap = .idle
  exact : countExact s.cfg 32
  bypass : s.cfg.addrInstr ∉ s.cfg.bypassSelect

/-- `CanApply` with the pins taken: a write of the context `c` stores its word. -/
structure CanWrite (c : ContextId) (s : State) : Prop extends CanApply c s where
  pinsOwned : s.pinsOwned = true

/-- `Ran`, from `Idle` to `Idle`, with the memory `m` at its end. -/
structure Wrote (c : ContextId) (n : Nat) (rest : List HostOp) (m : Memory) (s t : State) : Prop extends Ran c n rest s t where
  idle : t.dev.tap = .idle
  mem : t.dev.mem = m

/-- The read-modify-write of one word; out of range it does nothing (R162, R217). -/
def Memory.modify (m : Memory) (a set clear : Word) : Memory :=
  memWrite m a ((m.readWord (wordIndex a) ||| set) &&& ~~~clear)

/-- Bits of one word set and then cleared, each by a read-modify-write (R217, R224). -/
def Memory.pulse (m : Memory) (a mask : Word) : Memory :=
  (m.modify a mask 0#32).modify a 0#32 mask

section
variable {c : ContextId} {n k : Nat} {rest rest' : List HostOp} {m m' : Memory} {s t u : State} {g : Config}

theorem CanWrite.linked (h : CanWrite c s) : Linked c s :=
  ⟨h.undisturbed, h.emulator, h.ready, h.pinsOwned⟩

theorem CanWrite.of_canScan (hu : s.undisturbed c) (hback : s.cfg.backend = .emulator) (hscan : s.canScan)
    (hidle : s.dev.tap = .idle) (hexact : countExact s.cfg 32) (hbyp : s.cfg.addrInstr ∉ s.cfg.bypassSelect) : CanWrite c s := by
  obtain ⟨hready, howned, -⟩ := hscan
  exact ⟨⟨hu, hback, hready, hidle, hexact, hbyp⟩, howned⟩

theorem Wrote.canWrite (h : Wrote c n rest m s t) (hs : CanWrite c s) : CanWrite c t where
  undisturbed := h.keepsOthers.undisturbed hs.undisturbed
  emulator := h.cfg ▸ hs.emulator
  ready := h.ready hs.ready
  idle := h.idle
  exact := h.cfg ▸ hs.exact
  bypass := by rw [h.cfg]; exact hs.bypass
  pinsOwned := h.pinsOwned hs.pinsOwned

theorem Wrote.trans (h : Wrote c n rest m s t) (h' : Wrote c k rest' m' t u) : Wrote c (n + k) rest' m' s u :=
  ⟨h.toRan.trans h'.toRan, h'.idle, h'.mem⟩

/-- The steps from one point of a sequence to a later one. -/
theorem Wrote.run_rest (h : Wrote c n rest m s t) (h' : Wrote c (n + k) rest' m' s u) : Sys2Proof.core.run k t = .next u := by
  rw [← run_add h.run, h'.run]

variable (hs : CanWrite c s)
include hs

/-- `write_word` stores its word and ends the pairing (R204). -/
theorem wrote_writeWord (hg : s.cfg = g) {a d : Word} (ha : s.agenda c = issue (writeWordEvents g a d) ++ rest) :
    ∃ t, Wrote c 3 rest (memWrite s.dev.mem a d) s t ∧ t.dev.phase = if g.pRearm then .armed else .none := by
  subst hg
  have hmade := madeOfPins_writeWordCalls hs.undisturbed.configValid a d
  obtain ⟨t, hran, hdev⟩ := ran_calls hmade hs.linked ha
  obtain ⟨v, hexec, hdev'⟩ := execEvents_calls hmade hs.linked.canScan
  obtain ⟨w, hexec', hidle, hmem, hphase, -⟩ :=
    writeWordEffect s a d hs.undisturbed.configValid hs.linked.canScan hs.idle hs.exact hs.bypass
  obtain rfl : v = w := Host.Outcome.next.inj (hexec.symm.trans hexec')
  rw [hdev', ← hdev] at hidle hmem hphase
  exact ⟨t, ⟨hran, hidle, hmem⟩, hphase⟩

/-- `write_block` stores its words in order (R205). -/
theorem wrote_writeBlock (hg : s.cfg = g) {a : Word} {ws : List Word}
    (ha : s.agenda c = issue (writeBlockEvents g a ws) ++ rest) :
    ∃ t, Wrote c (3 * ws.length) rest (s.dev.mem.writeWords a ws) s t := by
  subst hg
  have hmade := madeOfPins_writeBlockCalls hs.undisturbed.configValid a ws
  rw [writeBlockEvents_eq] at ha
  obtain ⟨t, hran, hdev⟩ := ran_calls hmade hs.linked ha
  obtain ⟨v, hexec, hdev'⟩ := execEvents_calls hmade hs.linked.canScan
  obtain ⟨w, hexec', hidle, hmem, -⟩ :=
    execEvents_writeBlock a ws hs.undisturbed.configValid hs.linked.canScan hs.idle hs.exact hs.bypass
  rw [writeBlockEvents_eq] at hexec'
  obtain rfl : v = w := Host.Outcome.next.inj (hexec.symm.trans hexec')
  rw [hdev', ← hdev] at hidle hmem
  exact ⟨t, length_writeBlockCalls s.cfg a ws ▸ hran, hidle, hmem⟩

theorem wrote_modify {a set clear : Word} (ha : s.agenda c = .modify a set clear :: rest) :
    ∃ t, Wrote c 4 rest (s.dev.mem.modify a set clear) s t := by
  obtain ⟨v, t, hread, hdev, hv⟩ := ran_modify hs.undisturbed hs.emulator ha
  have hread' : Wrote c 1 _ s.dev.mem s t := ⟨hread, hdev ▸ hs.idle, congrArg Device.mem hdev⟩
  obtain ⟨u, hwrite, -⟩ := wrote_writeWord (hread'.canWrite hs) hread.cfg hread.agenda
  have hmem : memWrite t.dev.mem a ((v ||| set) &&& ~~~clear) = s.dev.mem.modify a set clear := by
    rw [hdev, Memory.modify]
    by_cases hin : wordIndex a < s.dev.mem.words
    · rw [hv hin]
    · rw [memWrite_out _ _ _ hin, memWrite_out _ _ _ hin]
  exact ⟨u, hmem ▸ hread'.trans hwrite⟩

/-- A `write_word` after what has been written so far. -/
theorem Wrote.writeWord {a d : Word} (h : Wrote c n (issue (writeWordEvents g a d) ++ rest) m s t) (hg : s.cfg = g) :
    ∃ u, Wrote c (n + 3) rest (memWrite m a d) s u ∧ u.dev.phase = if g.pRearm then .armed else .none := by
  obtain ⟨u, hwrite, hphase⟩ := wrote_writeWord (h.canWrite hs) (h.cfg.trans hg) h.agenda
  rw [h.mem] at hwrite
  exact ⟨u, h.trans hwrite, hphase⟩

theorem Wrote.writeBlock {a : Word} {ws : List Word} (h : Wrote c n (issue (writeBlockEvents g a ws) ++ rest) m s t)
    (hg : s.cfg = g) : ∃ u, Wrote c (n + 3 * ws.length) rest (m.writeWords a ws) s u := by
  obtain ⟨u, hwrite⟩ := wrote_writeBlock (h.canWrite hs) (h.cfg.trans hg) h.agenda
  rw [h.mem] at hwrite
  exact ⟨u, h.trans hwrite⟩

theorem Wrote.modify {a set clear : Word} (h : Wrote c n (.modify a set clear :: rest) m s t) :
    ∃ u, Wrote c (n + 4) rest (m.modify a set clear) s u := by
  obtain ⟨u, hwrite⟩ := wrote_modify (h.canWrite hs) h.agenda
  rw [h.mem] at hwrite
  exact ⟨u, h.trans hwrite⟩

end

/-! ### The memory after read-modify-writes -/

@[simp] theorem Memory.modify_words (m : Memory) (a set clear : Word) : (m.modify a set clear).words = m.words :=
  memWrite_words _ _ _

@[simp] theorem Memory.pulse_words (m : Memory) (a mask : Word) : (m.pulse a mask).words = m.words := by
  simp [Memory.pulse]

theorem Memory.modify_wf {m : Memory} (h : m.wf = true) (a set clear : Word) : (m.modify a set clear).wf = true :=
  memWrite_wf _ _ h

theorem Memory.pulse_wf {m : Memory} (h : m.wf = true) (a mask : Word) : (m.pulse a mask).wf = true :=
  Memory.modify_wf (Memory.modify_wf h _ _ _) _ _ _

theorem Memory.readWord_modify_ne (m : Memory) (a set clear : Word) {i : Nat} (h : i ≠ wordIndex a) :
    (m.modify a set clear).readWord i = m.readWord i :=
  readWord_memWrite_ne _ _ _ _ h

theorem Memory.readWord_pulse_ne (m : Memory) (a mask : Word) {i : Nat} (h : i ≠ wordIndex a) :
    (m.pulse a mask).readWord i = m.readWord i := by
  rw [Memory.pulse, Memory.readWord_modify_ne _ _ _ _ h, Memory.readWord_modify_ne _ _ _ _ h]

theorem or_and_not_self (x y : Word) : (x ||| y) &&& ~~~y = x &&& ~~~y := by
  rw [BitVec.and_or_distrib_right, BitVec.and_not_self]
  exact BitVec.or_zero

/-- Setting bits of a word in range. -/
theorem Memory.readWord_set {m : Memory} (h : m.wf = true) {a : Word} (hin : wordIndex a < m.words) (mask : Word) :
    (m.modify a mask 0#32).readWord (wordIndex a) = m.readWord (wordIndex a) ||| mask := by
  rw [Memory.modify, readWord_memWrite_same _ _ h hin, BitVec.not_zero, BitVec.and_allOnes]

/-- Bits set and then cleared are cleared. -/
theorem Memory.readWord_pulse_same {m : Memory} (h : m.wf = true) {a : Word} (hin : wordIndex a < m.words) (mask : Word) :
    (m.pulse a mask).readWord (wordIndex a) = m.readWord (wordIndex a) &&& ~~~mask := by
  have hset := Memory.readWord_set h hin mask
  rw [Memory.pulse, Memory.modify, readWord_memWrite_same _ _ (Memory.modify_wf h _ _ _) (by simpa using hin), hset,
    BitVec.or_zero, or_and_not_self]

/-- Settles O46: the two read-modify-writes, seen at the halt-control word and at every other. -/
theorem haltPulseEffect : Obligations.HaltPulseEffect := by
  intro s rest hc hback hin ht hi ha hscan hidle hexact hbyp hwf hrange
  have hs : CanWrite .main s := .of_canScan ⟨hc, hin, fun _ => ⟨ht, hi⟩⟩ hback hscan hidle hexact hbyp
  obtain ⟨t, hset⟩ := wrote_modify hs ha
  obtain ⟨u, hpulse⟩ := hset.modify hs
  have hmem : u.dev.mem = s.dev.mem.pulse s.cfg.haltCtrlAddr (haltMask s.cfg) := hpulse.mem
  refine ⟨t, u, hset.run, hset.run_rest hpulse, ?_, ?_, fun i hne => ?_, hpulse.agenda, hpulse.idle⟩
  · rw [hset.mem, Memory.readWord_set hwf hrange]
  · rw [hmem, Memory.readWord_pulse_same hwf hrange]
  · rw [hmem, Memory.readWord_pulse_ne _ _ _ hne]

/-! ### The host's own steps -/

/-- One step of `c` that is the host's own bookkeeping, with `rest` left to do: it leaves the device, the transport, the lock and
the other context alone. -/
structure Noted (c : ContextId) (rest : List HostOp) (s t : State) : Prop where
  step : step s = .next t
  agenda : t.agenda c = rest
  keeps : KeepsOthers c s t
  dev : t.dev = s.dev
  ready : t.ready = s.ready
  pinsOwned : t.pinsOwned = s.pinsOwned

theorem Noted.of_setHost {c : ContextId} {op : HostOp} {s : State} {rest : List HostOp} {h : HostState} (hs : s.undisturbed c)
    (ha : s.agenda c = op :: rest) (hop : op ≠ .acquire)
    (hstep : hostStep c op (s.setAgenda c rest) = .next ((s.setAgenda c rest).setHost h)) (hlock : h.lock = s.host.lock)
    (hagenda : (h.context c).agenda = rest) : Noted c rest s ((s.setAgenda c rest).setHost h) where
  step := (step_undisturbed hs ha hop).trans hstep
  agenda := hagenda
  keeps := keepsOthers_of_hostStep hstep hlock
  dev := rfl
  ready := rfl
  pinsOwned := rfl

theorem hostStep_markCoreReset (c : ContextId) (s : State) : hostStep c .markCoreReset s =
    .next (s.setHost { s.host with arcResetObserved := s.host.arcResetObserved || s.cfg.trackReset }) := by
  cases h : s.cfg.trackReset with
  | true => simp [hostStep, h]
  | false => simp only [hostStep, h, Bool.or_false]; rfl

theorem noted_markCoreReset {c : ContextId} {s : State} {rest : List HostOp} (hs : s.undisturbed c)
    (ha : s.agenda c = .markCoreReset :: rest) :
    ∃ t, Noted c rest s t ∧ t.host.arcResetObserved = (s.host.arcResetObserved || s.cfg.trackReset) := by
  refine ⟨_, .of_setHost hs ha nofun (hostStep_markCoreReset c _) ?_ ?_, ?_⟩ <;> cases c <;> rfl

theorem noted_checkRegisterMap {c : ContextId} {s : State} {rest : List HostOp} (hs : s.undisturbed c)
    (ha : s.agenda c = .checkRegisterMap :: rest) :
    ∃ t, Noted c rest s t ∧ t.host.arcResetObserved = s.host.arcResetObserved ∧
      (s.cfg.backend = .emulator → wordIndex s.cfg.haltCtrlAddr < s.dev.mem.words → (t.host.registerMapOk = true ↔
        s.dev.mem.readWord (wordIndex s.cfg.haltCtrlAddr) &&& (haltMask s.cfg ||| softResetMask s.cfg) = 0#32)) := by
  obtain ⟨ok, hcheck, hreport⟩ := checkRegisterMap_reports (s.setAgenda c rest)
  refine ⟨_, .of_setHost hs ha nofun (congrArg _ hcheck) ?_ ?_, ?_, hreport⟩ <;> cases c <;> rfl

/-! ### `soft_reset_target` (R224, R237) -/

/-- The memory after the first part of `soft_reset_target`: the halt field pulsed and the reset vector set. -/
def vectored (g : Config) (m : Memory) : Memory :=
  memWrite (m.pulse g.haltCtrlAddr (haltMask g)) g.resetVectorAddr g.enterPatchVector

@[simp] theorem vectored_words (g : Config) (m : Memory) : (vectored g m).words = m.words := by simp [vectored]

theorem vectored_wf {m : Memory} (h : m.wf = true) (g : Config) : (vectored g m).wf = true :=
  memWrite_wf _ _ (Memory.pulse_wf h _ _)

theorem readWord_vectored_halt {m : Memory} (h : m.wf = true) {g : Config} (hin : wordIndex g.haltCtrlAddr < m.words)
    (hne : wordIndex g.haltCtrlAddr ≠ wordIndex g.resetVectorAddr) :
    (vectored g m).readWord (wordIndex g.haltCtrlAddr) = m.readWord (wordIndex g.haltCtrlAddr) &&& ~~~haltMask g := by
  rw [vectored, readWord_memWrite_ne _ _ _ _ hne, Memory.readWord_pulse_same h hin]

theorem readWord_vectored_vector {m : Memory} (h : m.wf = true) {g : Config} (hin : wordIndex g.resetVectorAddr < m.words) :
    (vectored g m).readWord (wordIndex g.resetVectorAddr) = g.enterPatchVector :=
  readWord_memWrite_same _ _ (Memory.pulse_wf h _ _) (by simpa using hin)

theorem readWord_vectored_ne (g : Config) (m : Memory) {i : Nat} (hhalt : i ≠ wordIndex g.haltCtrlAddr)
    (hvec : i ≠ wordIndex g.resetVectorAddr) : (vectored g m).readWord i = m.readWord i := by
  rw [vectored, readWord_memWrite_ne _ _ _ _ hvec, Memory.readWord_pulse_ne _ _ _ hhalt]

/-- Bits cleared are clear. -/
theorem cleared_and_masks (x a b : Word) : x &&& ~~~a &&& ~~~b &&& (a ||| b) = 0#32 := by
  rw [BitVec.and_assoc, BitVec.and_assoc, ← BitVec.and_assoc (~~~a), ← BitVec.not_or, BitVec.and_comm (~~~(a ||| b)),
    BitVec.and_not_self]
  exact BitVec.and_zero

/-- The steps of `soft_reset_target`, up to the write that sets the soft-reset bit, and from there on. -/
theorem softReset_runs {c : ContextId} {s : State} {rest : List HostOp} (hs : CanWrite c s)
    (ha : s.agenda c = softResetOps s.cfg ++ rest) : ∃ t u,
      Sys2Proof.core.run 15 s = .next t ∧ Sys2Proof.core.run 6 t = .next u ∧ u.agenda c = rest ∧ u.dev.tap = .idle ∧
        t.dev.mem = (vectored s.cfg s.dev.mem).modify s.cfg.haltCtrlAddr (softResetMask s.cfg) 0#32 ∧
        u.dev.mem = (vectored s.cfg s.dev.mem).pulse s.cfg.haltCtrlAddr (softResetMask s.cfg) ∧
        u.host.arcResetObserved = (s.host.arcResetObserved || s.cfg.trackReset) ∧
        (wordIndex s.cfg.haltCtrlAddr < s.dev.mem.words → (u.host.registerMapOk = true ↔
          u.dev.mem.readWord (wordIndex s.cfg.haltCtrlAddr) &&& (haltMask s.cfg ||| softResetMask s.cfg) = 0#32)) := by
  simp only [softResetOps, haltPulseOps, List.append_assoc, List.cons_append, List.nil_append] at ha
  obtain ⟨s1, h1⟩ := wrote_modify hs ha
  obtain ⟨s2, h2⟩ := h1.modify hs
  obtain ⟨s3, h3, -⟩ := h2.writeWord hs rfl
  obtain ⟨t, ht⟩ := h3.modify hs
  obtain ⟨s5, h5⟩ := ht.modify hs
  have hs5 := h5.canWrite hs
  obtain ⟨s6, hmark, hobserved⟩ := noted_markCoreReset hs5.undisturbed h5.agenda
  obtain ⟨u, hcheck, hobserved', hreport⟩ := noted_checkRegisterMap (hmark.keeps.undisturbed hs5.undisturbed) hmark.agenda
  have hdev : u.dev = s5.dev := hcheck.dev.trans hmark.dev
  have hcfg : s6.cfg = s.cfg := hmark.keeps.cfg.trans h5.cfg
  refine ⟨t, u, ht.run, ?_, hcheck.agenda, hdev ▸ h5.idle, ht.mem, hdev ▸ h5.mem, ?_, fun hin => ?_⟩
  · rw [run_add (n := 4) (ht.run_rest h5) 2, run_step hmark.step, run_one hcheck.step]
  · rw [hobserved', hobserved, h5.host, h5.cfg]
    cases c <;> rfl
  · have hwords : s6.dev.mem.words = s.dev.mem.words := by rw [hmark.dev, h5.mem]; simp
    rw [hcfg, hwords] at hreport
    rw [hcheck.dev]
    exact hreport hs.emulator hin

/-- Settles O53: the two flag operations are the host's own; the check reports what `checkRegisterMap_eq` says; and
`soft_reset_target` clears the soft-reset bit last, in the halt-control word. -/
theorem coreResetFlag : Obligations.CoreResetFlag := by
  refine ⟨fun s c => ⟨rfl, rfl⟩, fun s c ok hread hnone => ?_, ?_⟩
  · have hcheck := checkRegisterMap_eq hread hnone
    refine ⟨congrArg _ hcheck, congrArg _ hcheck, ?_⟩
    simp only [hostStep, endProcedure, hcheck]
    rfl
  · rintro s rest halt vec hc hback hin ht hi ha hscan hidle hexact hbyp hwf rfl rfl
    have hs : CanWrite .main s := .of_canScan ⟨hc, hin, fun _ => ⟨ht, hi⟩⟩ hback hscan hidle hexact hbyp
    obtain ⟨t, u, hrun, hrun', hagenda, hidle', hmem, hmem', hobserved, hreport⟩ := softReset_runs hs ha
    have hwf' := vectored_wf hwf s.cfg
    have hset : ∀ {x}, wordIndex s.cfg.haltCtrlAddr < s.dev.mem.words →
        (vectored s.cfg s.dev.mem).readWord (wordIndex s.cfg.haltCtrlAddr) = x →
        t.dev.mem.readWord (wordIndex s.cfg.haltCtrlAddr) = x ||| softResetMask s.cfg ∧
          u.dev.mem.readWord (wordIndex s.cfg.haltCtrlAddr) = x &&& ~~~softResetMask s.cfg := by
      rintro x hhalt rfl
      have hhalt' : wordIndex s.cfg.haltCtrlAddr < (vectored s.cfg s.dev.mem).words := by rwa [vectored_words]
      rw [hmem, hmem', Memory.readWord_set hwf' hhalt', Memory.readWord_pulse_same hwf' hhalt']
      exact ⟨rfl, rfl⟩
    have hother : ∀ i, i ≠ wordIndex s.cfg.haltCtrlAddr →
        t.dev.mem.readWord i = (vectored s.cfg s.dev.mem).readWord i ∧
          u.dev.mem.readWord i = (vectored s.cfg s.dev.mem).readWord i := by
      intro i hi
      rw [hmem, hmem', Memory.readWord_modify_ne _ _ _ _ hi, Memory.readWord_pulse_ne _ _ _ hi]
      exact ⟨rfl, rfl⟩
    have happart := fun hhalt hne => hset hhalt (readWord_vectored_halt hwf hhalt hne)
    refine ⟨t, u, hrun, hrun', hagenda, hidle', by rw [hmem', Memory.pulse_words, vectored_words], hobserved, hreport, ?_,
      happart, ?_, ?_, ?_⟩
    · intro hhalt hne
      rw [hreport hhalt, (happart hhalt hne).2, cleared_and_masks]
    · intro hvec hne
      rw [(hother _ hne).1, (hother _ hne).2, readWord_vectored_vector hwf hvec]
      exact ⟨rfl, rfl⟩
    · intro hhalt heq
      refine hset hhalt ?_
      rw [heq] at hhalt ⊢
      exact readWord_vectored_vector hwf hhalt
    · intro i hi hvec
      rw [(hother i hi).2, readWord_vectored_ne _ _ hi hvec]

end Sys2Proof.Machine
end

section
/-! PROOF. `apply` (45_host_protocol.md R220, R221): the memory it leaves, word by word, and that a second `apply` leaves the same. -/

namespace Sys2Proof.Machine

/-! ### The words before the patch (R217, R218) -/

/-- The memory after the `halt_pulse` and the `gpio_assert` of `apply`. -/
def prepared (g : Config) (m : Memory) : Memory :=
  (m.pulse g.haltCtrlAddr (haltMask g)).modify g.gpioDirAddr g.gpioDirMask 0#32

/-- What the two make of the word `i`. -/
def preparedWord (g : Config) (i : Nat) (x : Word) : Word :=
  if i = wordIndex g.gpioDirAddr then (if i = wordIndex g.haltCtrlAddr then x &&& ~~~haltMask g else x) ||| g.gpioDirMask
  else if i = wordIndex g.haltCtrlAddr then x &&& ~~~haltMask g else x

@[simp] theorem prepared_words (g : Config) (m : Memory) : (prepared g m).words = m.words := by simp [prepared]

theorem prepared_wf {m : Memory} (h : m.wf = true) (g : Config) : (prepared g m).wf = true :=
  Memory.modify_wf (Memory.pulse_wf h _ _) _ _ _

theorem readWord_prepared {m : Memory} (h : m.wf = true) (g : Config) {i : Nat} (hin : i < m.words) :
    (prepared g m).readWord i = preparedWord g i (m.readWord i) := by
  have hpulse : (m.pulse g.haltCtrlAddr (haltMask g)).readWord i =
      if i = wordIndex g.haltCtrlAddr then m.readWord i &&& ~~~haltMask g else m.readWord i := by
    split
    · next hi => subst hi; exact Memory.readWord_pulse_same h hin _
    · next hi => exact Memory.readWord_pulse_ne _ _ _ hi
  unfold prepared preparedWord
  rw [← hpulse]
  split
  · next hi => subst hi; exact Memory.readWord_set (Memory.pulse_wf h _ _) (by simpa using hin) _
  · next hi => exact Memory.readWord_modify_ne _ _ _ _ hi

/-- Bits cleared and then bits set, twice. -/
theorem clear_set_twice (x a b : Word) : (x &&& ~~~a ||| b) &&& ~~~a ||| b = x &&& ~~~a ||| b := by
  ext i
  simp only [BitVec.getElem_or, BitVec.getElem_and, BitVec.getElem_not]
  cases x[i] <;> cases a[i] <;> cases b[i] <;> rfl

theorem preparedWord_preparedWord (g : Config) (i : Nat) (x : Word) :
    preparedWord g i (preparedWord g i x) = preparedWord g i x := by
  unfold preparedWord
  split
  · split
    · exact clear_set_twice _ _ _
    · rw [BitVec.or_assoc, BitVec.or_self]
  · split
    · rw [BitVec.and_assoc, BitVec.and_self]
    · rfl

/-! ### The patch and its postcodes (R219, R220) -/

/-- The memory after the postcode `0xF2`, the patch at word offset `t` and the postcode `0xF3`. -/
def loaded (g : Config) (ws : List Word) (t : Word) (m : Memory) : Memory :=
  memWrite ((memWrite m g.postcodeAddr (postcodeWord g 0xF2#8)).writeWords (4#32 * t) ws) g.postcodeAddr
    (postcodeWord g 0xF3#8)

/-- Word `k` of the patch stands at word `t + k`, modulo the address space (R221). -/
theorem blockIndex_patch (t : Word) (k : Nat) : blockIndex (4#32 * t) k = (t.toNat + k) % 2 ^ 30 := by
  simp only [blockIndex, BitVec.toNat_mul, BitVec.toNat_ofNat]
  omega

/-- No two words of a block no longer than the address space stand at the same place. -/
theorem blockIndex_injective (a : Word) {k l : Nat} (hk : k < 2 ^ 30) (hl : l < 2 ^ 30)
    (h : blockIndex a k = blockIndex a l) : k = l := by
  simp only [blockIndex] at h
  omega

theorem Memory.writeWords_wf {m : Memory} (h : m.wf = true) (a : Word) (ws : List Word) : (m.writeWords a ws).wf = true := by
  induction ws generalizing m a with
  | nil => exact h
  | cons w ws ih => exact ih (memWrite_wf a w h) (a + 4#32)

section
variable {g : Config} {ws : List Word} {t : Word} {m : Memory}

@[simp] theorem loaded_words : (loaded g ws t m).words = m.words := by simp [loaded]

theorem loaded_wf (h : m.wf = true) : (loaded g ws t m).wf = true :=
  memWrite_wf _ _ (Memory.writeWords_wf (memWrite_wf _ _ h) _ _)

theorem readWord_loaded_postcode (h : m.wf = true) (hin : wordIndex g.postcodeAddr < m.words) :
    (loaded g ws t m).readWord (wordIndex g.postcodeAddr) = postcodeWord g 0xF3#8 :=
  readWord_memWrite_same _ _ (Memory.writeWords_wf (memWrite_wf _ _ h) _ _) (by simpa using hin)

theorem readWord_loaded_patch (h : m.wf = true) (hlen : ws.length ≤ 2 ^ 30) {k : Nat} (hk : k < ws.length)
    (hin : blockIndex (4#32 * t) k < m.words) (hne : blockIndex (4#32 * t) k ≠ wordIndex g.postcodeAddr) :
    (loaded g ws t m).readWord (blockIndex (4#32 * t) k) = ws[k] := by
  rw [loaded, readWord_memWrite_ne _ _ _ _ hne]
  refine Memory.readWord_writeWords (memWrite_wf _ _ h) _ _ k hk (by simpa using hin) fun l hkl hl heq => ?_
  have := blockIndex_injective _ (by omega) (by omega) heq
  omega

theorem readWord_loaded_ne {i : Nat} (hpost : i ≠ wordIndex g.postcodeAddr)
    (hpatch : ∀ k, k < ws.length → i ≠ blockIndex (4#32 * t) k) : (loaded g ws t m).readWord i = m.readWord i := by
  rw [loaded, readWord_memWrite_ne _ _ _ _ hpost, Memory.readWord_writeWords_ne _ _ _ _ hpatch,
    readWord_memWrite_ne _ _ _ _ hpost]

/-- The memory after `apply`. -/
def applied (g : Config) (ws : List Word) (t : Word) (m : Memory) : Memory :=
  loaded g ws t (prepared g m)

@[simp] theorem applied_words : (applied g ws t m).words = m.words := by simp [applied]

theorem applied_wf (h : m.wf = true) : (applied g ws t m).wf = true :=
  loaded_wf (prepared_wf h g)

theorem readWord_applied_ne (h : m.wf = true) {i : Nat} (hin : i < m.words) (hpost : i ≠ wordIndex g.postcodeAddr)
    (hpatch : ∀ k, k < ws.length → i ≠ blockIndex (4#32 * t) k) :
    (applied g ws t m).readWord i = preparedWord g i (m.readWord i) := by
  rw [applied, readWord_loaded_ne hpost hpatch, readWord_prepared h g hin]

/-- A second `apply` leaves the memory of the first (R221): the loaded words are the same whatever stood there, and every other
word is prepared twice. -/
theorem applied_applied (h : m.wf = true) (hlen : ws.length ≤ 2 ^ 30) :
    applied g ws t (applied g ws t m) = applied g ws t m := by
  have h1 := applied_wf (g := g) (ws := ws) (t := t) h
  refine memory_ext_words (applied_wf h1) h1 applied_words fun i hi => ?_
  rw [applied_words] at hi
  have hin : i < m.words := by rwa [applied_words] at hi
  by_cases hpost : i = wordIndex g.postcodeAddr
  · subst hpost
    rw [applied, readWord_loaded_postcode (prepared_wf h1 g) (by simpa using hi), applied,
      readWord_loaded_postcode (prepared_wf h g) (by simpa using hin)]
  · by_cases hpatch : ∃ k, k < ws.length ∧ i = blockIndex (4#32 * t) k
    · obtain ⟨k, hk, rfl⟩ := hpatch
      rw [applied, readWord_loaded_patch (prepared_wf h1 g) hlen hk (by simpa using hi) hpost, applied,
        readWord_loaded_patch (prepared_wf h g) hlen hk (by simpa using hin) hpost]
    · have hpatch' : ∀ k, k < ws.length → i ≠ blockIndex (4#32 * t) k := fun k hk heq => hpatch ⟨k, hk, heq⟩
      rw [readWord_applied_ne h1 hi hpost hpatch', readWord_applied_ne h hin hpost hpatch', preparedWord_preparedWord]

end

/-! ### The steps of `apply` (R220) -/

/-- The `reset` of `apply` takes the pins and, from `Idle`, leaves the memory alone (R180, R181). -/
theorem CanApply.reset {c : ContextId} {s : State} {rest : List HostOp} (hs : CanApply c s)
    (ha : s.agenda c = .event .reset :: rest) : ∃ t, Wrote c 1 rest s.dev.mem s t ∧ CanWrite c t := by
  obtain ⟨t, hran, howned, hdev⟩ := ran_reset hs.undisturbed hs.emulator hs.ready ha
  have hmem : t.dev.mem = s.dev.mem := by
    rw [hdev, cycleDevice_resetCycles, edges_resetCycles_of_idle hs.idle]; rfl
  have hidle : t.dev.tap = .idle := by rw [hdev]; exact cycleDevice_resetCycles_tap _ _
  exact ⟨t, ⟨hran, hidle, hmem⟩, ⟨⟨hran.keepsOthers.undisturbed hs.undisturbed, hran.cfg ▸ hs.emulator, hran.ready hs.ready,
    hidle, hran.cfg ▸ hs.exact, by rw [hran.cfg]; exact hs.bypass⟩, howned⟩⟩

/-- `apply` from `Idle`, after which it could be called again. -/
theorem apply_runs {c : ContextId} {s : State} {g : Config} {ws : List Word} {t : Word} {rest : List HostOp}
    (hs : CanApply c s) (hg : s.cfg = g) (ha : s.agenda c = applyOps g ws t ++ rest) : ∃ u,
      Sys2Proof.core.run (3 * ws.length + 20) s = .next u ∧ u.agenda c = rest ∧ CanApply c u ∧ u.cfg = g ∧
        u.dev.mem = applied g ws t s.dev.mem ∧ u.dev.phase = (if g.pRearm then .armed else .none) ∧
        (wordIndex g.haltCtrlAddr < s.dev.mem.words → (u.host.registerMapOk = true ↔
          u.dev.mem.readWord (wordIndex g.haltCtrlAddr) &&& (haltMask g ||| softResetMask g) = 0#32)) := by
  simp only [applyOps, haltPulseOps, gpioAssertOps, postcodeOps, List.append_assoc, List.cons_append, List.nil_append] at ha
  obtain ⟨s0, hreset, hs0⟩ := hs.reset ha
  have hcfg0 : s0.cfg = g := hreset.cfg.trans hg
  obtain ⟨s1, h1⟩ := wrote_modify hs0 hreset.agenda
  obtain ⟨s2, h2⟩ := h1.modify hs0
  obtain ⟨s3, h3⟩ := h2.modify hs0
  obtain ⟨s4, h4, -⟩ := h3.writeWord hs0 hcfg0
  obtain ⟨s5, h5⟩ := h4.writeBlock hs0 hcfg0
  obtain ⟨s6, h6, hphase⟩ := h5.writeWord hs0 hcfg0
  have hs6 := h6.canWrite hs0
  have hcfg6 : s6.cfg = g := h6.cfg.trans hcfg0
  have hmem : s6.dev.mem = applied g ws t s.dev.mem := by rw [h6.mem, hreset.mem]; rfl
  obtain ⟨u, hcheck, -, hreport⟩ := noted_checkRegisterMap hs6.undisturbed h6.agenda
  rw [hcfg6] at hreport
  have hcfg : u.cfg = g := hcheck.keeps.cfg.trans hcfg6
  refine ⟨u, ?_, hcheck.agenda, ⟨hcheck.keeps.undisturbed hs6.undisturbed, ?_, ?_, ?_, ?_, ?_⟩, hcfg, ?_, ?_, fun hin => ?_⟩
  · have hsteps : 3 * ws.length + 20 = 1 + (4 + 4 + 4 + 3 + 3 * ws.length + 3) + 1 := by omega
    rw [hsteps, run_add (hreset.trans h6).run, run_one hcheck.step]
  · rw [hcfg, ← hg]; exact hs.emulator
  · rw [hcheck.ready]; exact hs6.ready
  · rw [hcheck.dev]; exact h6.idle
  · rw [hcfg, ← hg]; exact hs.exact
  · rw [hcfg, ← hg]; exact hs.bypass
  · rw [hcheck.dev, hmem]
  · rw [hcheck.dev, hphase]
  · rw [hcheck.dev]
    exact hreport (by rw [← hg]; exact hs.emulator) (by rw [hmem, applied_words]; exact hin)

/-- Settles O47: the first call leaves the memory `applied`, which the second leaves as it is. -/
theorem applyTwiceIsApplyOnce : Obligations.ApplyTwiceIsApplyOnce := by
  rintro s ws t rest pw halt gpio post hc hback hin ht hi ha hready hidle hexact hbyp hwf hlen hpw rfl rfl rfl
  obtain rfl : pw = blockIndex (4#32 * t) := funext fun k => by rw [hpw, blockIndex_patch]
  have hs : CanApply .main s := ⟨⟨hc, hin, fun _ => ⟨ht, hi⟩⟩, hback, hready, hidle, hexact, hbyp⟩
  obtain ⟨u, hrun, hagenda, hu, hcfg, hmem, hphase, hreport⟩ := apply_runs hs rfl ha
  obtain ⟨v, hrun', hagenda', hv, -, hmem', hphase', hreport'⟩ := apply_runs hu hcfg hagenda
  have htwice : v.dev.mem = u.dev.mem := by rw [hmem', hmem, applied_applied hwf hlen]
  have hwords : u.dev.mem.words = s.dev.mem.words := by rw [hmem, applied_words]
  refine ⟨u, v, hrun, hrun', hagenda, hagenda', hu.idle, hphase, hv.idle.trans hu.idle.symm, hphase'.trans hphase.symm, htwice,
    fun hhalt => ⟨hreport hhalt, ?_⟩, hwords, fun hpost => ?_, fun k hk hpatch hne => ?_, fun hhalt hgpio hpost hpatch => ?_,
    fun hgpio hhalt hpost hpatch => ?_, fun i hhalt hgpio hpost hpatch => ?_⟩
  · rw [Bool.eq_iff_iff, hreport' (hwords.symm ▸ hhalt), hreport hhalt, htwice]
  · rw [hmem]
    exact readWord_loaded_postcode (prepared_wf hwf _) (by simpa using hpost)
  · rw [hmem]
    exact readWord_loaded_patch (prepared_wf hwf _) hlen hk (by simpa using hpatch) hne
  · rw [hmem, readWord_applied_ne hwf hhalt hpost hpatch, preparedWord, if_neg hgpio, if_pos rfl]
  · rw [hmem, readWord_applied_ne hwf hgpio hpost hpatch, preparedWord, if_pos rfl, if_neg hhalt]
  · rw [hmem, applied, readWord_loaded_ne hpost hpatch, prepared, Memory.readWord_modify_ne _ _ _ _ hgpio,
      Memory.readWord_pulse_ne _ _ _ hhalt]

end Sys2Proof.Machine
end

section
/-! PROOF. Runs of the Reset Sequencer (45_host_protocol.md R229 to R238): the sections that start one, its order, and that an
emulated run goes through its states to its end, from every state of the device. -/

namespace Sys2Proof.Machine

/-! ### Operations that complete -/

/-- The context `c` goes on from `s` to `t`, with `rest` left to do, and leaves the lock, the other context and the flag of R237
alone; what it has of the transport it keeps. -/
structure Goes (c : ContextId) (rest : List HostOp) (s t : State) : Prop where
  reaches : reaches s t
  agenda : t.agenda c = rest
  keeps : KeepsOthers c s t
  ready : s.ready = true → t.ready = true
  pinsOwned : s.pinsOwned = true → t.pinsOwned = true
  observed : t.host.arcResetObserved = s.host.arcResetObserved

section
variable {c : ContextId} {n : Nat} {rest rest' : List HostOp} {s t u : State}

theorem Goes.trans (h : Goes c rest s t) (h' : Goes c rest' t u) : Goes c rest' s u where
  reaches := h.reaches.trans h'.reaches
  agenda := h'.agenda
  keeps := h.keeps.trans h'.keeps
  ready := h'.ready ∘ h.ready
  pinsOwned := h'.pinsOwned ∘ h.pinsOwned
  observed := h'.observed.trans h.observed

theorem Goes.linked (h : Goes c rest s t) (hs : Linked c s) : Linked c t :=
  ⟨h.keeps.undisturbed hs.undisturbed, h.keeps.cfg ▸ hs.emulator, h.ready hs.ready, h.pinsOwned hs.pinsOwned⟩

theorem Ran.goes (h : Ran c n rest s t) : Goes c rest s t :=
  ⟨⟨n, h.run⟩, h.agenda, h.keepsOthers, h.ready, h.pinsOwned, by rw [h.host]; simp⟩

theorem Noted.goes (h : Noted c rest s t) (hobserved : t.host.arcResetObserved = s.host.arcResetObserved) : Goes c rest s t :=
  ⟨.head h.step (.refl t), h.agenda, h.keeps, by rw [h.ready]; exact id, by rw [h.pinsOwned]; exact id, hobserved⟩

/-- One operation of `c` that leaves the lock, the pins and the flag of R237 alone. -/
theorem Goes.of_hostStep {op : HostOp} (hs : s.undisturbed c) (ha : s.agenda c = op :: rest) (hop : op ≠ .acquire)
    (h : hostStep c op (s.setAgenda c rest) = .next t) (hagenda : t.agenda c = rest') (hlock : t.host.lock = s.host.lock)
    (hpins : t.pinsOwned = s.pinsOwned) (hobserved : t.host.arcResetObserved = s.host.arcResetObserved) : Goes c rest' s t where
  reaches := .head ((step_undisturbed hs ha hop).trans h) (.refl t)
  agenda := hagenda
  keeps := keepsOthers_of_hostStep h hlock
  ready := (hostStep_frame h).ready
  pinsOwned := by rw [hpins]; exact id
  observed := hobserved

theorem goes_setSeq {q : SeqState} (hs : s.undisturbed c) (ha : s.agenda c = .setSeq q :: rest) :
    ∃ t, Goes c rest s t ∧ t.host.seq = q := by
  have hnoted := Noted.of_setHost hs ha nofun rfl (by cases c <;> rfl) (by cases c <;> rfl)
  exact ⟨_, hnoted.goes (by cases c <;> rfl), rfl⟩

end

/-- With the parameters `g`, the context `c` does all of `ops`, from every state of the device and whatever it does next. -/
def Completes (g : Config) (c : ContextId) (ops : List HostOp) : Prop :=
  ∀ (s : State) (rest : List HostOp), Linked c s → s.cfg = g → s.agenda c = ops ++ rest → ∃ t, Goes c rest s t

section
variable {g : Config} {c : ContextId}

theorem Completes.append {xs ys : List HostOp} (hx : Completes g c xs) (hy : Completes g c ys) :
    Completes g c (xs ++ ys) := by
  intro s rest hs hg ha
  rw [List.append_assoc] at ha
  obtain ⟨t, hfirst⟩ := hx s (ys ++ rest) hs hg ha
  obtain ⟨u, hsecond⟩ := hy t rest (hfirst.linked hs) (hfirst.keeps.cfg.trans hg) hfirst.agenda
  exact ⟨u, hfirst.trans hsecond⟩

theorem completes_calls {calls : List TransportCall} (hmade : ∀ call ∈ calls, madeOfPins call = true) :
    Completes g c (issue (calls.map .ofCall)) := by
  intro s rest hs _ ha
  obtain ⟨t, hran, -⟩ := ran_calls hmade hs ha
  exact ⟨t, hran.goes⟩

theorem completes_writeWord (hc : configValid g = true) (a d : Word) : Completes g c (issue (writeWordEvents g a d)) :=
  completes_calls (madeOfPins_writeWordCalls hc a d)

theorem completes_writeBlock (hc : configValid g = true) (a : Word) (ws : List Word) :
    Completes g c (issue (writeBlockEvents g a ws)) := by
  rw [writeBlockEvents_eq]
  exact completes_calls (madeOfPins_writeBlockCalls hc a ws)

theorem completes_modify (hc : configValid g = true) (a set clear : Word) : Completes g c [.modify a set clear] := by
  intro s rest hs hg ha
  obtain ⟨v, t, hran, -⟩ := ran_modify hs.undisturbed hs.emulator ha
  rw [hg] at hran
  obtain ⟨u, hwrite⟩ := completes_writeWord hc a _ t rest (hs.of_ran hran) (hran.cfg.trans hg) hran.agenda
  exact ⟨u, hran.goes.trans hwrite⟩

theorem completes_checkRegisterMap : Completes g c [.checkRegisterMap] := by
  intro s rest hs _ ha
  obtain ⟨t, hnoted, hobserved, -⟩ := noted_checkRegisterMap hs.undisturbed ha
  exact ⟨t, hnoted.goes hobserved⟩

theorem completes_haltPulse (hc : configValid g = true) : Completes g c (haltPulseOps g) :=
  (completes_modify hc _ _ _).append (completes_modify hc _ _ _)

theorem completes_apply (hc : configValid g = true) (ws : List Word) (t : Word) : Completes g c (applyOps g ws t) :=
  (completes_calls (calls := [.reset]) (by simp [madeOfPins])).append (completes_haltPulse hc)
    |>.append (completes_modify hc _ _ _) |>.append (completes_writeWord hc _ _)
    |>.append (completes_writeBlock hc _ _) |>.append (completes_writeWord hc _ _)
    |>.append completes_checkRegisterMap

/-- `soft_reset_target` up to the flag of R237. -/
theorem completes_softReset (hc : configValid g = true) : Completes g c (haltPulseOps g ++
    issue (writeWordEvents g g.resetVectorAddr g.enterPatchVector) ++
    [.modify g.haltCtrlAddr (softResetMask g) 0#32, .modify g.haltCtrlAddr 0#32 (softResetMask g)]) :=
  (completes_haltPulse hc).append (completes_writeWord hc _ _)
    |>.append ((completes_modify hc _ _ _).append (completes_modify hc _ _ _))

/-! ### The `verify` of a run (R222, R232) -/

/-- One word of `verify`: the next word is next, or the postcode of a mismatch and then its failure. -/
theorem goes_compareWord {s : State} {k : Nat} {w t : Word} {ws : List Word} {rest : List HostOp} (hs : Linked c s)
    (ha : s.agenda c = .compareWords k (w :: ws) t :: rest) : ∃ u,
      Goes c (.compareWords (k + 1) ws t :: rest) s u ∨ ∃ r, Goes c (postcodeOps s.cfg 0x6#8 ++ .fail r :: rest) s u := by
  have hread : ∃ v u, u.host = (s.setAgenda c rest).host ∧ u.cfg = s.cfg ∧ u.pinsOwned = s.pinsOwned ∧
      hostStep c (.compareWords k (w :: ws) t) (s.setAgenda c rest) = .next (compareWord c k w ws t v u) := by
    simp only [hostStep, withRegister_emulator (s := s.setAgenda c rest) hs.emulator]
    rcases memRead_cases (s.setAgenda c rest) (4#32 * t + 4#32 * BitVec.ofNat 32 k) with ⟨-, h⟩ | ⟨-, v, h⟩ <;> rw [h]
    · exact ⟨_, (s.setAgenda c rest).returns _, rfl, rfl, rfl, rfl⟩
    · exact ⟨_, ((s.setAgenda c rest).advanceDraws 1).returns _, rfl, rfl, rfl, rfl⟩
  obtain ⟨v, u, hhost, hcfg, hpins, hstep⟩ := hread
  have hagenda : u.agenda c = rest := by rw [State.agenda, hhost]; exact State.agenda_setAgenda s c rest
  by_cases hmatch : v = w
  · rw [compareWord, if_pos hmatch] at hstep
    refine ⟨_, .inl (.of_hostStep hs.undisturbed ha nofun hstep ?_ ?_ hpins ?_)⟩
    · rw [State.agenda_push, hagenda]; rfl
    · simp [hhost]
    · simp [hhost]
  · have hnext := agenda_compareWord_of_ne hmatch u c k ws t
    rw [compareWord, if_neg hmatch, hcfg, hagenda] at hnext
    rw [compareWord, if_neg hmatch, hcfg] at hstep
    refine ⟨_, .inr ⟨_, .of_hostStep hs.undisturbed ha nofun hstep hnext ?_ hpins ?_⟩⟩
    · simp [hhost]
    · simp [hhost]

/-- Whatever `verify` finds, what is left after it is the boundary it has in a run. -/
theorem goes_verify (hc : configValid g = true) (ws : List Word) (k : Nat) (t : Word) {s : State} {rest : List HostOp}
    (hs : Linked c s) (hg : s.cfg = g) (ha : s.agenda c = .compareWords k ws t :: .endProcedure .verify :: rest) :
    ∃ u, Goes c (.endProcedure .verify :: rest) s u := by
  induction ws generalizing s k with
  | nil => exact ⟨_, .of_hostStep hs.undisturbed ha nofun rfl (State.agenda_setAgenda _ _ _) (by simp) rfl (by simp)⟩
  | cons w ws ih =>
    obtain ⟨u, hmatch | ⟨r, hmismatch⟩⟩ := goes_compareWord hs ha
    · obtain ⟨v, hrest⟩ := ih (k + 1) (hmatch.linked hs) (hmatch.keeps.cfg.trans hg) hmatch.agenda
      exact ⟨v, hmatch.trans hrest⟩
    · rw [hg] at hmismatch
      have hu := hmismatch.linked hs
      obtain ⟨v, hcode⟩ := completes_writeWord hc _ _ u _ hu (hmismatch.keeps.cfg.trans hg) hmismatch.agenda
      have hfail : Goes c (.endProcedure .verify :: rest) v ((v.setAgenda c (.endProcedure .verify :: rest)).abort c r) :=
        .of_hostStep (hcode.linked hu).undisturbed hcode.agenda nofun rfl (by simp [unwind]) (by simp [State.abort]) rfl
          (by simp [State.abort])
      exact ⟨_, hmismatch.trans (hcode.trans hfail)⟩

theorem completes_runVerify (hc : configValid g = true) : Completes g c [.runVerify] := by
  intro s rest hs hg ha
  have hpush : Goes c (runVerifyOps g ++ rest) s ((s.setAgenda c rest).push c (runVerifyOps g)) :=
    .of_hostStep hs.undisturbed ha nofun (by rw [← hg]; rfl) (by simp) (by simp) rfl (by simp)
  by_cases hon : g.verifyEnabled = true
  · have hops : runVerifyOps g = [.compareWords 0 (patchWords g) g.patchTarget.word, .endProcedure .verify] := if_pos hon
    have hlinked := hpush.linked hs
    obtain ⟨u, hverify⟩ := goes_verify hc (patchWords g) 0 g.patchTarget.word (rest := rest) hlinked
      (hpush.keeps.cfg.trans hg) (by rw [hpush.agenda, hops]; rfl)
    have hend : Goes c rest u (u.setAgenda c rest) :=
      .of_hostStep (hverify.linked hlinked).undisturbed hverify.agenda nofun rfl (State.agenda_setAgenda _ _ _) (by simp) rfl
        (by simp)
    exact ⟨_, hpush.trans (hverify.trans hend)⟩
  · have hops : runVerifyOps g = [] := if_neg hon
    rw [hops] at hpush
    exact ⟨_, hpush⟩

/-- A sequencer state is entered after operations that complete. -/
theorem Completes.to_seq {ops rest : List HostOp} {q : SeqState} {s : State} (h : Completes g c ops) (hs : Linked c s)
    (hg : s.cfg = g) (ha : s.agenda c = ops ++ .setSeq q :: rest) : ∃ t, Goes c rest s t ∧ t.host.seq = q := by
  obtain ⟨t, hops⟩ := h s _ hs hg ha
  obtain ⟨u, hset, hseq⟩ := goes_setSeq (hops.linked hs).undisturbed hops.agenda
  exact ⟨u, hops.trans hset, hseq⟩

/-! ### The two ends of a run (R231, R234) -/

theorem goes_lines (es : List LineEvent) {s : State} {rest : List HostOp} (hs : s.undisturbed c)
    (ha : s.agenda c = es.map .sequencingLine ++ rest) : ∃ t, Goes c rest s t := by
  induction es generalizing s with
  | nil => exact ⟨s, .refl s, ha, .refl c s, id, id, rfl⟩
  | cons e es ih =>
    have hline : Goes c _ s (s.setAgenda c (es.map .sequencingLine ++ rest)) :=
      .of_hostStep hs ha nofun rfl (State.agenda_setAgenda _ _ _) (by simp) rfl (by simp)
    obtain ⟨t, hrest⟩ := ih (hline.keeps.undisturbed hs) hline.agenda
    exact ⟨t, hline.trans hrest⟩

/-- The first operations of the bring-up, up to the patching: the lines and a `reset`, which takes the pins. -/
theorem goes_to_patching {s : State} {rest : List HostOp} (hs : s.undisturbed c) (hback : s.cfg.backend = .emulator)
    (hr : s.ready = true) (ha : s.agenda c = sequencingLineOps ++ .event .reset :: .setSeq .patching :: rest) :
    ∃ t, Goes c rest s t ∧ t.host.seq = .patching ∧ Linked c t := by
  obtain ⟨s1, hlines⟩ := goes_lines [.assert_, .delay1ms, .deassert, .delay2ms] hs ha
  have hs1 := hlines.keeps.undisturbed hs
  obtain ⟨s2, hreset, howned, -⟩ := ran_reset hs1 (hlines.keeps.cfg ▸ hback) (hlines.ready hr) hlines.agenda
  have hs2 : Linked c s2 := ⟨hreset.keepsOthers.undisturbed hs1, hreset.cfg ▸ hlines.keeps.cfg ▸ hback,
    hreset.ready (hlines.ready hr), howned⟩
  obtain ⟨t, hset, hseq⟩ := goes_setSeq hs2.undisturbed hreset.agenda
  exact ⟨t, hlines.trans (hreset.goes.trans hset), hseq, hset.linked hs2⟩

/-- The last operations of a run, under either backend (R234). -/
theorem run_end {s : State} {rest : List HostOp} (hs : s.undisturbed c)
    (ha : s.agenda c = [.event .teardown, .markPatched, .finish .ok, .endProcedure .run] ++ rest) : ∃ t,
      Sys2Proof.core.run 4 s = .next t ∧ t.host.workaroundApplied = true ∧ t.pinsOwned = false ∧ t.host.seq = .idle ∧
        (t.host.context c).outcome = some .ok ∧ t.dev = s.dev ∧ t.agenda c = rest ∧
        t.host.arcResetObserved = s.host.arcResetObserved := by
  have hteardown : hostStep c (.event .teardown) (s.setAgenda c (.markPatched :: .finish .ok :: .endProcedure .run :: rest)) =
      .next _ := rfl
  have hs1 := (keepsOthers_of_hostStep hteardown (by cases c <;> rfl)).undisturbed hs
  have hmark := Noted.of_setHost (op := .markPatched) (rest := .finish .ok :: .endProcedure .run :: rest) hs1
    (by cases c <;> rfl) nofun rfl (by cases c <;> rfl) (by cases c <;> rfl)
  have hs2 := hmark.keeps.undisturbed hs1
  have hfinish := Noted.of_setHost (op := .finish .ok) (rest := .endProcedure .run :: rest) hs2 hmark.agenda nofun rfl
    (by cases c <;> rfl) (by cases c <;> rfl)
  have hs3 := hfinish.keeps.undisturbed hs2
  obtain ⟨t, hend, hidle, hcontext, happlied, hobserved, hdev, howned⟩ := endProcedure_run (State.setAgenda _ c rest)
  refine ⟨t, ?_, happlied.trans ?_, howned.trans ?_, hidle, (congrArg Context.outcome (hcontext c)).trans ?_, hdev.trans ?_,
    (congrArg Context.agenda (hcontext c)).trans ?_, hobserved.trans ?_⟩
  · rw [run_step ((step_undisturbed hs ha nofun).trans hteardown), run_step hmark.step, run_step hfinish.step]
    exact run_one ((step_undisturbed hs3 hfinish.agenda nofun).trans (congrArg _ hend))
  all_goals cases c <;> rfl

/-- The `soft_reset_target` of a run and its end. -/
theorem goes_to_run_end {s : State} {rest : List HostOp} (hc : configValid g = true) (hs : Linked c s) (hg : s.cfg = g)
    (ha : s.agenda c = softResetOps g ++ [.event .teardown, .markPatched, .finish .ok, .endProcedure .run] ++ rest) : ∃ t,
      reaches s t ∧ t.host.seq = .idle ∧ t.host.workaroundApplied = true ∧ t.pinsOwned = false ∧
        t.host.arcResetObserved = (s.host.arcResetObserved || g.trackReset) ∧ (t.host.context c).outcome = some .ok ∧
        t.agenda c = rest := by
  have hbody := completes_softReset (c := c) hc s
    (.markCoreReset :: .checkRegisterMap :: .event .teardown :: .markPatched :: .finish .ok :: .endProcedure .run :: rest) hs hg
    (by rw [ha]; simp [softResetOps])
  obtain ⟨s1, h1⟩ := hbody
  have hs1 := (h1.linked hs).undisturbed
  obtain ⟨s2, hmark, hobserved⟩ := noted_markCoreReset hs1 h1.agenda
  have hs2 := hmark.keeps.undisturbed hs1
  obtain ⟨s3, hcheck, hobserved', -⟩ := noted_checkRegisterMap hs2 hmark.agenda
  obtain ⟨t, hrun, happlied, howned, hidle, houtcome, -, hagenda, hobserved''⟩ :=
    run_end (hcheck.keeps.undisturbed hs2) hcheck.agenda
  refine ⟨t, h1.reaches.trans (.head hmark.step (.head hcheck.step ⟨4, hrun⟩)), hidle, happlied, howned, ?_, houtcome, hagenda⟩
  rw [hobserved'', hobserved', hobserved, h1.observed, h1.keeps.cfg, hg]

end

/-- An emulated bring-up goes through its states to its end. -/
theorem bringUp_runs {s : State} {c : ContextId} {rest : List HostOp} (hs : s.undisturbed c)
    (hback : s.cfg.backend = .emulator) (hemulation : s.cfg.emulation = true) (hr : s.ready = true)
    (ha : s.agenda c = bringUpOps s.cfg ++ rest) : ∃ a b d e z,
      reaches s a ∧ a.host.seq = .bringingUpTransport ∧ reaches a b ∧ b.host.seq = .patching ∧
      reaches b d ∧ d.host.seq = .verifying ∧ reaches d e ∧ e.host.seq = .releasing ∧
      reaches e z ∧ z.host.seq = .idle ∧ z.host.workaroundApplied = true ∧ z.pinsOwned = false ∧
      z.host.arcResetObserved = (s.host.arcResetObserved || s.cfg.trackReset) ∧
      (z.host.context c).outcome = some .ok ∧ z.agenda c = rest := by
  have hc := hs.configValid
  simp only [bringUpOps, hemulation, if_true, List.append_assoc, List.cons_append, List.nil_append] at ha
  obtain ⟨a, h1, ha1⟩ := goes_setSeq hs ha
  obtain ⟨b, h2, hb, hlinked⟩ :=
    goes_to_patching (h1.keeps.undisturbed hs) (h1.keeps.cfg ▸ hback) (h1.ready hr) h1.agenda
  have h12 := h1.trans h2
  obtain ⟨d, h3, hd⟩ := (completes_apply hc _ _).to_seq hlinked h12.keeps.cfg h2.agenda
  have h13 := h12.trans h3
  obtain ⟨e, h4, he⟩ := (completes_runVerify hc).to_seq (h3.linked hlinked) h13.keeps.cfg h3.agenda
  have h14 := h13.trans h4
  obtain ⟨z, h5, hidle, happlied, howned, hobserved, houtcome, hagenda⟩ :=
    goes_to_run_end hc (h4.linked (h3.linked hlinked)) h14.keeps.cfg (by rw [h4.agenda, List.append_assoc]; rfl)
  refine ⟨a, b, d, e, z, h1.reaches, ha1, h2.reaches, hb, h3.reaches, hd, h4.reaches, he, h5, hidle, happlied, howned, ?_,
    houtcome, hagenda⟩
  rw [hobserved, h14.observed]

/-! ### The sections that start a run (R235, R236) -/

theorem triggerBody_of_applied {s : State} (h : s.host.workaroundApplied = true) (c : ContextId) :
    triggerBody c s = s.push c (bringUpOps s.cfg) :=
  if_pos h

theorem triggerBody_of_not_applied {s : State} (h : s.host.workaroundApplied = false) (c : ContextId) :
    triggerBody c s = s.setHost { s.host with resetPending := true } :=
  if_neg (by rw [h]; nofun)

theorem pickupBody_of_pending {s : State} (h : s.host.resetPending = true) (c : ContextId) :
    pickupBody c s = (s.setHost { s.host with resetPending := false }).push c (mainRunOps s.cfg) :=
  if_pos h

theorem pickupBody_of_not_pending {s : State} (h : s.host.resetPending = false) (c : ContextId) : pickupBody c s = s :=
  if_neg (by rw [h]; nofun)

/-- Settles O50: each section and call is its definition; a run is followed from one sequencer state to the next. -/
theorem triggerRunsInlineOrDefers : Obligations.TriggerRunsInlineOrDefers := by
  refine ⟨fun s rest c ha => ⟨fun h => ?_, fun h => ?_, fun h => ?_, fun h => ?_⟩,
    fun s c => ⟨rfl, rfl, rfl, fun q => rfl⟩, fun g => ⟨?_, ?_⟩, fun s c rest hs ha => ?_,
    fun s c fromPowerGood rest hs hback hemulation hr ha => ?_⟩
  · refine ⟨_, congrArg Host.Outcome.next (triggerBody_of_applied h c), ?_, rfl, by simp⟩
    rw [State.agenda_push, ha]
  · exact congrArg Host.Outcome.next (triggerBody_of_not_applied h c)
  · refine ⟨_, congrArg Host.Outcome.next (pickupBody_of_pending h c), ?_, rfl, by simp⟩
    rw [State.agenda_push, ← ha]
    cases c <;> rfl
  · exact congrArg Host.Outcome.next (pickupBody_of_not_pending h c)
  · simp [mainRunOps, powerGoodOps]
  · simp [bringUpOps, sequencingLineOps]
  · obtain ⟨t, hrun, happlied, howned, hidle, houtcome, hdev, hagenda, -⟩ := run_end hs ha
    exact ⟨t, hrun, happlied, howned, hidle, houtcome, hdev, hagenda⟩
  · cases fromPowerGood with
    | false =>
      obtain ⟨a, b, d, e, z, hrun⟩ := bringUp_runs hs hback hemulation hr ha
      exact ⟨s, a, b, d, e, z, .refl s, nofun, hrun⟩
    | true =>
      simp only [mainRunOps, powerGoodOps, hemulation, if_true, List.cons_append, List.nil_append] at ha
      obtain ⟨p, hp, hseq⟩ := goes_setSeq hs ha
      have hcfg := hp.keeps.cfg
      obtain ⟨a, b, d, e, z, hrun⟩ := bringUp_runs (hp.keeps.undisturbed hs) (hcfg ▸ hback) (hcfg ▸ hemulation) (hp.ready hr)
        (hcfg.symm ▸ hp.agenda)
      rw [hcfg, hp.observed] at hrun
      exact ⟨p, a, b, d, e, z, hp.reaches, fun _ => hseq, hrun⟩

end Sys2Proof.Machine
end

section
/-! PROOF. The external trigger (60_exceptions.md R256, R257; 45_host_protocol.md R235, R238): its arrival, its delivery, the
five steps of its handler, and what a step that delivers none does to it and to the irq context. -/

namespace Sys2Proof.Machine

/-! ### Arrival and delivery (R256) -/

theorem raiseTrigger_of_option {s : State} (h : s.cfg.resetOnExternalSignal = true) :
    raiseTrigger s = s.setHost { s.host with triggerPending := true } :=
  if_pos h

theorem raiseTrigger_of_no_option {s : State} (h : s.cfg.resetOnExternalSignal = false) : raiseTrigger s = s :=
  if_neg (by rw [h]; nofun)

theorem triggerDue_of_pending {s : State} (ho : s.cfg.resetOnExternalSignal = true) (hp : s.host.triggerPending = true)
    (ha : s.agenda .irq = []) : triggerDue s = true := by
  simp [triggerDue, ho, hp, ha]

/-- With a handler running, or with the option clear, no trigger is to be delivered. -/
theorem triggerDue_eq_false {s : State} (h : s.agenda .irq ≠ [] ∨ s.cfg.resetOnExternalSignal = false) :
    triggerDue s = false := by
  rcases h with h | h <;> simp [triggerDue, h]

theorem step_trigger {s : State} {rest : List Input} (hc : configValid s.cfg = true) (hin : s.inputs = .trigger :: rest) :
    step s = .next (raiseTrigger { s with inputs := rest }) := by
  simp [step, hc, machineStep, hin]

/-- A trigger that is due is delivered by the next step that is not itself an arrival. -/
theorem step_delivers {s : State} (hc : configValid s.cfg = true) (hin : s.inputs.head? ≠ some .trigger)
    (hd : triggerDue s = true) : step s = .next (deliverTrigger { s with inputs := s.inputs.tail }) := by
  have hdue : ∀ slots, triggerDue { s with inputs := slots } ≠ false := fun _ => ne_false_of_eq_true hd
  rcases step_cases s with ⟨hbad, -⟩ | ⟨-, ⟨rest, hslots, -⟩ | ⟨rest, hslots, hs⟩ | ⟨-, -, u, rfl, hquiet⟩⟩
  · rw [hc] at hbad; cases hbad
  · exact absurd (by rw [hslots]; rfl) hin
  · rcases splitStep_cases { s with inputs := rest } with ⟨-, hdel⟩ | ⟨hno, -⟩
    · rw [hs, hdel, hslots]; rfl
    · exact absurd hno (hdue rest)
  · rcases hquiet with ⟨-, hs⟩ | ⟨hno, -⟩ | ⟨hno, -⟩ | ⟨hno, -⟩
    · exact hs
    all_goals exact absurd hno (hdue _)

/-! ### The handler (R235, R238) -/

/-- The handler between two of its steps: what it has written of the host, and `ops` left to do. -/
def State.handling (s : State) (busCancel : Bool) (lock : Lock) (resetPending : Bool) (ops : List HostOp) : State :=
  { s with host := { s.host with busCancel := busCancel, lock := lock, resetPending := resetPending } }.setAgenda .irq ops

section
variable {s : State}

theorem State.handling_self {ops : List HostOp} (ha : s.agenda .irq = ops) :
    s.handling s.host.busCancel s.host.lock s.host.resetPending ops = s := by
  subst ha; rfl

variable (hs : s.undisturbed .irq) {busCancel resetPending : Bool} {lock : Lock} {ops : List HostOp}
include hs

theorem State.handling_undisturbed : (s.handling busCancel lock resetPending ops).undisturbed .irq := by
  obtain ⟨hc, hin, -⟩ := hs
  exact ⟨hc, hin, nofun⟩

theorem step_handling_setBusCancel (b : Bool) :
    step (s.handling busCancel lock resetPending (.setBusCancel b :: ops)) = .next (s.handling b lock resetPending ops) :=
  step_undisturbed (State.handling_undisturbed hs) rfl nofun

theorem step_handling_acquire :
    step (s.handling busCancel .free resetPending (.acquire :: ops)) =
      .next (s.handling busCancel (.held .irq) resetPending ops) :=
  step_acquire (State.handling_undisturbed hs) rfl rfl

theorem step_handling_triggerBody (hp : s.host.workaroundApplied = false) :
    step (s.handling busCancel lock resetPending (.triggerBody :: ops)) = .next (s.handling busCancel lock true ops) :=
  (step_undisturbed (op := .triggerBody) (State.handling_undisturbed hs) rfl nofun).trans (congrArg Host.Outcome.next
    (triggerBody_of_not_applied (s := s.handling busCancel lock resetPending ops) hp .irq))

theorem step_handling_release :
    step (s.handling busCancel (.held .irq) resetPending (.release :: ops)) =
      .next (s.handling busCancel .free resetPending ops) :=
  step_undisturbed (State.handling_undisturbed hs) rfl nofun

/-- The handler to its end, with the lock free and the patch not applied: it leaves `reset_pending` set, and the lock free. -/
theorem handler_runs (ha : s.agenda .irq = onTriggerOps) (hl : s.host.lock = .free) (hp : s.host.workaroundApplied = false) :
    Sys2Proof.core.run 5 s = .next (s.handling false .free true []) := by
  calc Sys2Proof.core.run 5 s
      = Sys2Proof.core.run 5 (s.handling s.host.busCancel .free s.host.resetPending onTriggerOps) := by
        rw [← hl, State.handling_self ha]
    _ = Sys2Proof.core.run 3 (s.handling true (.held .irq) s.host.resetPending
          [.triggerBody, .release, .setBusCancel false]) := by
        rw [onTriggerOps, run_step (step_handling_setBusCancel hs true), run_step (step_handling_acquire hs)]
    _ = .next (s.handling false .free true []) := by
        rw [run_step (step_handling_triggerBody hs hp), run_step (step_handling_release hs),
          run_one (step_handling_setBusCancel hs false)]

end

/-! ### A step that delivers no trigger (R256, R257) -/

/-- From `s` to `t` the context `c` rested, or did its next operation, whole or begun as pin events (log 9). -/
def RestsOrMoves (c : ContextId) (s t : State) : Prop :=
  t.host.context c = s.host.context c ∨ ∃ op rest, s.agenda c = op :: rest ∧
    (hostStep c op (s.setAgenda c rest) = .next t ∨
      ∃ i, op = .event i ∧ splitEvent c .failCall i (s.setAgenda c rest) = some t)

theorem splitContext_moves (c : ContextId) (s : State) : RestsOrMoves c s (splitContext c s) := by
  unfold splitContext
  split
  · next i rest ha =>
    cases h : splitEvent c .failCall i (s.setAgenda c rest) with
    | none => exact .inl rfl
    | some t => exact .inr ⟨_, rest, ha, .inr ⟨i, rfl, h⟩⟩
  · exact .inl rfl

theorem splitStep_moves_irq {s : State} (hd : triggerDue s = false) : RestsOrMoves .irq s (splitStep s) := by
  rw [splitStep, if_neg (by rw [hd]; nofun)]
  split
  · exact splitContext_moves .irq s
  · split
    · exact .inl (splitProgram_other s nofun)
    · exact .inl ((splitContext_frame .main s).other .irq nofun)

/-- A step with no trigger to deliver is an arrival, or it keeps the pending trigger and starts no handler. -/
theorem step_without_delivery {s t : State} (hd : triggerDue s = false) (h : step s = .next t) :
    (∃ rest, t = raiseTrigger { s with inputs := rest }) ∨
    (t.host.triggerPending = s.host.triggerPending ∧ RestsOrMoves .irq { s with inputs := s.inputs.tail } t) := by
  rcases step_cases s with ⟨-, hs⟩ | ⟨-, ⟨rest, -, hs⟩ | ⟨rest, hslots, hs⟩ | ⟨-, -, u, rfl, hquiet⟩⟩
  · rw [hs] at h; cases h
  · rw [hs] at h; cases h
    exact .inl ⟨rest, rfl⟩
  · rw [hs] at h; cases h
    refine .inr ⟨?_, ?_⟩
    · rcases splitStep_cases { s with inputs := rest } with ⟨hdue, -⟩ | ⟨-, c, p, -, hframe⟩
      · exact absurd hdue (ne_true_of_eq_false hd)
      · exact hframe.pending
    · rw [hslots]
      exact splitStep_moves_irq (s := { s with inputs := rest }) hd
  · refine .inr ?_
    rcases hquiet with ⟨hdue, -⟩ | ⟨-, c, op, rest, ha, -, -, hs⟩ | ⟨-, -, -, hs⟩ | ⟨-, -, -, -, hs⟩
    · exact absurd hdue (ne_true_of_eq_false hd)
    · rw [hs] at h
      have hframe := (HostFrame.setContext c _ _).trans (hostStep_frame h)
      refine ⟨hframe.pending, ?_⟩
      cases c with
      | irq => exact .inr ⟨op, rest, ha, .inl h⟩
      | main => exact .inl (hframe.other .irq nofun)
    · rw [hs] at h
      have hhost := fetchStep_host h
      exact ⟨by rw [hhost], .inl (by rw [hhost])⟩
    · rw [hs] at h; cases h

/-- Settles O51: an arrival and a delivery are a step each, the handler is run operation by operation, and a step that delivers
no trigger is taken apart by who moves. -/
theorem triggerDelivery : Obligations.TriggerDelivery := by
  refine ⟨fun s hc => ⟨fun rest hin ho => ?_, fun rest hin ho => ?_, fun hin ho hp ha => ?_⟩,
    fun s hs ha => ⟨?_, fun hl hp => ?_⟩, fun s t hirq h => ?_⟩
  · rw [step_trigger hc hin, raiseTrigger_of_option (s := { s with inputs := rest }) ho]
    rfl
  · rw [step_trigger hc hin, raiseTrigger_of_no_option (s := { s with inputs := rest }) ho]
  · rw [step_delivers hc hin (triggerDue_of_pending ho hp ha)]
    rfl
  · exact step_undisturbed hs ha nofun
  · rw [handler_runs hs ha hl hp, ← hl]
    rfl
  · rcases step_without_delivery (triggerDue_eq_false hirq) h with ⟨rest, rfl⟩ | ⟨hpend, hmove⟩
    · cases ho : s.cfg.resetOnExternalSignal with
      | true =>
        rw [raiseTrigger_of_option (s := { s with inputs := rest }) ho]
        exact ⟨fun _ => rfl, nofun, .inl rfl⟩
      | false =>
        rw [raiseTrigger_of_no_option (s := { s with inputs := rest }) ho]
        exact ⟨id, fun _ => rfl, .inl rfl⟩
    · refine ⟨fun hp => hpend.trans hp, fun _ => hpend, ?_⟩
      rcases hmove with hrest | ⟨op, rest, ha, hop⟩
      · exact .inl hrest
      · exact .inr ⟨op, rest, _, ha, rfl, hop⟩

end Sys2Proof.Machine
end

section
/-! PROOF. The power-on values (10_state.md R57, 70_reset_and_hazards.md R270), component by component. -/

namespace Sys2Proof.Machine

/-- R57's rows of the TAP controller that have a value: TAP state, pairing phase, bound memory and the TCK latch. -/
theorem Device.powerOn_values :
    Device.powerOn.tap = .idle ∧ Device.powerOn.phase = .none ∧ Device.powerOn.mem.words = 0 ∧ Device.powerOn.tck = false :=
  ⟨rfl, rfl, rfl, rfl⟩

/-- R57's rows of the coordination state (R279): the four flags are false, the lock is free and the sequencer idle. -/
theorem HostState.powerOn_values :
    HostState.powerOn.workaroundApplied = false ∧ HostState.powerOn.resetPending = false ∧
      HostState.powerOn.arcResetObserved = false ∧ HostState.powerOn.busCancel = false ∧
      HostState.powerOn.lock = .free ∧ HostState.powerOn.seq = .idle :=
  ⟨rfl, rfl, rfl, rfl, rfl, rfl⟩

/-- Settles O7: the device and the host take their power-on values whatever the parameters are, and the transport's two latches
start clear. -/
theorem powerOnState : Obligations.PowerOnState := by
  intro c
  obtain ⟨htap, hphase, hwords, htck⟩ := Device.powerOn_values
  have hready : (State.powerOn c).ready = false := rfl
  have howned : (State.powerOn c).pinsOwned = false := rfl
  exact ⟨htap, hphase, hwords, htck, hready, howned, HostState.powerOn_values⟩

end Sys2Proof.Machine
end
